-- ==== Sys2Proof/Word.lean ====
section
/-! DEFINITION. The two word types of the TSF block: a byte of BUF or of a packet (R13) and a 32-bit register or
command word (R21, R70). -/

namespace Sys2Proof

/-- One byte, of BUF (R48) or on the wire (R13). -/
abbrev Byte := BitVec 8

/-- One 32-bit register of the window (R21) or one command word (R70). -/
abbrev Word := BitVec 32

end Sys2Proof
end

