-- ==== Sys2Proof/Config.lean ====
section
/-! DEFINITION. What an instance of the block fixes: the source's constants (00_scope.md R8), the implementation
parameters (R10) as one record, and the free value of the model (20_memory.md R55). -/

namespace Sys2Proof

/-- The implementation parameters of 00_scope.md R10. A model takes them as arguments; here they are one record,
carried unchanged by every step, so that a statement about every state is a statement about every instance (log 1). -/
structure Params where
  /-- N_TRACKS, the number of track slots. -/
  nTracks : Nat
  /-- BUF_BYTES, the size of BUF in bytes. -/
  bufBytes : Nat
  /-- REG_BASE, where the platform places the register window. -/
  regBase : Nat
  /-- The host address at which BUF address 0 appears (20_memory.md R62). -/
  bufBase : Nat
  /-- CC_INIT, the counter value of a new track. -/
  ccInit : Nat
  /-- SCR_DECODE_10: is_scrambled for the raw scrambling value 0b10. -/
  scrDecode10 : Bool
  /-- SCR_DECODE_11: is_scrambled for the raw scrambling value 0b11. -/
  scrDecode11 : Bool
deriving DecidableEq, Repr

/-- The legal values of R10's table; REG_BASE and BUF's base are any platform address. -/
abbrev Params.Legal (p : Params) : Prop :=
  1 ≤ p.nTracks ∧ p.nTracks ≤ 256 ∧ 188 ≤ p.bufBytes ∧ p.bufBytes ≤ 4294967295 ∧ p.ccInit ≤ 15

/-- The parameters of the test vectors (95_test_vectors.md, conventions): N_TRACKS 4, BUF_BYTES 1024, CC_INIT 0,
SCR_DECODE_10 = SCR_DECODE_11 = 1. The two base addresses are the model's (DESIGN CHOICE, unsafe, log 2). -/
def Params.vectors : Params :=
  { nTracks := 4, bufBytes := 1024, regBase := 0, bufBase := 64, ccInit := 0,
    scrDecode10 := true, scrDecode11 := true }

namespace Config

/-- PKT_BYTES (R8). -/
abbrev pktBytes : Nat := 188
/-- HDR_BYTES (R8). -/
abbrev hdrBytes : Nat := 4
/-- MAX_CHUNK (R8). -/
abbrev maxChunk : Nat := 182
/-- MAX_PKT_FIELD_LEN (R8). -/
abbrev maxPktFieldLen : Nat := 183
/-- SYNC (R8). -/
abbrev sync : Byte := 0x47#8
/-- STUFF (R8). -/
abbrev stuff : Byte := 0xFF#8
/-- AF_FLAGS (R8). -/
abbrev afFlags : Byte := 0x00#8
/-- CC_MOD (R8). -/
abbrev ccMod : Nat := 16
/-- The ID constant (10_state.md R22). -/
abbrev idWord : Word := 0x54534601#32

/-- The `n`-th free byte: what a read of an unwritten BUF byte yields (20_memory.md R55, "a model takes it as a free
draw"). No body: nothing can be proved of its value (free value, safe, log 5). -/
opaque freeByte : Nat → Byte

end Config
end Sys2Proof
end

