-- ==== Sys2Proof/Syntax.lean ====
section
/-! DEFINITION. The TSF command set, version 1 (30_encoding.md R71): one constructor per row of
spec/opcode_table.json. Operands that come from ARG0 and ARG1 are no part of the word (R72). -/

namespace Sys2Proof

/-- The eleven commands. `t` is the TRK field, the slot index 0 to 255 (R70); `fp` is the FP bit, force_pusi. -/
inductive Instr where
  /-- NOP (R87). -/
  | nop
  /-- TRK_CFG (R91). -/
  | trkCfg (t : Nat)
  /-- TRK_FREE (R92). -/
  | trkFree (t : Nat)
  /-- TRK_SETCC (R93). -/
  | trkSetcc (t : Nat)
  /-- TRK_READ (R94). -/
  | trkRead (t : Nat)
  /-- HDR_ENC (R96). -/
  | hdrEnc
  /-- HDR_DEC (R97). -/
  | hdrDec
  /-- AF_ENC (R101). -/
  | afEnc
  /-- AF_DEC (R102). -/
  | afDec
  /-- PACKETIZE (R106). -/
  | packetize (t : Nat) (fp : Bool)
  /-- PARSE (R115). -/
  | parse
deriving DecidableEq, Repr

end Sys2Proof
end

