-- ==== Sys2Proof/WellFormed.lean ====
section
/-! DEFINITION. Which terms of Instr stand for a command word: the slot index fits the 8-bit TRK field (30_encoding.md
R70). -/

namespace Sys2Proof

/-- The TRK field holds an unsigned 8-bit index, 0 to 255 (R70). -/
def trkFits (t : Nat) : Bool := decide (t < 256)

/-- Every operand of the command fits its field of the word (R70). -/
def Instr.wellFormed : Instr → Bool
  | .nop => true
  | .trkCfg t => trkFits t
  | .trkFree t => trkFits t
  | .trkSetcc t => trkFits t
  | .trkRead t => trkFits t
  | .hdrEnc => true
  | .hdrDec => true
  | .afEnc => true
  | .afDec => true
  | .packetize t _ => trkFits t
  | .parse => true

end Sys2Proof
end

