-- ==== Sys2Proof/Decode.lean ====
section
/-! DEFINITION. The command word (30_encoding.md R70 to R75): the opcode table as rows of mask and match, the total
decoder, rejecting by name, and the encoder. -/

namespace Sys2Proof

/-- The opcodes 0x0 to 0xA of R71, as names. -/
inductive Opcode where
  | nop | trkCfg | trkFree | trkSetcc | trkRead | hdrEnc | hdrDec | afEnc | afDec | packetize | parse
deriving DecidableEq, Repr

/-- Why a word selects no row: its opcode is reserved (R74), or a field its opcode does not use is not zero (R73). -/
inductive IllegalReason where
  | reservedOpcode
  | unusedFieldNonzero
deriving DecidableEq, Repr

/-- What the decoder answers: a command, or ILLEGAL (R75). -/
inductive Decoded where
  | instr (i : Instr)
  | illegal (r : IllegalReason)
deriving DecidableEq, Repr

/-- One row of the opcode map (R71). -/
structure OpcodeRow where
  op : Opcode
  pattern : Word
  mask : Word
deriving DecidableEq, Repr

/-- The opcode map of R71. -/
def opcodeMap : List OpcodeRow :=
  [ ⟨.nop,       0x00000000#32, 0xFFFFFFFF#32⟩,
    ⟨.trkCfg,    0x10000000#32, 0xF00FFFFF#32⟩,
    ⟨.trkFree,   0x20000000#32, 0xF00FFFFF#32⟩,
    ⟨.trkSetcc,  0x30000000#32, 0xF00FFFFF#32⟩,
    ⟨.trkRead,   0x40000000#32, 0xF00FFFFF#32⟩,
    ⟨.hdrEnc,    0x50000000#32, 0xFFFFFFFF#32⟩,
    ⟨.hdrDec,    0x60000000#32, 0xFFFFFFFF#32⟩,
    ⟨.afEnc,     0x70000000#32, 0xFFFFFFFF#32⟩,
    ⟨.afDec,     0x80000000#32, 0xFFFFFFFF#32⟩,
    ⟨.packetize, 0x90000000#32, 0xF007FFFF#32⟩,
    ⟨.parse,     0xA0000000#32, 0xFFFFFFFF#32⟩ ]

/-- A word selects a row when (w AND mask) = match (R71). -/
def OpcodeRow.selects (r : OpcodeRow) (w : Word) : Bool := (w &&& r.mask) == r.pattern

/-- OPC, bits 31:28 (R70). -/
def opcField (w : Word) : BitVec 4 := w.extractLsb' 28 4

/-- t = zext_32(w[27:20]) (R82). -/
def trkField (w : Word) : Nat := (w.extractLsb' 20 8).toNat

/-- fp = w[19] (R82). -/
def fpField (w : Word) : Bool := w.getLsbD 19

/-- The command a row's word stands for, with its fields pulled out (R82). -/
def buildInstr (o : Opcode) (w : Word) : Instr :=
  match o with
  | .nop => .nop
  | .trkCfg => .trkCfg (trkField w)
  | .trkFree => .trkFree (trkField w)
  | .trkSetcc => .trkSetcc (trkField w)
  | .trkRead => .trkRead (trkField w)
  | .hdrEnc => .hdrEnc
  | .hdrDec => .hdrDec
  | .afEnc => .afEnc
  | .afDec => .afDec
  | .packetize => .packetize (trkField w) (fpField w)
  | .parse => .parse

/-- The name under which a word that selects no row is rejected: opcodes 0xB to 0xF are reserved (R74), and any other
such word has a non-zero unused field (R73). -/
def illegalReason (w : Word) : IllegalReason :=
  if 0xB ≤ (opcField w).toNat then .reservedOpcode else .unusedFieldNonzero

/-- The decoder of R75, total on all 2^32 words: the first row the word selects, else ILLEGAL. -/
def decode (w : Word) : Decoded :=
  match opcodeMap.find? (fun r => r.selects w) with
  | some r => .instr (buildInstr r.op w)
  | none => .illegal (illegalReason w)

/-- The TRK field in place (R70, bits 27:20). -/
def trkBits (t : Nat) : Word := BitVec.ofNat 32 t <<< 20

/-- The FP field in place (R70, bit 19). -/
def fpBits (fp : Bool) : Word := if fp then 0x00080000#32 else 0x00000000#32

/-- The word of a command (R71 and R85's `cmd`): match OR (t << 20) OR (fp << 19). -/
def encode : Instr → Word
  | .nop => 0x00000000#32
  | .trkCfg t => 0x10000000#32 ||| trkBits t
  | .trkFree t => 0x20000000#32 ||| trkBits t
  | .trkSetcc t => 0x30000000#32 ||| trkBits t
  | .trkRead t => 0x40000000#32 ||| trkBits t
  | .hdrEnc => 0x50000000#32
  | .hdrDec => 0x60000000#32
  | .afEnc => 0x70000000#32
  | .afDec => 0x80000000#32
  | .packetize t fp => 0x90000000#32 ||| trkBits t ||| fpBits fp
  | .parse => 0xA0000000#32

/-- The OPC value of a command (R71). -/
def Instr.opc : Instr → BitVec 4
  | .nop => 0x0#4
  | .trkCfg _ => 0x1#4
  | .trkFree _ => 0x2#4
  | .trkSetcc _ => 0x3#4
  | .trkRead _ => 0x4#4
  | .hdrEnc => 0x5#4
  | .hdrDec => 0x6#4
  | .afEnc => 0x7#4
  | .afDec => 0x8#4
  | .packetize _ _ => 0x9#4
  | .parse => 0xA#4

/-- The instruction an instruction word of `nbits` bits decodes to, bits above `nbits` zero; a command is exactly one
32-bit word (R83), so a longer one is none. -/
def decodeTableWord (nbits w : Nat) : Option Instr :=
  if nbits ≤ 32 then
    match decode (BitVec.ofNat 32 (w % 2 ^ nbits)) with
    | .instr i => some i
    | .illegal _ => none
  else none

end Sys2Proof
end

