-- ==== Sys2Proof/Machine/State.lean ====
section
/-! DEFINITION. The architectural state of the TSF block (10_state.md R19): the register window, the track table, the
engine state, BUF, OUT and the two fault flags; the instance's parameters; and the model's own fields (pending inputs,
host responses, draw counter). Plain data throughout. -/

namespace Sys2Proof.Machine

/-- The error codes of 60_exceptions.md R132, by name; the codes 11 to 15 do not exist. -/
inductive ErrCode where
  | ok | wrongSize | malformedHeader | truncatedAf | inconsistentAfLen | afZeroLen | pidRange | badTrack | range
  | badArg | illegalCmd
deriving DecidableEq, Repr

/-- eng.phase (10_state.md R45). -/
inductive Phase where
  /-- no command -/
  | idle
  /-- a command is accepted and not yet begun -/
  | start
  /-- a PACKETIZE is emitting packets -/
  | run
deriving DecidableEq, Repr

/-- One slot of the track table (10_state.md R41). -/
structure Track where
  /-- VALID: the slot holds a live track. -/
  valid : Bool
  /-- PID. -/
  pid : BitVec 13
  /-- ST, the stream_type. -/
  st : Byte
  /-- CC, the continuity counter. -/
  cc : BitVec 4
deriving DecidableEq, Repr

/-- The slot after reset and after TRK_FREE: all zeros (R51, R92). -/
def Track.empty : Track := { valid := false, pid := 0#13, st := 0#8, cc := 0#4 }

/-- The storage behind the register window (10_state.md R21). ID, CFGN, CFGB, the reserved offsets and STATUS.BUSY are
no storage (R22, R25, R38 to R40). -/
structure Regs where
  /-- CMD readback: the last accepted command word (R23). -/
  cmd : Word
  /-- STATUS.OVR (R26). -/
  ovr : Bool
  /-- STATUS.ERR (R27). -/
  err : ErrCode
  /-- STATUS.LOPC (R28). -/
  lopc : BitVec 4
  /-- ARG0 (R29). -/
  arg0 : Word
  /-- ARG1 (R30). -/
  arg1 : Word
  /-- HDRW (R31). -/
  hdrw : Word
  /-- HDRX (R32). -/
  hdrx : Word
  /-- AFR (R33). -/
  afr : Word
  /-- AFC (R34). -/
  afc : Word
  /-- PLR (R35). -/
  plr : Word
  /-- TRKR (R36). -/
  trkr : Word
  /-- PKTN (R37). -/
  pktn : Word
deriving DecidableEq, Repr

/-- The register window after reset (R51). -/
def Regs.reset : Regs :=
  { cmd := 0#32, ovr := false, err := .ok, lopc := 0#4, arg0 := 0#32, arg1 := 0#32, hdrw := 0#32, hdrx := 0#32,
    afr := 0#32, afc := 0#32, plr := 0#32, trkr := 0#32, pktn := 0#32 }

/-- The engine state (10_state.md R45, R46); the progress fields are unbounded naturals, as R46 has them in the model. -/
structure Engine where
  /-- eng.phase. -/
  phase : Phase
  /-- eng.cmd, CMD as it was at acceptance. -/
  cmd : Word
  /-- eng.a0, ARG0 as it was at acceptance. -/
  a0 : Word
  /-- eng.a1, ARG1 as it was at acceptance. -/
  a1 : Word
  /-- eng.t, the track index of a PACKETIZE. -/
  t : Nat
  /-- eng.src, the first payload byte's address in BUF. -/
  src : Nat
  /-- eng.len, the payload length L. -/
  len : Nat
  /-- eng.n, the packet count. -/
  n : Nat
  /-- eng.i, the index of the next chunk. -/
  i : Nat
deriving DecidableEq, Repr

/-- The engine after reset (R51). -/
def Engine.reset : Engine :=
  { phase := .idle, cmd := 0#32, a0 := 0#32, a1 := 0#32, t := 0, src := 0, len := 0, n := 0, i := 0 }

/-- BUF's contents: the written bytes by address, addresses strictly rising; an unlisted address is unwritten
(10_state.md R48). -/
abbrev Memory := List Host.Cell

/-- One host transaction (45_host_access.md), with its width in bits and the offset into the register window or the
address in BUF. -/
inductive HostOp where
  /-- `rd`: register read (R120). -/
  | rd (width offset : Nat)
  /-- `wr`: register write (R121). -/
  | wr (width offset : Nat) (v : Word)
  /-- `rdb`: BUF byte read (R127). -/
  | rdb (width addr : Nat)
  /-- `wrb`: BUF byte write (R128). -/
  | wrb (width addr : Nat) (v : Byte)
deriving DecidableEq, Repr

/-- One access on the host's bus, by host address (20_memory.md R62): a read, or a write of a value. -/
structure BusAccess where
  addr : Nat
  width : Nat
  /-- the value written, or none for a read -/
  write : Option Word
deriving DecidableEq, Repr

/-- What the model's environment does next (10_state.md R18, 70_reset_and_hazards.md R148; log 3). -/
inductive Event where
  /-- a turn of the engine -/
  | engine
  /-- a host transaction -/
  | host (op : HostOp)
  /-- an access on the host's bus, to be decoded to a transaction -/
  | bus (acc : BusAccess)
  /-- the reset input is asserted -/
  | reset
deriving DecidableEq, Repr

/-- What a host transaction returned (host_result and bus_error of 45_host_access.md; R129). -/
inductive HostResult where
  /-- the value of a register read -/
  | word (v : Word)
  /-- the value of a BUF read -/
  | byte (v : Byte)
  /-- a write was accepted on the bus -/
  | done
  /-- the error response -/
  | busError
deriving DecidableEq, Repr

/-- Reasons to stop. Each is raised only by a packet step in an engine state that no run reaches, where the spec gives
no effect; all are safe (log 7). -/
inductive Fault where
  /-- Raised by a packet step when eng.i names no chunk of the payload (10_state.md R46 has 0 ≤ eng.i < eng.n). Safe. -/
  | engineChunkIndex
  /-- Raised by a packet step when eng.t names no slot (40_track.md R88: slots N_TRACKS to 255 do not exist). Safe. -/
  | engineTrackIndex
  /-- Raised by a packet step when the chunk leaves BUF (20_memory.md R54: the engine never issues such an access).
  Safe. -/
  | engineBufRange
deriving DecidableEq, Repr

/-- Reasons to refuse an instruction. No arm of exec raises one. -/
inductive Refusal where
  /-- Raised by an arm of exec whose instruction has no meaning yet. Safe. No arm of this model does. -/
  | notModelled (mnemonic : String)
deriving DecidableEq, Repr

/-- The state of one block instance. -/
structure State where
  /-- The instance's parameters (00_scope.md R10). No step changes them (log 1). -/
  params : Params
  /-- The register window (R21). -/
  regs : Regs
  /-- The track table, N_TRACKS slots (R41). -/
  trks : List Track
  /-- The engine (R45, R46). -/
  eng : Engine
  /-- BUF (R48). -/
  buf : Memory
  /-- OUT, the packets emitted, in emission order (R49). -/
  out : List (List Byte)
  /-- fault_haz (R50). -/
  faultHaz : Bool
  /-- fault_uninit (R50). -/
  faultUninit : Bool
  /-- The model's own: what the environment does next, oldest first (log 3). -/
  inputs : List Event
  /-- The model's own: the responses the host received, in order (log 4). -/
  results : List HostResult
  /-- The model's own: how many free bytes have been drawn (log 5). -/
  draws : Nat
deriving DecidableEq, Repr

/-- A block instance at model start, right after power-on reset: every value as R51 has it, OUT empty and the fault
flags false as R51 has them at model start. The model's own fields are empty (logs 3, 4, 5). -/
def State.resetOf (p : Params) : State :=
  { params := p, regs := Regs.reset, trks := List.replicate p.nTracks Track.empty, eng := Engine.reset, buf := [],
    out := [], faultHaz := false, faultUninit := false, inputs := [], results := [], draws := 0 }

/-- The reset state of the instance with the test vectors' parameters (log 2). -/
def State.reset : State := State.resetOf Params.vectors

/-- The outcome of a step or of a meaning. -/
abbrev Result := Host.Outcome State Fault Refusal

end Sys2Proof.Machine
end

