-- ==== Sys2Proof/Machine/Flags.lean ====
section
/-! DEFINITION. STATUS (10_state.md R24 to R28): the code values of R132, the word a read of STATUS returns (R120), and
the changes of OVR (R123, R124). -/

namespace Sys2Proof.Machine

/-- The code value of an error (60_exceptions.md R132). -/
def ErrCode.code : ErrCode → BitVec 4
  | .ok => 0#4
  | .wrongSize => 1#4
  | .malformedHeader => 2#4
  | .truncatedAf => 3#4
  | .inconsistentAfLen => 4#4
  | .afZeroLen => 5#4
  | .pidRange => 6#4
  | .badTrack => 7#4
  | .range => 8#4
  | .badArg => 9#4
  | .illegalCmd => 10#4

/-- STATUS.BUSY reads 1 exactly when eng.phase ≠ IDLE (R25). -/
def State.busy (s : State) : Bool := s.eng.phase != .idle

/-- The STATUS word of R120: LOPC in bits 11:8, ERR in 7:4, 0 in 3:2, OVR in 1, BUSY in 0, the rest 0. -/
def State.statusWord (s : State) : Word :=
  0#20 ++ s.regs.lopc ++ s.regs.err.code ++ 0#2 ++ BitVec.ofBool s.regs.ovr ++ BitVec.ofBool s.busy

/-- status_write(v): OVR is cleared if bit 1 of v is 1, and nothing else changes (R124). -/
def State.statusWrite (v : Word) (s : State) : State :=
  { s with regs := { s.regs with ovr := s.regs.ovr && !v.getLsbD 1 } }

/-- reject_cmd(): STATUS.OVR is set to 1 (R123). -/
def State.rejectCmd (s : State) : State :=
  { s with regs := { s.regs with ovr := true } }

end Sys2Proof.Machine
end

