-- ==== Sys2Proof/Machine/Operands.lean ====
section
/-! DEFINITION. Operand forms: the latched operands (30_encoding.md R72, R82), the arithmetic primitives of R12, the
counter normalisation of R89 and the packings of the result registers (10_state.md R33 to R37). -/

namespace Sys2Proof.Machine

/-- ceil_div(a, b): the least q with q·b ≥ a (00_scope.md R12). -/
def ceilDiv (a b : Nat) : Nat := (a + b - 1) / b

/-- cc_norm(v) = v mod 16 (40_track.md R89). -/
def ccNorm (v : Nat) : BitVec 4 := BitVec.ofNat 4 (v % Config.ccMod)

/-- The first operand as an unbounded natural: the latch eng.a0 (R72, R82). -/
abbrev State.arg0Nat (s : State) : Nat := s.eng.a0.toNat

/-- The second operand as an unbounded natural: the latch eng.a1 (R72, R82). -/
abbrev State.arg1Nat (s : State) : Nat := s.eng.a1.toNat

/-- pid = ARG0[12:0] (R82). -/
def pidOperand (a : Word) : BitVec 13 := a.extractLsb' 0 13

/-- ARG0[31:13], which must be 0 for a pid (R72). -/
def pidSpill (a : Word) : BitVec 19 := a.extractLsb' 13 19

/-- stream_type = ARG1[7:0] (R82). -/
def stOperand (a : Word) : Byte := a.extractLsb' 0 8

/-- ARG1[31:8], which must be 0 for a stream_type (R72). -/
def stSpill (a : Word) : BitVec 24 := a.extractLsb' 8 24

/-- The TRKR word of a slot (10_state.md R36, 40_track.md R94). -/
def trkrWord (x : Track) : Word :=
  x.st ++ 0#4 ++ x.cc ++ BitVec.ofBool x.valid ++ 0#2 ++ x.pid

/-- The AFR word: STUFF_N = FL − 1, FLAGS and FL (10_state.md R33). -/
def afrWord (fl flags : Byte) : Word :=
  0#8 ++ (fl - 1#8) ++ flags ++ fl

/-- The AFC word: the bytes the field occupies, its length byte included (10_state.md R34). -/
def afcWord (consumed : Nat) : Word := BitVec.ofNat 32 consumed

/-- The PLR word: POFF in bits 7:0 and PLEN in bits 15:8 (10_state.md R35). -/
def plrWord (plen poff : Nat) : Word :=
  0#16 ++ BitVec.ofNat 8 plen ++ BitVec.ofNat 8 poff

/-- Four bytes packed big-endian, byte 0 in bits 31:24 (20_memory.md R61). -/
def packWord (b0 b1 b2 b3 : Byte) : Word := b0 ++ b1 ++ b2 ++ b3

end Sys2Proof.Machine
end

