-- ==== Sys2Proof/Machine/Ops.lean ====
section
/-! DEFINITION. The named operations over the state: completion (60_exceptions.md R134, which stands where other
hardware takes an exception, R137), BUF (20_memory.md R53 to R55), the track table (10_state.md R41), OUT (R49) and the
result registers (R21). -/

namespace Sys2Proof.Machine

/-! ### BUF as a list of written bytes -/

/-- The canonical form: addresses strictly rising. An unlisted address is unwritten, and no write makes a byte
unwritten, so no entry equals what an unlisted address reads as. -/
abbrev Memory.wf (m : Memory) : Prop := m.Pairwise (fun x y => x.1 < y.1)

/-- The byte at an address, none where it is unwritten (10_state.md R48). -/
def Memory.read (m : Memory) (a : Nat) : Option Byte :=
  match m with
  | [] => none
  | c :: rest => if c.1 = a then some c.2 else Memory.read rest a

/-- Store one byte, keeping the canonical form. -/
def Memory.write (m : Memory) (a : Nat) (v : Byte) : Memory :=
  match m with
  | [] => [(a, v)]
  | c :: rest =>
    if a < c.1 then (a, v) :: c :: rest
    else if a = c.1 then (a, v) :: rest
    else c :: Memory.write rest a v

/-- BufRead(a) of the engine and of `rdb` (00_scope.md R14, 20_memory.md R55): the byte, or, where it is unwritten, a
free byte with fault_uninit set. The byte stays unwritten. -/
def State.bufRead (a : Nat) (s : State) : Byte × State :=
  match s.buf.read a with
  | some v => (v, s)
  | none => (Config.freeByte s.draws, { s with faultUninit := true, draws := s.draws + 1 })

/-- The bytes at `a`, `a + 1`, ..., `count` of them, read in this order. -/
def State.bufReadList (a count : Nat) (s : State) : List Byte × State :=
  match count with
  | 0 => ([], s)
  | k + 1 =>
    let r := s.bufRead a
    let rs := r.2.bufReadList (a + 1) k
    (r.1 :: rs.1, rs.2)

/-- BufWrite(a, v) (00_scope.md R14): the byte becomes written. -/
def State.bufWrite (a : Nat) (v : Byte) (s : State) : State :=
  { s with buf := s.buf.write a v }

/-- BufWrite of consecutive bytes from `a` on. -/
def State.bufWriteList (a : Nat) (bytes : List Byte) (s : State) : State :=
  match bytes with
  | [] => s
  | v :: rest => (s.bufWrite a v).bufWriteList (a + 1) rest

/-! ### Completion -/

/-- complete(code) (60_exceptions.md R134): ERR and LOPC are written, the engine becomes IDLE. -/
def State.complete (c : ErrCode) (s : State) : State :=
  { s with
    regs := { s.regs with err := c, lopc := opcField s.eng.cmd }
    eng := { s.eng with phase := .idle } }

/-- The command ends here with this code: the outcome of a meaning (00_scope.md R17). -/
def finish (c : ErrCode) (s : State) : Result := .next (s.complete c)

/-! ### The track table -/

/-- The slot check `t < N_TRACKS` (40_track.md R88). -/
def State.slotExists (t : Nat) (s : State) : Bool := decide (t < s.params.nTracks)

/-- trk[t]. A slot the table does not list reads as the empty slot; no run reads one (log 15). -/
def State.trk (t : Nat) (s : State) : Track := s.trks.getD t Track.empty

/-- trk[t] <- x. -/
def State.putTrk (t : Nat) (x : Track) (s : State) : State :=
  { s with trks := s.trks.set t x }

/-! ### OUT and the result registers -/

/-- Emit(p): append one packet to OUT (00_scope.md R14, 20_memory.md R58). -/
def State.emit (p : List Byte) (s : State) : State :=
  { s with out := s.out ++ [p] }

/-- HDRW and HDRX are written together (10_state.md R31, R32). -/
def State.putHeader (w : Word) (isScr : Bool) (s : State) : State :=
  { s with regs := { s.regs with hdrw := w, hdrx := (BitVec.ofBool isScr).setWidth 32 } }

/-- AFR and AFC are written together (10_state.md R33, R34). -/
def State.putAf (afr afc : Word) (s : State) : State :=
  { s with regs := { s.regs with afr := afr, afc := afc } }

/-- PLR is written (10_state.md R35). -/
def State.putPlr (v : Word) (s : State) : State :=
  { s with regs := { s.regs with plr := v } }

/-- TRKR is written (10_state.md R36). -/
def State.putTrkr (v : Word) (s : State) : State :=
  { s with regs := { s.regs with trkr := v } }

/-- PKTN is written (10_state.md R37). -/
def State.putPktn (n : Nat) (s : State) : State :=
  { s with regs := { s.regs with pktn := BitVec.ofNat 32 n } }

end Sys2Proof.Machine
end

