-- ==== Sys2Proof/Machine/AdaptationField.lean ====
section
/-! DEFINITION. The Adaptation Field Codec (42_adaptation_field.md R100 to R102): its encoding function, the decoder's
checks that the Parser shares, AF_ENC and AF_DEC. -/

namespace Sys2Proof.Machine

/-- af_bytes(N) (R100): field_length = 1 + N, the flags byte, N stuffing bytes. -/
def afBytes (n : Nat) : List Byte :=
  BitVec.ofNat 8 (1 + n) :: Config.afFlags :: List.replicate n Config.stuff

/-- The codec's tests on a length byte `fl` when `r` bytes remain (R102, R116): none where the field is good. -/
def afLengthError (r fl : Nat) : Option ErrCode :=
  if r < 1 + fl then some .truncatedAf
  else if fl = 0 then some .afZeroLen
  else none

/-- AF_ENC: write an adaptation field with N stuffing bytes into BUF (R101). -/
def execAfEnc (s : State) : Result :=
  let n := s.arg0Nat
  let d := s.arg1Nat
  if n > 254 then finish .badArg s
  else if d + 2 + n > s.params.bufBytes then finish .range s
  else
    finish .ok ((s.bufWriteList d (afBytes n)).putAf
      (afrWord (BitVec.ofNat 8 (1 + n)) Config.afFlags) (afcWord (2 + n)))

/-- AF_DEC: decode an adaptation field from BUF (R102). -/
def execAfDec (s : State) : Result :=
  let a := s.arg0Nat
  let r := s.arg1Nat
  if a + r > s.params.bufBytes then finish .range s
  else if r < 1 then finish .truncatedAf s
  else
    let fl := s.bufRead a
    match afLengthError r fl.1.toNat with
    | some e => finish e fl.2
    | none =>
      let flags := fl.2.bufRead (a + 1)
      finish .ok (flags.2.putAf (afrWord fl.1 flags.1) (afcWord (1 + fl.1.toNat)))

end Sys2Proof.Machine
end

