-- ==== Sys2Proof/Machine/HeaderCodec.lean ====
section
/-! DEFINITION. The Header Codec (41_header_codec.md R95 to R98, 30_encoding.md R76 to R79): its pure functions, HDR_ENC
and HDR_DEC. -/

namespace Sys2Proof.Machine

/-- The four adaptation-mode variants (30_encoding.md R78). -/
inductive AdaptMode where
  | reserved | payloadOnly | adaptationOnly | adaptationAndPayload
deriving DecidableEq, Repr

/-- The code value of a variant: the one named table of R78 (PRESUMED: the spec takes the values from general
knowledge, K1; unsafe; log 10). -/
def AdaptMode.code : AdaptMode → BitVec 2
  | .reserved => 0b00#2
  | .payloadOnly => 0b01#2
  | .adaptationOnly => 0b10#2
  | .adaptationAndPayload => 0b11#2

/-- The variant of a raw value, total: a value that is no other variant's code is the reserved one (R78; log 10). -/
def AdaptMode.ofCode (r : BitVec 2) : AdaptMode :=
  if r = AdaptMode.payloadOnly.code then .payloadOnly
  else if r = AdaptMode.adaptationOnly.code then .adaptationOnly
  else if r = AdaptMode.adaptationAndPayload.code then .adaptationAndPayload
  else .reserved

/-- scr_enc (R95): 0 gives 0b00, 1 gives 0b01. -/
def scrEnc (b : Bool) : BitVec 2 := 0#1 ++ BitVec.ofBool b

/-- scr_dec (R98): 0b10 and 0b11 read the instance's parameters. -/
def scrDec (p : Params) (r : BitVec 2) : Bool :=
  if r = 0b00#2 then false
  else if r = 0b01#2 then true
  else if r = 0b10#2 then p.scrDecode10
  else p.scrDecode11

/-- hdr_word (R95): the sync byte, then every field at its place of R76. -/
def hdrWord (tei pusi tp : Bool) (pid : BitVec 13) (scr am : BitVec 2) (cc : BitVec 4) : Word :=
  Config.sync ++ BitVec.ofBool tei ++ BitVec.ofBool pusi ++ BitVec.ofBool tp ++ pid ++ scr ++ am ++ cc

/-- hdr_bytes (R95): the four wire bytes, byte 0 first. -/
def hdrBytes (w : Word) : List Byte :=
  [w.extractLsb' 24 8, w.extractLsb' 16 8, w.extractLsb' 8 8, w.extractLsb' 0 8]

/-- Bits 31:24 of a header word or operand: wire byte 0 (R76), or the bits an LHDR must leave zero (R79). -/
def topByte (w : Word) : Byte := w.extractLsb' 24 8

/-- The PID field of a header word, bits 20:8 (R76). -/
def pidField (w : Word) : BitVec 13 := w.extractLsb' 8 13

/-- The SCR field of a header word, bits 7:6 (R76). -/
def scrField (w : Word) : BitVec 2 := w.extractLsb' 6 2

/-- The AM field of a header word, bits 5:4 (R76). -/
def amField (w : Word) : BitVec 2 := w.extractLsb' 4 2

/-- The CC field of a header word, bits 3:0 (R76). -/
def ccField (w : Word) : BitVec 4 := w.extractLsb' 0 4

/-- HDR_ENC: encode a logical header (R96, operand layout R79). -/
def execHdrEnc (s : State) : Result :=
  let a := s.eng.a0
  if topByte a ≠ 0#8 ∨ a.getLsbD 7 = true then finish .badArg s
  else
    finish .ok (s.putHeader
      (hdrWord (a.getLsbD 23) (a.getLsbD 22) (a.getLsbD 21) (pidField a) (scrEnc (a.getLsbD 6)) (amField a)
        (ccField a))
      (a.getLsbD 6))

/-- HDR_DEC: decode a 4-byte header (R97). -/
def execHdrDec (s : State) : Result :=
  let w := s.eng.a0
  if topByte w ≠ Config.sync then finish .malformedHeader s
  else finish .ok (s.putHeader w (scrDec s.params (scrField w)))

end Sys2Proof.Machine
end

