-- ==== Sys2Proof/Machine/Packetizer.lean ====
section
/-! DEFINITION. The packet boundary engine (43_packetizer.md R105 to R113): PACKETIZE's first engine step and the packet
step. -/

namespace Sys2Proof.Machine

/-- clen_i = min(182, L − 182·i) (R105). -/
def chunkLen (len i : Nat) : Nat := min Config.maxChunk (len - Config.maxChunk * i)

/-- The 188 bytes of one packet (R107, R109, R110): TEI, TP and SCR are 0 (log 12), AM is adaptation-and-payload, and
the stuffing fills what the chunk leaves of 182 bytes. -/
def packetBytes (pusi : Bool) (pid : BitVec 13) (cc : BitVec 4) (chunk : List Byte) : List Byte :=
  hdrBytes (hdrWord false pusi false pid 0b00#2 AdaptMode.adaptationAndPayload.code cc)
    ++ afBytes (Config.maxChunk - chunk.length) ++ chunk

/-- packet_step() where chunk eng.i exists (R107): read the chunk, increment the counter, emit the packet, advance, and
complete after the last one. -/
def State.emitChunk (s : State) : State :=
  let i := s.eng.i
  let r := s.bufReadList (s.eng.src + Config.maxChunk * i) (chunkLen s.eng.len i)
  let x := r.2.trk s.eng.t
  let x' := { x with cc := ccNorm (x.cc.toNat + 1) }
  let s1 := (r.2.putTrk s.eng.t x').emit (packetBytes (i == 0) x'.pid x'.cc r.1)
  let s2 := { s1 with eng := { s1.eng with i := i + 1 } }
  if i + 1 = s.eng.n then (s2.putPktn s.eng.n).complete .ok else s2

/-- One packet step (R107). The three faults stand for engine states that no run reaches: no chunk eng.i (R46), no slot
eng.t (R88), a chunk outside BUF (R54) (log 7). -/
def packetStep (s : State) : Result :=
  if ¬ (s.eng.i < s.eng.n ∧ Config.maxChunk * s.eng.i < s.eng.len) then .fault .engineChunkIndex
  else if s.slotExists s.eng.t = false then .fault .engineTrackIndex
  else if s.eng.src + Config.maxChunk * s.eng.i + chunkLen s.eng.len s.eng.i > s.params.bufBytes then
    .fault .engineBufRange
  else .next s.emitChunk

/-- The progress state a PACKETIZE starts with (R106). -/
def State.startRun (t src len n : Nat) (s : State) : State :=
  { s with eng := { s.eng with phase := .run, t := t, src := src, len := len, n := n, i := 0 } }

/-- PACKETIZE, its first engine step (R106). FP has no effect (R113; log 11). -/
def execPacketize (t : Nat) (_fp : Bool) (s : State) : Result :=
  let src := s.arg0Nat
  let len := s.arg1Nat
  let n := ceilDiv len Config.maxChunk
  if s.slotExists t = false then finish .badTrack s
  else if (s.trk t).valid = false then finish .badTrack s
  else if src + len > s.params.bufBytes then finish .range s
  else if n = 0 then finish .ok (s.putPktn 0)
  else packetStep (s.startRun t src len n)

end Sys2Proof.Machine
end

