-- ==== Sys2Proof/Machine/Parser.lean ====
section
/-! DEFINITION. The packet parser (44_parser.md R115 to R118). -/

namespace Sys2Proof.Machine

/-- The number of bytes of a packet that remain from offset 4, where its adaptation field starts (R115). -/
def parseRemaining : Nat := Config.pktBytes - Config.hdrBytes

/-- plen = 188 − 4 − (1 + fl), on unbounded integers (R115, R12). -/
def parsePlen (fl : Nat) : Int := (Config.pktBytes : Int) - (Config.hdrBytes : Int) - (1 + (fl : Int))

/-- PARSE after its size, range and sync checks: the header's other bytes and the adaptation field are read, and the
five result registers are written, all or none (R115). `b0` is the byte at A. -/
def parseBody (a : Nat) (b0 : Byte) (s : State) : Result :=
  let b1 := s.bufRead (a + 1)
  let b2 := b1.2.bufRead (a + 2)
  let b3 := b2.2.bufRead (a + 3)
  let fl := b3.2.bufRead (a + 4)
  match afLengthError parseRemaining fl.1.toNat with
  | some e => finish e fl.2
  | none =>
    let flags := fl.2.bufRead (a + 5)
    let plen := parsePlen fl.1.toNat
    if plen < 0 then finish .inconsistentAfLen flags.2
    else
      let w := packWord b0 b1.1 b2.1 b3.1
      finish .ok (((flags.2.putHeader w (scrDec s.params (scrField w))).putAf (afrWord fl.1 flags.1)
        (afcWord (1 + fl.1.toNat))).putPlr (plrWord plen.toNat (5 + fl.1.toNat)))

/-- PARSE: parse one 188-byte packet held in BUF (R115). -/
def execParse (s : State) : Result :=
  let a := s.arg0Nat
  if s.arg1Nat ≠ Config.pktBytes then finish .wrongSize s
  else if a + Config.pktBytes > s.params.bufBytes then finish .range s
  else
    let b0 := s.bufRead a
    if b0.1 ≠ Config.sync then finish .malformedHeader b0.2
    else parseBody a b0.1 b0.2

end Sys2Proof.Machine
end

