-- ==== Sys2Proof/Machine/Track.lean ====
section
/-! DEFINITION. NOP and the track commands (40_track.md R87 to R94). -/

namespace Sys2Proof.Machine

/-- NOP: complete(OK) and nothing else (R87). -/
def execNop (s : State) : Result := finish .ok s

/-- TRK_CFG: create a track in slot t (R91). -/
def execTrkCfg (t : Nat) (s : State) : Result :=
  if s.slotExists t = false then finish .badTrack s
  else if (s.trk t).valid = true then finish .badTrack s
  else if pidSpill s.eng.a0 ≠ 0#19 then finish .pidRange s
  else if stSpill s.eng.a1 ≠ 0#24 then finish .badArg s
  else
    finish .ok (s.putTrk t
      { valid := true, pid := pidOperand s.eng.a0, st := stOperand s.eng.a1, cc := ccNorm s.params.ccInit })

/-- TRK_FREE: end the lifetime of the track in slot t (R92). -/
def execTrkFree (t : Nat) (s : State) : Result :=
  if s.slotExists t = false then finish .badTrack s
  else finish .ok (s.putTrk t Track.empty)

/-- TRK_SETCC: seed the continuity counter of slot t (R93). -/
def execTrkSetcc (t : Nat) (s : State) : Result :=
  if s.slotExists t = false then finish .badTrack s
  else if (s.trk t).valid = false then finish .badTrack s
  else finish .ok (s.putTrk t { s.trk t with cc := ccNorm s.arg0Nat })

/-- TRK_READ: copy slot t into TRKR (R94). -/
def execTrkRead (t : Nat) (s : State) : Result :=
  if s.slotExists t = false then finish .badTrack s
  else finish .ok (s.putTrkr (trkrWord (s.trk t)))

end Sys2Proof.Machine
end

