-- ==== Sys2Proof/Machine/Dispatch.lean ====
section
/-! DEFINITION. One arm per command (30_encoding.md R71), each one call of its meaning. -/

namespace Sys2Proof.Machine

def exec (i : Instr) (s : State) : Host.Outcome State Fault Refusal :=
  match i with
  | .nop => Sys2Proof.Machine.execNop s
  | .trkCfg t => Sys2Proof.Machine.execTrkCfg t s
  | .trkFree t => Sys2Proof.Machine.execTrkFree t s
  | .trkSetcc t => Sys2Proof.Machine.execTrkSetcc t s
  | .trkRead t => Sys2Proof.Machine.execTrkRead t s
  | .hdrEnc => Sys2Proof.Machine.execHdrEnc s
  | .hdrDec => Sys2Proof.Machine.execHdrDec s
  | .afEnc => Sys2Proof.Machine.execAfEnc s
  | .afDec => Sys2Proof.Machine.execAfDec s
  | .packetize t fp => Sys2Proof.Machine.execPacketize t fp s
  | .parse => Sys2Proof.Machine.execParse s

end Sys2Proof.Machine
end

