-- ==== Sys2Proof/Machine/Engine.lean ====
section
/-! DEFINITION. The engine step (10_state.md R45): from START the command is decoded and executed, from RUN the next
packet is emitted. -/

namespace Sys2Proof.Machine

/-- The first engine step of a command: decode eng.cmd; an ILLEGAL word completes with ILLEGAL_CMD and nothing else
(60_exceptions.md R133). -/
def runCommand (s : State) : Result :=
  match decode s.eng.cmd with
  | .instr i => exec i s
  | .illegal _ => finish .illegalCmd s

/-- One engine step. It is enabled only when eng.phase ≠ IDLE (R45); a turn of an idle engine changes nothing (log 3). -/
def engineStep (s : State) : Result :=
  match s.eng.phase with
  | .idle => .next s
  | .start => runCommand s
  | .run => packetStep s

end Sys2Proof.Machine
end

