-- ==== Sys2Proof/Machine/HostBus.lean ====
section
/-! DEFINITION. The host's side (45_host_access.md R120 to R131): register and BUF transactions with their bus errors,
command acceptance, the footprint hazards (70_reset_and_hazards.md R155), the block reset (R148), the platform's address
map (20_memory.md R62) and the pseudo-operations of 30_encoding.md R85. -/

namespace Sys2Proof.Machine

/-! ### The register window -/

/-- The sixteen registers of the window (10_state.md R21), in the order of their offsets. -/
inductive RegName where
  | id | cmd | status | arg0 | arg1 | hdrw | hdrx | afr | afc | plr | trkr | pktn | cfgn | cfgb | res38 | res3c
deriving DecidableEq, Repr

/-- The registers by word index (R21). -/
def regNames : List RegName :=
  [.id, .cmd, .status, .arg0, .arg1, .hdrw, .hdrx, .afr, .afc, .plr, .trkr, .pktn, .cfgn, .cfgb, .res38, .res3c]

/-- The register a transaction names, or none where it is a bus error: an offset at or above 0x40, an offset that is no
multiple of 4, or a width other than 32 bits (20_memory.md R56). -/
def regAccess (width offset : Nat) : Option RegName :=
  if offset ≥ 0x40 ∨ offset % 4 ≠ 0 ∨ width ≠ 32 then none else regNames[offset / 4]?

/-- The value a register read returns (R120). -/
def State.readReg (r : RegName) (s : State) : Word :=
  match r with
  | .id => Config.idWord
  | .cmd => s.regs.cmd
  | .status => s.statusWord
  | .arg0 => s.regs.arg0
  | .arg1 => s.regs.arg1
  | .hdrw => s.regs.hdrw
  | .hdrx => s.regs.hdrx
  | .afr => s.regs.afr
  | .afc => s.regs.afc
  | .plr => s.regs.plr
  | .trkr => s.regs.trkr
  | .pktn => s.regs.pktn
  | .cfgn => BitVec.ofNat 32 s.params.nTracks
  | .cfgb => BitVec.ofNat 32 s.params.bufBytes
  | .res38 => 0#32
  | .res3c => 0#32

/-- accept(v): the command word and its operands are latched and the engine is started (R122). -/
def State.accept (v : Word) (s : State) : State :=
  { s with
    regs := { s.regs with cmd := v }
    eng := { s.eng with phase := .start, cmd := v, a0 := s.regs.arg0, a1 := s.regs.arg1 } }

/-- A write of CMD: accepted while the engine is idle (R122), dropped with OVR set otherwise (R123). -/
def State.writeCmd (v : Word) (s : State) : State :=
  if s.busy then s.rejectCmd else s.accept v

/-- The effect of a register write (R121); a read-only register or a reserved offset ignores it (R126). -/
def State.writeReg (r : RegName) (v : Word) (s : State) : State :=
  match r with
  | .cmd => s.writeCmd v
  | .status => s.statusWrite v
  | .arg0 => { s with regs := { s.regs with arg0 := v } }
  | .arg1 => { s with regs := { s.regs with arg1 := v } }
  | .id => s
  | .hdrw => s
  | .hdrx => s
  | .afr => s
  | .afc => s
  | .plr => s
  | .trkr => s
  | .pktn => s
  | .cfgn => s
  | .cfgb => s
  | .res38 => s
  | .res3c => s

/-! ### The footprint of the command in progress -/

/-- A run of BUF addresses: `len` of them from `lo` on. -/
structure Span where
  lo : Nat
  len : Nat
deriving DecidableEq, Repr

/-- The address lies in the run. -/
def Span.has (x : Span) (a : Nat) : Bool := decide (x.lo ≤ a ∧ a < x.lo + x.len)

/-- No address. -/
def Span.none : Span := { lo := 0, len := 0 }

/-- The footprint of a command while BUSY, from its decoding and its latched operands alone (R155). -/
def footprint (d : Decoded) (a0 a1 : Nat) : Span :=
  match d with
  | .illegal _ => Span.none
  | .instr i =>
    match i with
    | .packetize _ _ => { lo := a0, len := a1 }
    | .parse => if a1 = Config.pktBytes then { lo := a0, len := Config.pktBytes } else Span.none
    | .afDec => { lo := a0, len := a1 }
    | .afEnc => if a0 ≤ 254 then { lo := a1, len := 2 + a0 } else Span.none
    | .nop => Span.none
    | .trkCfg _ => Span.none
    | .trkFree _ => Span.none
    | .trkSetcc _ => Span.none
    | .trkRead _ => Span.none
    | .hdrEnc => Span.none
    | .hdrDec => Span.none

/-- The footprint of the command in eng.cmd (R155). -/
def State.footprint (s : State) : Span :=
  Sys2Proof.Machine.footprint (decode s.eng.cmd) s.arg0Nat s.arg1Nat

/-- hazard_write(a) (R155). -/
def State.hazardWrite (a : Nat) (s : State) : Bool := s.busy && s.footprint.has a

/-- hazard_read(a) (R155). -/
def State.hazardRead (a : Nat) (s : State) : Bool :=
  s.busy && (decode s.eng.cmd == .instr .afEnc) && s.footprint.has a

/-! ### Transactions -/

/-- The host receives a response (R120, R127, R129; log 4). -/
def State.respond (x : HostResult) (s : State) : State := { s with results := s.results ++ [x] }

/-- fault_haz is set where the access is a hazard (R127, R128). -/
def State.noteHazard (h : Bool) (s : State) : State := { s with faultHaz := s.faultHaz || h }

/-- A BUF transaction is a bus error where its address is outside BUF or its width is not one byte (20_memory.md R53,
R54). -/
def State.bufAccessError (width a : Nat) (s : State) : Bool := decide (a ≥ s.params.bufBytes ∨ width ≠ 8)

/-- `rd` (R120). -/
def hostRd (width offset : Nat) (s : State) : State :=
  match regAccess width offset with
  | none => s.respond .busError
  | some r => s.respond (.word (s.readReg r))

/-- `wr` (R121). -/
def hostWr (width offset : Nat) (v : Word) (s : State) : State :=
  match regAccess width offset with
  | none => s.respond .busError
  | some r => (s.writeReg r v).respond .done

/-- `rdb` (R127). -/
def hostRdb (width a : Nat) (s : State) : State :=
  if s.bufAccessError width a then s.respond .busError
  else
    let r := s.bufRead a
    (r.2.noteHazard (s.hazardRead a)).respond (.byte r.1)

/-- `wrb` (R128). -/
def hostWrb (width a : Nat) (v : Byte) (s : State) : State :=
  if s.bufAccessError width a then s.respond .busError
  else ((s.noteHazard (s.hazardWrite a)).bufWrite a v).respond .done

/-- One host transaction, an atomic step (20_memory.md R57). -/
def hostStep (op : HostOp) (s : State) : State :=
  match op with
  | .rd width offset => hostRd width offset s
  | .wr width offset v => hostWr width offset v s
  | .rdb width a => hostRdb width a s
  | .wrb width a v => hostWrb width a v s

/-! ### The platform's address map -/

/-- The host address of a register offset (R120, R62). -/
def regAddress (p : Params) (offset : Nat) : Nat := p.regBase + offset

/-- The host address of a BUF byte (R62, R127). -/
def bufAddress (p : Params) (a : Nat) : Nat := p.bufBase + a

/-- The transaction a bus access is, or none where it reaches neither the window nor BUF (R62; the window is looked up
first, DESIGN CHOICE, log 9). -/
def busDecode (p : Params) (acc : BusAccess) : Option HostOp :=
  if p.regBase ≤ acc.addr ∧ acc.addr < p.regBase + 0x40 then
    match acc.write with
    | none => some (.rd acc.width (acc.addr - p.regBase))
    | some v => some (.wr acc.width (acc.addr - p.regBase) v)
  else if p.bufBase ≤ acc.addr ∧ acc.addr < p.bufBase + p.bufBytes then
    match acc.write with
    | none => some (.rdb acc.width (acc.addr - p.bufBase))
    | some v => some (.wrb acc.width (acc.addr - p.bufBase) (v.setWidth 8))
  else none

/-- One access on the host's bus: its transaction, or nothing where it is no access to this block (log 9). -/
def busStep (acc : BusAccess) (s : State) : State :=
  match busDecode s.params acc with
  | some op => hostStep op s
  | none => s

/-! ### Reset -/

/-- The block reset (70_reset_and_hazards.md R148): R51's values; OUT and the fault flags are unchanged. The parameters
and the model's own fields are no state of the block and stay (logs 1, 3, 4, 5). -/
def State.blockReset (s : State) : State :=
  { s with
    regs := Regs.reset
    trks := List.replicate s.params.nTracks Track.empty
    eng := Engine.reset
    buf := [] }

/-! ### Pseudo-operations -/

/-- `cmd MNEMONIC` (30_encoding.md R85): a write of the command's word to CMD. -/
def pseudoCmd (i : Instr) : HostOp := .wr 32 0x04 (encode i)

/-- `fill addr, len, f(k)` (R85). -/
def pseudoFill (addr len : Nat) (f : Nat → Nat) : List HostOp :=
  (List.range len).map (fun k => .wrb 8 (addr + k) (BitVec.ofNat 8 (f k)))

/-- `clrovr` (R85). -/
def pseudoClrovr : HostOp := .wr 32 0x08 0x00000002#32

/-- `rd STATUS`, the transaction the host's `wait` loop repeats (R85). -/
def pseudoWaitRead : HostOp := .rd 32 0x08

/-- The condition on which the `wait` loop goes round again: bit 0 of the value read is 1 (R85). -/
def waitAgain (x : HostResult) : Bool :=
  match x with
  | .word v => v.getLsbD 0
  | .byte _ => false
  | .done => false
  | .busError => false

end Sys2Proof.Machine
end

