-- ==== Sys2Proof/Machine/Inputs.lean ====
section
/-! DEFINITION. One step of the whole block (10_state.md R18, 20_memory.md R65): the oldest pending event takes place;
with none pending the engine moves (log 3). -/

namespace Sys2Proof.Machine

/-- The events still pending. -/
def State.withInputs (l : List Event) (s : State) : State := { s with inputs := l }

/-- One event (R18, R148). -/
def eventStep (e : Event) (s : State) : Result :=
  match e with
  | .engine => engineStep s
  | .host op => .next (hostStep op s)
  | .bus acc => .next (busStep acc s)
  | .reset => .next s.blockReset

/-- The next atomic step (R65): the oldest pending event, or else the engine (log 3). -/
def nextStep (s : State) : Result :=
  match s.inputs with
  | [] => engineStep s
  | e :: rest => eventStep e (s.withInputs rest)

/-- The state in which the engine's next step begins the command `w`: the host has written it to CMD, it was accepted
whatever the engine did before, and no other event is pending (45_host_access.md R122; log 6). -/
def State.withCommand (w : Word) (s : State) : State := (s.accept w).withInputs []

end Sys2Proof.Machine
end

