-- ==== Sys2Proof/Safety.lean ====
section
/-! DEFINITION. The terms statements use: the launch premises (70_reset_and_hazards.md R152), the end of a run and its
observation (R161), how a command ends, the packet as the byte map of 30_encoding.md R81 has it, and the invariant of
the reachable states. -/

namespace Sys2Proof.Machine

/-! ### Launch premises and the end of a run -/

/-- clean_reset (R152): R148's result. -/
abbrev State.cleanReset (s : State) : Prop :=
  s.regs = Regs.reset ∧ s.trks = List.replicate s.params.nTracks Track.empty ∧ s.eng = Engine.reset ∧ s.buf = []

/-- no_fault (R152). -/
abbrev State.noFault (s : State) : Prop := s.faultHaz = false ∧ s.faultUninit = false

/-- idle (R152). -/
abbrev State.idle (s : State) : Prop := s.eng.phase = .idle

/-- out_empty (R152). -/
abbrev State.outEmpty (s : State) : Prop := s.out = []

/-- The end of a run (R161): no host transaction and no reset is pending, and the engine is idle. -/
abbrev State.runEnded (s : State) : Prop := (∀ e ∈ s.inputs, e = .engine) ∧ s.idle

/-- What a run is observed by (R161). -/
structure Observation where
  out : List (List Byte)
  regs : List Word
  trks : List Track
  buf : Memory
  faultHaz : Bool
  faultUninit : Bool
deriving DecidableEq, Repr

/-- The observation of a state (R161): OUT, the registers of R21 by offset, the track table, BUF and the fault flags. -/
def State.observe (s : State) : Observation :=
  { out := s.out, regs := regNames.map (fun r => s.readReg r), trks := s.trks, buf := s.buf, faultHaz := s.faultHaz,
    faultUninit := s.faultUninit }

/-- The engine moves next: no event is pending, or the oldest one is its turn. -/
abbrev State.engineNext (s : State) : Prop := s.inputs.headD .engine = .engine

/-- `k` steps of the block. -/
def runSteps (k : Nat) (s : State) : Result := Host.Core.run core k s

/-- A state with what may hold a stream type taken out (10_state.md R43): ST of every slot, TRKR, and the responses the
host received. -/
def State.withoutSt (s : State) : State :=
  { s with
    trks := s.trks.map (fun x => { x with st := 0#8 })
    regs := { s.regs with trkr := 0#32 }
    results := [] }

/-! ### How a command ends -/

/-- The command in eng.cmd ends with code `c` (60_exceptions.md R134): ERR and LOPC are written, BUSY falls, and
everything else is as in `s`. -/
abbrev State.endedWith (c : ErrCode) (s : State) : State :=
  { s with
    regs := { s.regs with err := c, lopc := s.eng.cmd.extractLsb' 28 4 }
    eng := { s.eng with phase := .idle } }

/-! ### Packets -/

/-- The byte map of an emitted packet (30_encoding.md R81), for a chunk of 1 to 182 bytes. -/
def specPacket (first : Bool) (pid cc : Nat) (chunk : List Byte) : List Byte :=
  [0x47#8, BitVec.ofNat 8 ((if first then 0x40 else 0) + pid / 256), BitVec.ofNat 8 (pid % 256),
    BitVec.ofNat 8 (0x30 + cc % 16), BitVec.ofNat 8 (183 - chunk.length), 0x00#8]
    ++ List.replicate (182 - chunk.length) 0xFF#8 ++ chunk

/-- Chunk `i` of a payload (43_packetizer.md R105). -/
def specChunk (payload : List Byte) (i : Nat) : List Byte := (payload.drop (182 * i)).take 182

/-- The field_length of a packet: its byte 4 (R81). -/
def packetFl (p : List Byte) : Nat := (p.getD 4 0#8).toNat

/-- The payload part of a packet: the bytes from offset 5 + FL on (R81). -/
def packetPayload (p : List Byte) : List Byte := p.drop (5 + packetFl p)

/-- BUF holds these bytes, all written, from address `a` on. -/
abbrev Memory.holds (m : Memory) (a : Nat) (bytes : List Byte) : Prop :=
  ∀ k < bytes.length, m.read (a + k) = bytes[k]?

/-! ### The invariant -/

/-- PACKETIZE's progress state while eng.phase = RUN (10_state.md R46, 43_packetizer.md R106). -/
structure State.RunOk (s : State) : Prop where
  command : ∃ fp, decode s.eng.cmd = .instr (.packetize s.eng.t fp)
  slot : s.eng.t < s.params.nTracks
  live : (s.trk s.eng.t).valid = true
  source : s.eng.src = s.eng.a0.toNat
  length : s.eng.len = s.eng.a1.toNat
  range : s.eng.src + s.eng.len ≤ s.params.bufBytes
  count : s.eng.n = ceilDiv s.eng.len 182
  index : s.eng.i < s.eng.n

/-- The reserved fields of the result registers read 0 (10_state.md R32 to R36, R40). -/
structure Regs.ReservedZero (r : Regs) : Prop where
  hdrx : r.hdrx.extractLsb' 1 31 = 0#31
  afr : r.afr.extractLsb' 24 8 = 0#8
  afc : r.afc.extractLsb' 9 23 = 0#23
  plr : r.plr.extractLsb' 16 16 = 0#16
  trkrLow : r.trkr.extractLsb' 13 2 = 0#2
  trkrHigh : r.trkr.extractLsb' 20 4 = 0#4

/-- The result registers hold what some command wrote, or their reset value (10_state.md R31, R33 to R35). -/
structure Regs.ResultsOk (r : Regs) : Prop where
  sync : r.hdrw = 0#32 ∨ r.hdrw.extractLsb' 24 8 = 0x47#8
  field : (r.afr = 0#32 ∧ r.afc = 0#32) ∨
    (1 ≤ (r.afr.extractLsb' 0 8).toNat ∧
      (r.afr.extractLsb' 16 8).toNat + 1 = (r.afr.extractLsb' 0 8).toNat ∧
      r.afc.toNat = 1 + (r.afr.extractLsb' 0 8).toNat)
  view : r.plr = 0#32 ∨
    (6 ≤ (r.plr.extractLsb' 0 8).toNat ∧
      (r.plr.extractLsb' 0 8).toNat + (r.plr.extractLsb' 8 8).toNat = 188)

/-- What holds of every state a run reaches. -/
structure State.Inv (s : State) : Prop where
  /-- the parameters are legal (00_scope.md R10) -/
  legal : s.params.Legal
  /-- the track table has N_TRACKS slots (10_state.md R41) -/
  table : s.trks.length = s.params.nTracks
  /-- a slot with no live track holds zeros (40_track.md R94) -/
  freeSlots : ∀ x ∈ s.trks, x.valid = false → x = Track.empty
  /-- BUF is in its canonical form -/
  bufWf : s.buf.wf
  /-- every written byte lies in BUF (10_state.md R48) -/
  bufRange : ∀ c ∈ s.buf, c.1 < s.params.bufBytes
  /-- every packet on OUT is 188 bytes long (10_state.md R49, 20_memory.md R58) -/
  packets : ∀ p ∈ s.out, p.length = 188
  /-- CMD reads back the command in the engine (10_state.md R23) -/
  readback : s.regs.cmd = s.eng.cmd
  /-- the progress state of a running PACKETIZE (R46) -/
  run : s.eng.phase = .run → s.RunOk
  /-- reserved fields read 0 (R40) -/
  reserved : s.regs.ReservedZero
  /-- the result registers are consistent (R31 to R35) -/
  resultRegs : s.regs.ResultsOk

end Sys2Proof.Machine
end

