-- ==== Sys2Proof/Certificates/Slice0/Obligations.lean ====
section
/-! DEFINITION. The statements for the provers, from the numbered rules of spec/. `State.endedWith c s` (Safety.lean) is
the spec's own `complete(code)` written out: ERR and LOPC written, BUSY down, everything else as in `s`; so an equation
`exec i s = .next (...)` also states the frame: what it does not name is unchanged. -/

open Sys2Proof Sys2Proof.Machine

/-! ### Encoding -/

/-- Decoding the word of a well-formed command gives the command back (30_encoding.md R71, R75). -/
def Obligations.DecodeEncodeRoundTrip : Prop :=
  ∀ i : Instr, i.wellFormed = true → decode (encode i) = .instr i

/-- Each command word has one meaning: encoding what a word decodes to gives the word back, and what it decodes to is
well-formed (30_encoding.md R71, R73, R75). -/
def Obligations.EncodeDecodeRoundTrip : Prop :=
  ∀ (w : Word) (i : Instr), decode w = .instr i → encode i = w ∧ i.wellFormed = true

/-- The rows of R71's opcode map, each with its mask, match and operand fields (R82). -/
def Obligations.DecodeFollowsOpcodeMap : Prop :=
  ∀ w : Word,
    (w &&& 0xFFFFFFFF#32 = 0x00000000#32 → decode w = .instr .nop) ∧
    (w &&& 0xF00FFFFF#32 = 0x10000000#32 → decode w = .instr (.trkCfg (w.toNat / 2 ^ 20 % 256))) ∧
    (w &&& 0xF00FFFFF#32 = 0x20000000#32 → decode w = .instr (.trkFree (w.toNat / 2 ^ 20 % 256))) ∧
    (w &&& 0xF00FFFFF#32 = 0x30000000#32 → decode w = .instr (.trkSetcc (w.toNat / 2 ^ 20 % 256))) ∧
    (w &&& 0xF00FFFFF#32 = 0x40000000#32 → decode w = .instr (.trkRead (w.toNat / 2 ^ 20 % 256))) ∧
    (w &&& 0xFFFFFFFF#32 = 0x50000000#32 → decode w = .instr .hdrEnc) ∧
    (w &&& 0xFFFFFFFF#32 = 0x60000000#32 → decode w = .instr .hdrDec) ∧
    (w &&& 0xFFFFFFFF#32 = 0x70000000#32 → decode w = .instr .afEnc) ∧
    (w &&& 0xFFFFFFFF#32 = 0x80000000#32 → decode w = .instr .afDec) ∧
    (w &&& 0xF007FFFF#32 = 0x90000000#32 →
      decode w = .instr (.packetize (w.toNat / 2 ^ 20 % 256) (decide (w.toNat / 2 ^ 19 % 2 = 1)))) ∧
    (w &&& 0xFFFFFFFF#32 = 0xA0000000#32 → decode w = .instr .parse)

/-- R75: the decoder answers the row a word selects and ILLEGAL where it selects none, at most one row matches any word,
and an ILLEGAL word completes with ILLEGAL_CMD. -/
def Obligations.DecoderTotalAndUnambiguous : Prop :=
  ∀ w : Word,
    (∀ r ∈ opcodeMap, w &&& r.mask = r.pattern → decode w = .instr (buildInstr r.op w)) ∧
    ((∀ r ∈ opcodeMap, w &&& r.mask ≠ r.pattern) →
      (∃ why, decode w = .illegal why) ∧
      ∀ s : State, s.eng.phase = .start → s.eng.cmd = w → engineStep s = .next (s.endedWith .illegalCmd)) ∧
    (∀ r ∈ opcodeMap, ∀ q ∈ opcodeMap, w &&& r.mask = r.pattern → w &&& q.mask = q.pattern → r = q)

/-- R73 and R74: a reserved opcode, and a defined one with a non-zero field it does not use, select no row and complete
with ILLEGAL_CMD and no other effect; each row's mask is OPC and the fields its opcode does not use; word 0 alone is NOP. -/
def Obligations.ReservedAndUnusedFieldsAreIllegal : Prop :=
  ∀ w : Word,
    (∀ s : State, s.eng.phase = .start → s.eng.cmd = w →
      (0xB ≤ w.toNat / 2 ^ 28 →
        (∀ r ∈ opcodeMap, w &&& r.mask ≠ r.pattern) ∧ engineStep s = .next (s.endedWith .illegalCmd)) ∧
      (w.toNat / 2 ^ 28 ≤ 0xA →
        (w.toNat % 2 ^ 19 ≠ 0 ∨
          (w.toNat / 2 ^ 20 % 256 ≠ 0 ∧ w.toNat / 2 ^ 28 ∈ [0x0, 0x5, 0x6, 0x7, 0x8, 0xA]) ∨
          (w.toNat / 2 ^ 19 % 2 = 1 ∧ w.toNat / 2 ^ 28 ≠ 0x9)) →
        (∀ r ∈ opcodeMap, w &&& r.mask ≠ r.pattern) ∧ engineStep s = .next (s.endedWith .illegalCmd))) ∧
    (∀ r ∈ opcodeMap, r.mask = 0xF007FFFF#32
      ||| (if r.op ∈ [.trkCfg, .trkFree, .trkSetcc, .trkRead, .packetize] then 0x00000000#32 else 0x0FF00000#32)
      ||| (if r.op = .packetize then 0x00000000#32 else 0x00080000#32)) ∧
    (decode w = .instr .nop → w = 0#32)

/-- R133: an ILLEGAL word completes with ILLEGAL_CMD at the first engine step and does nothing else. -/
def Obligations.IllegalCommandCompletes : Prop :=
  ∀ (s : State) (why : IllegalReason), s.eng.phase = .start → decode s.eng.cmd = .illegal why →
    engineStep s = .next (s.endedWith .illegalCmd)

/-- Words written out from the spec's encodings decode to the commands they stand for (95_test_vectors.md 2.1, 2.2). -/
def Obligations.SpecWordsDecode : Prop :=
  decode 0x00000000#32 = .instr .nop ∧ decode 0x10100000#32 = .instr (.trkCfg 1) ∧
  decode 0x20400000#32 = .instr (.trkFree 4) ∧ decode 0x30200000#32 = .instr (.trkSetcc 2) ∧
  decode 0x40F00000#32 = .instr (.trkRead 15) ∧ decode 0x50000000#32 = .instr .hdrEnc ∧
  decode 0x60000000#32 = .instr .hdrDec ∧ decode 0x70000000#32 = .instr .afEnc ∧
  decode 0x80000000#32 = .instr .afDec ∧ decode 0x90080000#32 = .instr (.packetize 0 true) ∧
  decode 0x90200000#32 = .instr (.packetize 2 false) ∧ decode 0xA0000000#32 = .instr .parse ∧
  decode 0xB0000000#32 = .illegal .reservedOpcode ∧ decode 0x10080000#32 = .illegal .unusedFieldNonzero

/-! ### The step -/

/-- In phase START a step is exec of the decoded command, with nothing around it but the event taken (10_state.md R45). -/
def Obligations.StepRunsDecodedCommand : Prop :=
  ∀ (s : State) (i : Instr), s.eng.phase = .start → decode s.eng.cmd = .instr i →
    (s.inputs = [] → step s = exec i s) ∧
    (∀ rest, s.inputs = .engine :: rest → step s = exec i { s with inputs := rest })

/-- Which agent a step moves (the inputs list is the model's choice, log 3): the oldest pending event takes place, and with
none pending the engine moves; an idle engine's turn changes nothing. -/
def Obligations.StepTakesOldestEvent : Prop :=
  ∀ (s : State) (rest : List Event),
    (∀ op, s.inputs = .host op :: rest → step s = .next (hostStep op { s with inputs := rest })) ∧
    (∀ acc, s.inputs = .bus acc :: rest → step s = .next (busStep acc { s with inputs := rest })) ∧
    (s.inputs = .reset :: rest → step s = .next ({ s with inputs := rest } : State).blockReset) ∧
    (s.inputs = .engine :: rest → step s = engineStep { s with inputs := rest }) ∧
    (s.inputs = [] → step s = engineStep s) ∧
    (s.inputs = [] → s.eng.phase = .idle → step s = .next s)

/-- A word placed as the next command is accepted as R122 has it and run by the very next step (log 6). -/
def Obligations.PlacedWordRuns : Prop :=
  ∀ (i : Instr) (s : State), i.wellFormed = true →
    step (s.withFetchWord 32 (encode i).toNat) = exec i
      { s with
        regs := { s.regs with cmd := encode i }
        eng := { s.eng with phase := .start, cmd := encode i, a0 := s.regs.arg0, a1 := s.regs.arg1 }
        inputs := [] }

/-! ### NOP and the track commands -/

/-- R87: NOP is the single word 0; it completes with OK and changes nothing else. -/
def Obligations.NopOnlyCompletes : Prop :=
  decode 0x00000000#32 = .instr .nop ∧
  (∀ w : Word, w.toNat / 2 ^ 28 = 0 → w ≠ 0#32 → ∀ s : State, s.eng.phase = .start → s.eng.cmd = w →
    engineStep s = .next (s.endedWith .illegalCmd)) ∧
  ∀ s : State, exec .nop s = .next (s.endedWith .ok)

/-- R91: TRK_CFG, its encoding, its four checks in order and its effect. -/
def Obligations.TrkCfgCreatesTrack : Prop :=
  ∀ (t : Nat) (s : State),
    (t < 256 → decode (0x10000000#32 ||| BitVec.ofNat 32 t <<< 20) = .instr (.trkCfg t)) ∧
    (∀ w : Word, w &&& 0xF00FFFFF#32 = 0x10000000#32 → decode w = .instr (.trkCfg (w.toNat / 2 ^ 20 % 256))) ∧
    (s.params.nTracks ≤ t → exec (.trkCfg t) s = .next (s.endedWith .badTrack)) ∧
    (t < s.params.nTracks → (s.trk t).valid = true → exec (.trkCfg t) s = .next (s.endedWith .badTrack)) ∧
    (t < s.params.nTracks → (s.trk t).valid = false → 2 ^ 13 ≤ s.eng.a0.toNat →
      exec (.trkCfg t) s = .next (s.endedWith .pidRange)) ∧
    (t < s.params.nTracks → (s.trk t).valid = false → s.eng.a0.toNat < 2 ^ 13 → 2 ^ 8 ≤ s.eng.a1.toNat →
      exec (.trkCfg t) s = .next (s.endedWith .badArg)) ∧
    (t < s.params.nTracks → (s.trk t).valid = false → s.eng.a0.toNat < 2 ^ 13 → s.eng.a1.toNat < 2 ^ 8 →
      exec (.trkCfg t) s = .next (State.endedWith .ok
        { s with trks := s.trks.set t (Track.mk true (BitVec.ofNat 13 s.eng.a0.toNat)
            (BitVec.ofNat 8 s.eng.a1.toNat) (BitVec.ofNat 4 s.params.ccInit)) }))

/-- R92: TRK_FREE zeroes the slot; on a slot that holds no live track it changes nothing but STATUS. -/
def Obligations.TrkFreeClearsSlot : Prop :=
  ∀ (t : Nat) (s : State),
    (t < 256 → decode (0x20000000#32 ||| BitVec.ofNat 32 t <<< 20) = .instr (.trkFree t)) ∧
    (∀ w : Word, w &&& 0xF00FFFFF#32 = 0x20000000#32 → decode w = .instr (.trkFree (w.toNat / 2 ^ 20 % 256))) ∧
    (s.params.nTracks ≤ t → exec (.trkFree t) s = .next (s.endedWith .badTrack)) ∧
    (t < s.params.nTracks → exec (.trkFree t) s = .next (State.endedWith .ok
      { s with trks := s.trks.set t (Track.mk false 0#13 0#8 0#4) })) ∧
    (t < s.params.nTracks → s.Inv → (s.trk t).valid = false → exec (.trkFree t) s = .next (s.endedWith .ok))

/-- R93: TRK_SETCC stores the operand modulo 16 into a live slot's counter; no operand is an error. -/
def Obligations.TrkSetccSeedsCounter : Prop :=
  ∀ (t : Nat) (s : State),
    (t < 256 → decode (0x30000000#32 ||| BitVec.ofNat 32 t <<< 20) = .instr (.trkSetcc t)) ∧
    (∀ w : Word, w &&& 0xF00FFFFF#32 = 0x30000000#32 → decode w = .instr (.trkSetcc (w.toNat / 2 ^ 20 % 256))) ∧
    (s.params.nTracks ≤ t → exec (.trkSetcc t) s = .next (s.endedWith .badTrack)) ∧
    (t < s.params.nTracks → (s.trk t).valid = false → exec (.trkSetcc t) s = .next (s.endedWith .badTrack)) ∧
    (t < s.params.nTracks → (s.trk t).valid = true → exec (.trkSetcc t) s = .next (State.endedWith .ok
      { s with trks := s.trks.set t { s.trk t with cc := s.eng.a0.extractLsb' 0 4 } }))

/-- R94: TRK_READ copies the slot into TRKR; an invalid slot reads as 0 in every state that keeps the invariant. -/
def Obligations.TrkReadSnapshotsSlot : Prop :=
  ∀ (t : Nat) (s : State),
    (t < 256 → decode (0x40000000#32 ||| BitVec.ofNat 32 t <<< 20) = .instr (.trkRead t)) ∧
    (∀ w : Word, w &&& 0xF00FFFFF#32 = 0x40000000#32 → decode w = .instr (.trkRead (w.toNat / 2 ^ 20 % 256))) ∧
    (s.params.nTracks ≤ t → exec (.trkRead t) s = .next (s.endedWith .badTrack)) ∧
    (t < s.params.nTracks → exec (.trkRead t) s = .next (State.endedWith .ok
      { s with regs := { s.regs with
          trkr := BitVec.ofNat 32 ((s.trk t).pid.toNat + 2 ^ 15 * (s.trk t).valid.toNat
            + 2 ^ 16 * (s.trk t).cc.toNat + 2 ^ 24 * (s.trk t).st.toNat) } })) ∧
    (t < s.params.nTracks → s.Inv → (s.trk t).valid = false → exec (.trkRead t) s = .next (State.endedWith .ok
      { s with regs := { s.regs with trkr := 0#32 } }))

/-- Reading a slot after a slot was written: the one written reads as written, every other as before (R41). -/
def Obligations.SlotWriteReadsBack : Prop :=
  ∀ (s : State) (t u : Nat) (x : Track), t < s.params.nTracks → s.trks.length = s.params.nTracks →
    ({ s with trks := s.trks.set t x } : State).trk u = if u = t then x else s.trk u

/-! ### The header codec -/

/-- R96: HDR_ENC puts the sync byte before the operand's 24 bits, reports is_scrambled, and rejects an operand with a bit
outside the seven fields. -/
def Obligations.HdrEncEncodesHeader : Prop :=
  decode 0x50000000#32 = .instr .hdrEnc ∧
  ∀ s : State,
    (2 ^ 24 ≤ s.eng.a0.toNat ∨ s.eng.a0.getLsbD 7 = true → exec .hdrEnc s = .next (s.endedWith .badArg)) ∧
    (s.eng.a0.toNat < 2 ^ 24 → s.eng.a0.getLsbD 7 = false → exec .hdrEnc s = .next (State.endedWith .ok
      { s with regs := { s.regs with
          hdrw := 0x47000000#32 ||| s.eng.a0
          hdrx := if s.eng.a0.getLsbD 6 then 1#32 else 0#32 } }))

/-- R97 and R98: HDR_DEC fails unless the top byte is the sync constant; else it keeps the word and reports
is_scrambled, for the raw values 0b10 and 0b11 from the instance's parameters. -/
def Obligations.HdrDecDecodesHeader : Prop :=
  decode 0x60000000#32 = .instr .hdrDec ∧
  ∀ s : State,
    (s.eng.a0.toNat / 2 ^ 24 ≠ 0x47 → exec .hdrDec s = .next (s.endedWith .malformedHeader)) ∧
    (s.eng.a0.toNat / 2 ^ 24 = 0x47 → exec .hdrDec s = .next (State.endedWith .ok
      { s with regs := { s.regs with
          hdrw := s.eng.a0
          hdrx :=
            if s.eng.a0.toNat / 64 % 4 = 0 then 0#32
            else if s.eng.a0.toNat / 64 % 4 = 1 then 1#32
            else if s.eng.a0.toNat / 64 % 4 = 2 then (if s.params.scrDecode10 then 1#32 else 0#32)
            else (if s.params.scrDecode11 then 1#32 else 0#32) } }))

/-- R99: HDR_ENC, then HDR_DEC of the word it produced, both succeed and recover the seven fields; HDR_ENC of the 24 bits
that HDR_DEC kept gives the word back where its bit 7 is 0, and is rejected where it is 1. -/
def Obligations.HeaderRoundTrip : Prop :=
  (∀ s : State, s.eng.a0.toNat < 2 ^ 24 → s.eng.a0.getLsbD 7 = false →
    ∃ s1, exec .hdrEnc s = .next s1 ∧ s1.regs.err = .ok ∧
      ∀ s2 : State, s2.eng.a0 = s1.regs.hdrw →
        ∃ s3, exec .hdrDec s2 = .next s3 ∧ s3.regs.err = .ok ∧ s3.regs.hdrw = 0x47000000#32 ||| s.eng.a0 ∧
          s3.regs.hdrx = if s.eng.a0.getLsbD 6 then 1#32 else 0#32) ∧
  (∀ s : State, s.eng.a0.toNat / 2 ^ 24 = 0x47 →
    ∃ s1, exec .hdrDec s = .next s1 ∧ s1.regs.err = .ok ∧
      ∀ s2 : State, s2.eng.a0 = s1.regs.hdrw &&& 0x00FFFFFF#32 →
        (s.eng.a0.getLsbD 7 = false →
          ∃ s3, exec .hdrEnc s2 = .next s3 ∧ s3.regs.err = .ok ∧ s3.regs.hdrw = s.eng.a0) ∧
        (s.eng.a0.getLsbD 7 = true → exec .hdrEnc s2 = .next (s2.endedWith .badArg)))

/-! ### The adaptation field codec -/

/-- R101: AF_ENC's checks in order, the bytes it writes and the registers; every other byte of BUF reads as before. -/
def Obligations.AfEncWritesField : Prop :=
  decode 0x70000000#32 = .instr .afEnc ∧
  ∀ s : State,
    (254 < s.eng.a0.toNat → exec .afEnc s = .next (s.endedWith .badArg)) ∧
    (s.eng.a0.toNat ≤ 254 → s.params.bufBytes < s.eng.a1.toNat + 2 + s.eng.a0.toNat →
      exec .afEnc s = .next (s.endedWith .range)) ∧
    (s.eng.a0.toNat ≤ 254 → s.eng.a1.toNat + 2 + s.eng.a0.toNat ≤ s.params.bufBytes →
      ∃ m : Memory, exec .afEnc s = .next (State.endedWith .ok
          { s with
            buf := m
            regs := { s.regs with
              afr := BitVec.ofNat 32 (1 + s.eng.a0.toNat + 2 ^ 16 * s.eng.a0.toNat)
              afc := BitVec.ofNat 32 (2 + s.eng.a0.toNat) } }) ∧
        (s.buf.wf → m.wf) ∧
        ∀ a, m.read a =
          if a = s.eng.a1.toNat then some (BitVec.ofNat 8 (1 + s.eng.a0.toNat))
          else if a = s.eng.a1.toNat + 1 then some 0x00#8
          else if s.eng.a1.toNat + 2 ≤ a ∧ a < s.eng.a1.toNat + 2 + s.eng.a0.toNat then some 0xFF#8
          else s.buf.read a)

/-- R102: AF_DEC's checks in order and its registers; the stuffing bytes are not read. `x` and `y` are the reads of the
length byte and of the flags byte. -/
def Obligations.AfDecDecodesField : Prop :=
  decode 0x80000000#32 = .instr .afDec ∧
  ∀ s : State,
    (s.params.bufBytes < s.eng.a0.toNat + s.eng.a1.toNat → exec .afDec s = .next (s.endedWith .range)) ∧
    (s.eng.a0.toNat + s.eng.a1.toNat ≤ s.params.bufBytes → s.eng.a1.toNat = 0 →
      exec .afDec s = .next (s.endedWith .truncatedAf)) ∧
    (s.eng.a0.toNat + s.eng.a1.toNat ≤ s.params.bufBytes → 1 ≤ s.eng.a1.toNat →
      let x := s.bufRead s.eng.a0.toNat
      let y := x.2.bufRead (s.eng.a0.toNat + 1)
      (s.eng.a1.toNat < 1 + x.1.toNat → exec .afDec s = .next (x.2.endedWith .truncatedAf)) ∧
      (1 + x.1.toNat ≤ s.eng.a1.toNat → x.1.toNat = 0 → exec .afDec s = .next (x.2.endedWith .afZeroLen)) ∧
      (1 + x.1.toNat ≤ s.eng.a1.toNat → x.1.toNat ≠ 0 → exec .afDec s = .next (State.endedWith .ok
        { y.2 with regs := { s.regs with
            afr := BitVec.ofNat 32 (x.1.toNat + 2 ^ 8 * y.1.toNat + 2 ^ 16 * (x.1.toNat - 1))
            afc := BitVec.ofNat 32 (1 + x.1.toNat) } })))

/-- R103: AF_ENC followed by AF_DEC over the same bytes, with no BUF write between, both succeed and leave the same AFR
and AFC. -/
def Obligations.AdaptationFieldRoundTrip : Prop :=
  ∀ s : State, s.eng.a0.toNat ≤ 254 → s.eng.a1.toNat + 2 + s.eng.a0.toNat ≤ s.params.bufBytes →
    ∃ s1, exec .afEnc s = .next s1 ∧ s1.regs.err = .ok ∧
      s1.regs.afr = BitVec.ofNat 32 (1 + s.eng.a0.toNat + 2 ^ 16 * s.eng.a0.toNat) ∧
      s1.regs.afc = BitVec.ofNat 32 (2 + s.eng.a0.toNat) ∧
      ∀ s2 : State, s2.buf = s1.buf → s2.params = s1.params → s2.eng.a0 = s.eng.a1 →
        s2.eng.a1.toNat = 2 + s.eng.a0.toNat →
        ∃ s3, exec .afDec s2 = .next s3 ∧ s3.regs.err = .ok ∧ s3.regs.afr = s1.regs.afr ∧
          s3.regs.afc = s1.regs.afc ∧ s3.faultUninit = s2.faultUninit

/-- What a read of BUF yields (20_memory.md R55): a written byte, or, where the byte is unwritten, a free byte with
fault_uninit set; nothing else changes but the model's draw counter (log 5). A read of several bytes takes them in order. -/
def Obligations.BufReadsYieldBytes : Prop :=
  ∀ (s : State) (a : Nat),
    (∀ v, s.buf.read a = some v → s.bufRead a = (v, s)) ∧
    (s.buf.read a = none →
      s.bufRead a = (Config.freeByte s.draws, { s with faultUninit := true, draws := s.draws + 1 })) ∧
    (∀ bytes : List Byte, s.buf.holds a bytes → s.bufReadList a bytes.length = (bytes, s)) ∧
    ∀ n, (s.bufReadList a n).1.length = n ∧
      ∃ u d, (s.bufReadList a n).2 = { s with faultUninit := u, draws := d } ∧ (s.faultUninit = true → u = true)

/-- An engine read of an unwritten byte (20_memory.md R55) sets fault_uninit, leaves BUF as it is and does not stop the
command: AF_DEC on an unwritten length byte, PARSE on an unwritten sync byte, and a packet step with an unwritten byte in
its chunk. -/
def Obligations.UnwrittenReadsRunOn : Prop :=
  ∀ s : State,
    (s.eng.a0.toNat + s.eng.a1.toNat ≤ s.params.bufBytes → 1 ≤ s.eng.a1.toNat →
      s.buf.read s.eng.a0.toNat = none →
      ∃ s', exec .afDec s = .next s' ∧ s'.faultUninit = true ∧ s'.buf = s.buf) ∧
    (s.eng.a1.toNat = 188 → s.eng.a0.toNat + 188 ≤ s.params.bufBytes → s.buf.read s.eng.a0.toNat = none →
      ∃ s', exec .parse s = .next s' ∧ s'.faultUninit = true ∧ s'.buf = s.buf) ∧
    (s.eng.phase = .run → s.eng.i < s.eng.n → 182 * s.eng.i < s.eng.len → s.eng.t < s.params.nTracks →
      s.eng.src + 182 * s.eng.i + min 182 (s.eng.len - 182 * s.eng.i) ≤ s.params.bufBytes →
      ∀ k, k < min 182 (s.eng.len - 182 * s.eng.i) → s.buf.read (s.eng.src + 182 * s.eng.i + k) = none →
      ∃ s', engineStep s = .next s' ∧ s'.faultUninit = true ∧ s'.buf = s.buf)

/-! ### The packetizer -/

/-- R106: PACKETIZE's encoding; its first engine step, with the checks in order, the empty payload, and packet 0 (R107);
every later engine step is a packet step. -/
def Obligations.PacketizeFirstStep : Prop :=
  ∀ (t : Nat) (fp : Bool) (s : State),
    (t < 256 → decode (0x90000000#32 ||| BitVec.ofNat 32 t <<< 20 ||| BitVec.ofNat 32 fp.toNat <<< 19)
      = .instr (.packetize t fp)) ∧
    (∀ w : Word, w &&& 0xF007FFFF#32 = 0x90000000#32 →
      decode w = .instr (.packetize (w.toNat / 2 ^ 20 % 256) (decide (w.toNat / 2 ^ 19 % 2 = 1)))) ∧
    (s.eng.phase = .run → engineStep s = packetStep s) ∧
    (s.params.nTracks ≤ t → exec (.packetize t fp) s = .next (s.endedWith .badTrack)) ∧
    (t < s.params.nTracks → (s.trk t).valid = false → exec (.packetize t fp) s = .next (s.endedWith .badTrack)) ∧
    (t < s.params.nTracks → (s.trk t).valid = true → s.params.bufBytes < s.eng.a0.toNat + s.eng.a1.toNat →
      exec (.packetize t fp) s = .next (s.endedWith .range)) ∧
    (t < s.params.nTracks → (s.trk t).valid = true → s.eng.a0.toNat + s.eng.a1.toNat ≤ s.params.bufBytes →
      s.eng.a1.toNat = 0 → exec (.packetize t fp) s = .next (State.endedWith .ok
        { s with regs := { s.regs with pktn := 0#32 } })) ∧
    (t < s.params.nTracks → (s.trk t).valid = true → s.eng.a0.toNat + s.eng.a1.toNat ≤ s.params.bufBytes →
      0 < s.eng.a1.toNat →
      let r := s.bufReadList s.eng.a0.toNat (min 182 s.eng.a1.toNat)
      let s1 : State :=
        { r.2 with
          trks := s.trks.set t { s.trk t with cc := (s.trk t).cc + 1#4 }
          out := s.out ++ [specPacket true (s.trk t).pid.toNat ((s.trk t).cc.toNat + 1) r.1]
          eng := { s.eng with phase := .run, t := t, src := s.eng.a0.toNat, len := s.eng.a1.toNat,
                              n := (s.eng.a1.toNat + 181) / 182, i := 1 } }
      exec (.packetize t fp) s = .next
        (if s.eng.a1.toNat ≤ 182 then State.endedWith .ok { s1 with regs := { s1.regs with pktn := 1#32 } } else s1))

/-- R107: one packet step emits chunk eng.i as one packet with the incremented counter, and completes after the last
chunk. -/
def Obligations.PacketStepEmitsChunk : Prop :=
  ∀ s : State, s.eng.phase = .run → s.eng.i < s.eng.n → 182 * s.eng.i < s.eng.len → s.eng.t < s.params.nTracks →
    s.eng.src + 182 * s.eng.i + min 182 (s.eng.len - 182 * s.eng.i) ≤ s.params.bufBytes →
    let r := s.bufReadList (s.eng.src + 182 * s.eng.i) (min 182 (s.eng.len - 182 * s.eng.i))
    let x := s.trk s.eng.t
    let s1 : State :=
      { r.2 with
        trks := s.trks.set s.eng.t { x with cc := x.cc + 1#4 }
        out := s.out ++ [specPacket (s.eng.i == 0) x.pid.toNat (x.cc.toNat + 1) r.1]
        eng := { s.eng with i := s.eng.i + 1 } }
    (specPacket (s.eng.i == 0) x.pid.toNat (x.cc.toNat + 1) r.1).length = 188 ∧
    engineStep s = .next
      (if s.eng.i + 1 = s.eng.n then
        State.endedWith .ok { s1 with regs := { s1.regs with pktn := BitVec.ofNat 32 s.eng.n } }
      else s1)

/-- Where a packet step stops: engine states that no run reaches (log 7), in which no chunk, no slot or no such BUF range
exists (10_state.md R46, 40_track.md R88, 20_memory.md R54). -/
def Obligations.PacketStepStopsOutsideItsState : Prop :=
  ∀ s : State, s.eng.phase = .run →
    (s.eng.n ≤ s.eng.i ∨ s.eng.len ≤ 182 * s.eng.i → engineStep s = .fault .engineChunkIndex) ∧
    (s.eng.i < s.eng.n → 182 * s.eng.i < s.eng.len → s.params.nTracks ≤ s.eng.t →
      engineStep s = .fault .engineTrackIndex) ∧
    (s.eng.i < s.eng.n → 182 * s.eng.i < s.eng.len → s.eng.t < s.params.nTracks →
      s.params.bufBytes < s.eng.src + 182 * s.eng.i + min 182 (s.eng.len - 182 * s.eng.i) →
      engineStep s = .fault .engineBufRange)

/-- A PACKETIZE on a live slot over a written payload, with no other event pending, after `k` of its n packet steps
(R105 to R112, 70_reset_and_hazards.md R159): the first `k` packets stand on OUT in order, the counter has advanced by
`k`, BUSY falls exactly at the n-th step, and the command ends with OK and PKTN = n. -/
def Obligations.PacketizeEmitsEveryChunk : Prop :=
  ∀ (s : State) (t : Nat) (fp : Bool) (payload : List Byte),
    s.inputs = [] → s.eng.phase = .start → decode s.eng.cmd = .instr (.packetize t fp) →
    s.trks.length = s.params.nTracks → t < s.params.nTracks → (s.trk t).valid = true →
    payload.length = s.eng.a1.toNat → s.eng.a0.toNat + s.eng.a1.toNat ≤ s.params.bufBytes →
    s.buf.holds s.eng.a0.toNat payload →
    ∀ k, 1 ≤ k → k ≤ (s.eng.a1.toNat + 181) / 182 →
      ∃ s', runSteps k s = .next s' ∧
        s'.out = s.out ++ (List.range k).map (fun i =>
          specPacket (i == 0) (s.trk t).pid.toNat ((s.trk t).cc.toNat + i + 1) (specChunk payload i)) ∧
        s'.trks = s.trks.set t { s.trk t with cc := BitVec.ofNat 4 ((s.trk t).cc.toNat + k) } ∧
        s'.buf = s.buf ∧ s'.faultUninit = s.faultUninit ∧ s'.faultHaz = s.faultHaz ∧
        (k < (s.eng.a1.toNat + 181) / 182 → s'.eng.phase = .run ∧ s'.eng.i = k ∧ s'.regs = s.regs) ∧
        (k = (s.eng.a1.toNat + 181) / 182 → s'.eng.phase = .idle ∧
          s'.regs = { s.regs with err := .ok, lopc := 9#4, pktn := BitVec.ofNat 32 k })

/-- R114 (a) to (g): what a successful PACKETIZE of a non-empty written payload has put on OUT: ceil(L/182) packets of
188 bytes, each with 4 + 1 + field_length + payload_length = 188; the counter and PUSI of packet i; stuffing in the last
packet only; the payload parts in order are the payload; the least total stuffing. -/
def Obligations.PacketizeOutputLaws : Prop :=
  ∀ (s s' : State) (t : Nat) (fp : Bool) (payload : List Byte),
    s.inputs = [] → s.eng.phase = .start → decode s.eng.cmd = .instr (.packetize t fp) →
    s.trks.length = s.params.nTracks → t < s.params.nTracks → (s.trk t).valid = true →
    payload.length = s.eng.a1.toNat → s.eng.a0.toNat + s.eng.a1.toNat ≤ s.params.bufBytes →
    s.buf.holds s.eng.a0.toNat payload → 0 < payload.length →
    runSteps ((s.eng.a1.toNat + 181) / 182) s = .next s' →
    ∃ ps, s'.out = s.out ++ ps ∧ ps.length = ceilDiv payload.length 182 ∧
      (∀ p ∈ ps, p.length = 188 ∧ 4 + 1 + packetFl p + (packetPayload p).length = 188) ∧
      (∀ i p, ps[i]? = some p →
        (p.getD 3 0#8).toNat % 16 = ((s.trk t).cc.toNat + i + 1) % 16 ∧
        ((p.getD 1 0#8).getLsbD 6 = true ↔ i = 0) ∧
        (i + 1 < ps.length → packetFl p = 1) ∧
        (i + 1 = ps.length → packetFl p = 183 - (payload.length - 182 * i))) ∧
      (s'.trk t).cc.toNat = ((s.trk t).cc.toNat + ps.length) % 16 ∧
      (ps.map packetPayload).flatten = payload ∧
      (ps.map (fun p => packetFl p - 1)).sum = 182 * ps.length - payload.length ∧
      182 * ps.length - payload.length ≤ 181

/-- R113: FP has no effect: with the FP bit of a PACKETIZE word flipped, the first engine step does the same, and so does
every later one; only the latched word differs. -/
def Obligations.ForcePusiHasNoEffect : Prop :=
  ∀ (s s' : State) (t : Nat) (fp : Bool), s.eng.phase ≠ .idle → decode s.eng.cmd = .instr (.packetize t fp) →
    engineStep s = .next s' →
    engineStep { s with eng := { s.eng with cmd := s.eng.cmd ^^^ 0x00080000#32 } } =
      .next { s' with eng := { s'.eng with cmd := s'.eng.cmd ^^^ 0x00080000#32 } }

/-! ### The parser -/

/-- R115: PARSE's checks in order and its five result registers. `x0` to `x3` are the reads of the header bytes, `x4` of
the length byte and `x5` of the flags byte; no other byte is read. -/
def Obligations.ParseReadsPacket : Prop :=
  decode 0xA0000000#32 = .instr .parse ∧
  ∀ s : State,
    (s.eng.a1.toNat ≠ 188 → exec .parse s = .next (s.endedWith .wrongSize)) ∧
    (s.eng.a1.toNat = 188 → s.params.bufBytes < s.eng.a0.toNat + 188 →
      exec .parse s = .next (s.endedWith .range)) ∧
    (s.eng.a1.toNat = 188 → s.eng.a0.toNat + 188 ≤ s.params.bufBytes →
      let a := s.eng.a0.toNat
      let x0 := s.bufRead a
      let x1 := x0.2.bufRead (a + 1)
      let x2 := x1.2.bufRead (a + 2)
      let x3 := x2.2.bufRead (a + 3)
      let x4 := x3.2.bufRead (a + 4)
      let x5 := x4.2.bufRead (a + 5)
      (x0.1 ≠ 0x47#8 → exec .parse s = .next (x0.2.endedWith .malformedHeader)) ∧
      (x0.1 = 0x47#8 → 183 < x4.1.toNat → exec .parse s = .next (x4.2.endedWith .truncatedAf)) ∧
      (x0.1 = 0x47#8 → x4.1.toNat = 0 → exec .parse s = .next (x4.2.endedWith .afZeroLen)) ∧
      (x0.1 = 0x47#8 → 1 ≤ x4.1.toNat → x4.1.toNat ≤ 183 → exec .parse s = .next (State.endedWith .ok
        { x5.2 with regs := { s.regs with
            hdrw := BitVec.ofNat 32 (2 ^ 24 * 0x47 + 2 ^ 16 * x1.1.toNat + 2 ^ 8 * x2.1.toNat + x3.1.toNat)
            hdrx :=
              if x3.1.toNat / 64 = 0 then 0#32
              else if x3.1.toNat / 64 = 1 then 1#32
              else if x3.1.toNat / 64 = 2 then (if s.params.scrDecode10 then 1#32 else 0#32)
              else (if s.params.scrDecode11 then 1#32 else 0#32)
            afr := BitVec.ofNat 32 (x4.1.toNat + 2 ^ 8 * x5.1.toNat + 2 ^ 16 * (x4.1.toNat - 1))
            afc := BitVec.ofNat 32 (1 + x4.1.toNat)
            plr := BitVec.ofNat 32 (5 + x4.1.toNat + 2 ^ 8 * (183 - x4.1.toNat)) } })))

/-- R117: the two conditions coincide and TRUNCATED_AF is tested first, so PARSE never ends with INCONSISTENT_AF_LEN. -/
def Obligations.InconsistentLengthUnreachable : Prop :=
  (∀ fl : Nat, (188 : Int) - 4 - (1 + fl) < 0 ↔ 184 < 1 + fl) ∧
  ∀ s s' : State, exec .parse s = .next s' → s'.regs.err ≠ .inconsistentAfLen

/-- R119: a packet that an engine step put on OUT is made of a chunk of 1 to 182 bytes, and wherever its 188 bytes stand
in BUF, PARSE succeeds on them with the header, field_length, payload length and offset of the packet, and BUF holds the
chunk at the payload offset. -/
def Obligations.ParseInvertsPacketize : Prop :=
  ∀ (s0 s0' : State) (p : List Byte), engineStep s0 = .next s0' → s0'.out = s0.out ++ [p] →
    ∃ (first : Bool) (pid cc : Nat) (chunk : List Byte),
      pid < 2 ^ 13 ∧ 1 ≤ chunk.length ∧ chunk.length ≤ 182 ∧ p = specPacket first pid cc chunk ∧
      ∀ s : State, s.eng.a1.toNat = 188 → s.eng.a0.toNat + 188 ≤ s.params.bufBytes →
        s.buf.holds s.eng.a0.toNat p →
        ∃ s', exec .parse s = .next s' ∧ s'.regs.err = .ok ∧
          s'.regs.hdrw.toNat = 2 ^ 24 * (p.getD 0 0#8).toNat + 2 ^ 16 * (p.getD 1 0#8).toNat
            + 2 ^ 8 * (p.getD 2 0#8).toNat + (p.getD 3 0#8).toNat ∧
          s'.regs.afr.toNat % 256 = (p.getD 4 0#8).toNat ∧
          s'.regs.plr.toNat / 256 = chunk.length ∧
          s'.regs.plr.toNat % 256 = 6 + (182 - chunk.length) ∧
          s'.buf.holds (s.eng.a0.toNat + s'.regs.plr.toNat % 256) chunk

/-! ### Whole-machine rules of the commands -/

/-- Every command, in every state and on every operand, answers a next state: no stop anywhere. -/
def Obligations.ExecAlwaysAnswersNext : Prop :=
  ∀ (i : Instr) (s : State), ∃ s', exec i s = .next s'

/-- R135: an engine step that ends a command with a non-zero code is its first one, and changes only ERR, LOPC and BUSY,
and fault_uninit only through a BUF byte that AF_DEC or PARSE read (the draw counter is the model's, log 5). -/
def Obligations.FailureAtomicity : Prop :=
  ∀ s s' : State, s.eng.phase ≠ .idle → engineStep s = .next s' → s'.eng.phase = .idle → s'.regs.err ≠ .ok →
    s.eng.phase = .start ∧
    s' = { s with
      regs := { s.regs with err := s'.regs.err, lopc := s.eng.cmd.extractLsb' 28 4 }
      eng := { s.eng with phase := .idle }
      faultUninit := s'.faultUninit
      draws := s'.draws } ∧
    (s.faultUninit = true → s'.faultUninit = true) ∧
    (s'.faultUninit ≠ s.faultUninit → decode s.eng.cmd = .instr .afDec ∨ decode s.eng.cmd = .instr .parse)

/-- R68: no command reads or writes a slot other than the one its TRK field names: changing another slot beforehand
changes nothing but that slot afterwards. -/
def Obligations.OtherSlotsNeitherReadNorWritten : Prop :=
  ∀ (i : Instr) (s s' : State) (u : Nat) (x : Track),
    (∀ t, i = .trkCfg t ∨ i = .trkFree t ∨ i = .trkSetcc t ∨ i = .trkRead t ∨ (∃ fp, i = .packetize t fp) → t ≠ u) →
    exec i s = .next s' →
    s'.trk u = s.trk u ∧
    exec i { s with trks := s.trks.set u x } = .next { s' with trks := s'.trks.set u x }

/-- R43: no step's effect but a TRK_READ's TRKR depends on a stream type: two states that differ only in stream types,
in TRKR and in earlier responses still do so after a step, and the host receives the same response from both unless it
reads TRKR. -/
def Obligations.StreamTypeReachesOnlyTrkr : Prop :=
  ∀ s s2 s' : State, s2.withoutSt = s.withoutSt → step s = .next s' →
    ∃ s2', step s2 = .next s2' ∧ s2'.withoutSt = s'.withoutSt ∧
      ((∀ r, s.inputs ≠ .host (.rd 32 0x28) :: r) → (∀ acc r, s.inputs ≠ .bus acc :: r) →
        s2'.results.drop s2.results.length = s'.results.drop s.results.length)

/-! ### Whole-machine rules of the state -/

/-- R90: the events that change a slot's counter, each with its new value: block reset, TRK_CFG, TRK_SETCC and TRK_FREE
that succeed on that slot, and the emission of a packet of that slot, which carries the new value; and no other. -/
def Obligations.CounterTransitions : Prop :=
  ∀ (s s' : State) (t : Nat), s.trks.length = s.params.nTracks → t < s.params.nTracks → step s = .next s' →
    ((∃ r, s.inputs = .reset :: r) → (s'.trk t).cc = 0#4) ∧
    (s.engineNext → s.eng.phase = .start → s'.regs.err = .ok →
      (decode s.eng.cmd = .instr (.trkCfg t) → (s'.trk t).cc.toNat = s.params.ccInit % 16) ∧
      (decode s.eng.cmd = .instr (.trkSetcc t) → (s'.trk t).cc.toNat = s.eng.a0.toNat % 16) ∧
      (decode s.eng.cmd = .instr (.trkFree t) → (s'.trk t).cc = 0#4)) ∧
    (s.engineNext → s'.out ≠ s.out →
      ((s.eng.phase = .start ∧ ∃ fp, decode s.eng.cmd = .instr (.packetize t fp)) ∨
        (s.eng.phase = .run ∧ s.eng.t = t)) →
      (s'.trk t).cc.toNat = ((s.trk t).cc.toNat + 1) % 16 ∧
      ∃ p, s'.out = s.out ++ [p] ∧ (p.getD 3 0#8).toNat % 16 = (s'.trk t).cc.toNat) ∧
    ((s'.trk t).cc ≠ (s.trk t).cc →
      (∃ r, s.inputs = .reset :: r) ∨
      (s.engineNext ∧ s.eng.phase = .start ∧ s'.regs.err = .ok ∧
        (decode s.eng.cmd = .instr (.trkCfg t) ∨ decode s.eng.cmd = .instr (.trkSetcc t) ∨
          decode s.eng.cmd = .instr (.trkFree t))) ∨
      (s.engineNext ∧ s'.out ≠ s.out ∧
        ((s.eng.phase = .start ∧ ∃ fp, decode s.eng.cmd = .instr (.packetize t fp)) ∨
          (s.eng.phase = .run ∧ s.eng.t = t))))

/-- R42: while a slot is live its PID and ST do not change; no step writes them but a TRK_CFG on an invalid slot, a
TRK_FREE, and reset; and the counter never exceeds 15. -/
def Obligations.LiveTrackIdentityIsImmutable : Prop :=
  ∀ (s s' : State) (t : Nat), s.trks.length = s.params.nTracks → step s = .next s' →
    ((s.trk t).valid = true → (s'.trk t).valid = true →
      (s'.trk t).pid = (s.trk t).pid ∧ (s'.trk t).st = (s.trk t).st) ∧
    (s'.trk t).cc.toNat ≤ 15 ∧
    ((s'.trk t).pid ≠ (s.trk t).pid ∨ (s'.trk t).st ≠ (s.trk t).st →
      (∃ r, s.inputs = .reset :: r) ∨
      (s.engineNext ∧ s.eng.phase = .start ∧
        ((decode s.eng.cmd = .instr (.trkCfg t) ∧ (s.trk t).valid = false) ∨
          decode s.eng.cmd = .instr (.trkFree t))))

/-- R49: OUT is empty at model start and only grows, by whole packets of 188 bytes, at most one a step, and only at an engine step of a PACKETIZE. -/
def Obligations.OutOnlyGrowsByWholePackets : Prop :=
  (∀ p : Params, (State.resetOf p).out = []) ∧
  ∀ s s' : State, step s = .next s' →
    s'.out = s.out ∨
    ((∃ p, s'.out = s.out ++ [p] ∧ p.length = 188) ∧ s.engineNext ∧
      (s.eng.phase = .run ∨ (s.eng.phase = .start ∧ ∃ t fp, decode s.eng.cmd = .instr (.packetize t fp))))

/-- R50: the fault flags are false at model start and never cleared, by reset or by any step. -/
def Obligations.FaultFlagsNeverCleared : Prop :=
  (∀ p : Params, (State.resetOf p).faultHaz = false ∧ (State.resetOf p).faultUninit = false) ∧
  ∀ s s' : State, step s = .next s' →
    (s.faultHaz = true → s'.faultHaz = true) ∧ (s.faultUninit = true → s'.faultUninit = true)

/-- OVR is set only by a CMD write while BUSY, and cleared only by a STATUS write with bit 1 set, or by reset (R26); the
write may come as a transaction or as an access on the host's bus that is one (log 9). -/
def Obligations.OverrunFlagTransitions : Prop :=
  ∀ s s' : State, step s = .next s' →
    let hostDoes := fun op => (∃ r, s.inputs = .host op :: r) ∨
      ∃ acc r, s.inputs = .bus acc :: r ∧ busDecode s.params acc = some op
    (s.regs.ovr = false → s'.regs.ovr = true → s.eng.phase ≠ .idle ∧ ∃ v, hostDoes (.wr 32 0x04 v)) ∧
    (s.regs.ovr = true → s'.regs.ovr = false →
      (∃ v, hostDoes (.wr 32 0x08 v) ∧ v.getLsbD 1 = true) ∨ ∃ r, s.inputs = .reset :: r)

/-- R27, R28 and the last sentence of R21: ERR, LOPC and the result registers change only at the engine step that
completes a command, and at reset. -/
def Obligations.ResultsChangeOnlyAtCompletion : Prop :=
  ∀ s s' : State, step s = .next s' → (∀ r, s.inputs ≠ .reset :: r) →
    ¬ (s.engineNext ∧ s.eng.phase ≠ .idle ∧ s'.eng.phase = .idle) →
    s'.regs.err = s.regs.err ∧ s'.regs.lopc = s.regs.lopc ∧ s'.regs.hdrw = s.regs.hdrw ∧
    s'.regs.hdrx = s.regs.hdrx ∧ s'.regs.afr = s.regs.afr ∧ s'.regs.afc = s.regs.afc ∧
    s'.regs.plr = s.regs.plr ∧ s'.regs.trkr = s.regs.trkr ∧ s'.regs.pktn = s.regs.pktn

/-- No step changes the instance's parameters (00_scope.md R10: fixed for an instance; log 1), and the engine never
writes ARG0 or ARG1 (10_state.md R20). -/
def Obligations.ParametersAndArgumentsKept : Prop :=
  ∀ s s' : State, step s = .next s' →
    s'.params = s.params ∧
    (s.engineNext → s'.regs.arg0 = s.regs.arg0 ∧ s'.regs.arg1 = s.regs.arg1 ∧ s'.regs.cmd = s.regs.cmd ∧
      s'.regs.ovr = s.regs.ovr)

/-! ### The host's transactions -/

/-- R122 and R123: a CMD write is accepted while the engine is idle and latches the word and both operands; otherwise it
is dropped and sets OVR. -/
def Obligations.CmdWriteStartsOrDrops : Prop :=
  ∀ (s : State) (v : Word),
    (s.eng.phase = .idle → hostStep (.wr 32 0x04 v) s =
      { s with
        regs := { s.regs with cmd := v }
        eng := { s.eng with phase := .start, cmd := v, a0 := s.regs.arg0, a1 := s.regs.arg1 }
        results := s.results ++ [.done] }) ∧
    (s.eng.phase ≠ .idle → hostStep (.wr 32 0x04 v) s =
      { s with regs := { s.regs with ovr := true }, results := s.results ++ [.done] })

/-- R124 and R125: a STATUS write clears OVR where bit 1 is set and changes nothing else; ARG writes store all 32 bits,
and the latches of a command in progress are not touched. -/
def Obligations.StatusAndArgumentWrites : Prop :=
  ∀ (s : State) (v : Word),
    (v.getLsbD 1 = true → hostStep (.wr 32 0x08 v) s =
      { s with regs := { s.regs with ovr := false }, results := s.results ++ [.done] }) ∧
    (v.getLsbD 1 = false → hostStep (.wr 32 0x08 v) s = { s with results := s.results ++ [.done] }) ∧
    hostStep (.wr 32 0x0C v) s =
      { s with regs := { s.regs with arg0 := v }, results := s.results ++ [.done] } ∧
    hostStep (.wr 32 0x10 v) s =
      { s with regs := { s.regs with arg1 := v }, results := s.results ++ [.done] }

/-- R126: a write to a read-only register or a reserved offset is ignored, without a bus error. -/
def Obligations.ReadOnlyWritesIgnored : Prop :=
  ∀ (s : State) (v : Word) (o : Nat),
    o ∈ [0x00, 0x14, 0x18, 0x1C, 0x20, 0x24, 0x28, 0x2C, 0x30, 0x34, 0x38, 0x3C] →
    hostStep (.wr 32 o v) s = { s with results := s.results ++ [.done] }

/-- R120: what a read of each register returns; a read changes no state of the block. -/
def Obligations.RegisterReads : Prop :=
  ∀ (s : State) (o : Nat) (v : Word),
    (o, v) ∈ [(0x00, 0x54534601#32), (0x04, s.regs.cmd),
      (0x08, BitVec.ofNat 32 (2 ^ 8 * s.regs.lopc.toNat + 2 ^ 4 * s.regs.err.code.toNat + 2 * s.regs.ovr.toNat
        + (if s.eng.phase = .idle then 0 else 1))),
      (0x0C, s.regs.arg0), (0x10, s.regs.arg1), (0x14, s.regs.hdrw), (0x18, s.regs.hdrx), (0x1C, s.regs.afr),
      (0x20, s.regs.afc), (0x24, s.regs.plr), (0x28, s.regs.trkr), (0x2C, s.regs.pktn),
      (0x30, BitVec.ofNat 32 s.params.nTracks), (0x34, BitVec.ofNat 32 s.params.bufBytes), (0x38, 0#32),
      (0x3C, 0#32)] →
    hostStep (.rd 32 o) s = { s with results := s.results ++ [.word v] }

/-- R129, with the conditions of R54 and R56: a rejected transaction returns an error response and changes no state of
the block. -/
def Obligations.BusErrorsChangeNothing : Prop :=
  ∀ (s : State) (width x : Nat) (v : Word) (b : Byte),
    (0x40 ≤ x ∨ x % 4 ≠ 0 ∨ width ≠ 32 →
      hostStep (.rd width x) s = { s with results := s.results ++ [.busError] } ∧
      hostStep (.wr width x v) s = { s with results := s.results ++ [.busError] }) ∧
    (s.params.bufBytes ≤ x ∨ width ≠ 8 →
      hostStep (.rdb width x) s = { s with results := s.results ++ [.busError] } ∧
      hostStep (.wrb width x b) s = { s with results := s.results ++ [.busError] })

/-- The code values of 60_exceptions.md R132: 0 to 10 in the table's order, one for each name, and none above 10. -/
def Obligations.ErrorCodeValues : Prop :=
  [ErrCode.ok, .wrongSize, .malformedHeader, .truncatedAf, .inconsistentAfLen, .afZeroLen, .pidRange, .badTrack, .range,
    .badArg, .illegalCmd].map (fun c => c.code.toNat) = List.range 11 ∧
  (∀ c : ErrCode, c.code.toNat ≤ 10) ∧
  ∀ c d : ErrCode, c.code = d.code → c = d

/-- R127: a BUF read returns the byte, or a free byte with fault_uninit set where it is unwritten, and sets fault_haz
where it is a hazard. The draw counter is the model's (log 5). -/
def Obligations.BufByteRead : Prop :=
  ∀ (s : State) (a : Nat), a < s.params.bufBytes →
    (∀ v, s.buf.read a = some v → hostStep (.rdb 8 a) s =
      { s with faultHaz := s.faultHaz || s.hazardRead a, results := s.results ++ [.byte v] }) ∧
    (s.buf.read a = none → hostStep (.rdb 8 a) s =
      { s with faultUninit := true, faultHaz := s.faultHaz || s.hazardRead a, draws := s.draws + 1,
               results := s.results ++ [.byte (Config.freeByte s.draws)] })

/-- R128: a BUF write stores the byte and no other, and sets fault_haz where it is a hazard. -/
def Obligations.BufByteWrite : Prop :=
  ∀ (s : State) (a : Nat) (v : Byte), a < s.params.bufBytes →
    ∃ m : Memory, hostStep (.wrb 8 a v) s =
        { s with buf := m, faultHaz := s.faultHaz || s.hazardWrite a, results := s.results ++ [.done] } ∧
      (s.buf.wf → m.wf) ∧ ∀ b, m.read b = if b = a then some v else s.buf.read b

/-- R155: the footprint of the command in progress, which accesses are hazards, and that a hazard sets fault_haz. -/
def Obligations.FootprintHazards : Prop :=
  ∀ (s : State) (a : Nat),
    let a0 := s.eng.a0.toNat
    let a1 := s.eng.a1.toNat
    (s.eng.phase = .idle → s.hazardWrite a = false ∧ s.hazardRead a = false) ∧
    (s.eng.phase ≠ .idle → ∀ d, decode s.eng.cmd = d →
      (∀ t fp, d = .instr (.packetize t fp) →
        (s.hazardWrite a = true ↔ a0 ≤ a ∧ a < a0 + a1) ∧ s.hazardRead a = false) ∧
      (d = .instr .parse →
        (s.hazardWrite a = true ↔ a1 = 188 ∧ a0 ≤ a ∧ a < a0 + 188) ∧ s.hazardRead a = false) ∧
      (d = .instr .afDec → (s.hazardWrite a = true ↔ a0 ≤ a ∧ a < a0 + a1) ∧ s.hazardRead a = false) ∧
      (d = .instr .afEnc →
        (s.hazardWrite a = true ↔ a0 ≤ 254 ∧ a1 ≤ a ∧ a < a1 + 2 + a0) ∧
        (s.hazardRead a = true ↔ a0 ≤ 254 ∧ a1 ≤ a ∧ a < a1 + 2 + a0)) ∧
      ((∀ t fp, d ≠ .instr (.packetize t fp)) → d ≠ .instr .parse → d ≠ .instr .afDec → d ≠ .instr .afEnc →
        s.hazardWrite a = false ∧ s.hazardRead a = false)) ∧
    (a < s.params.bufBytes →
      (s.hazardWrite a = true → ∀ v, (hostStep (.wrb 8 a v) s).faultHaz = true) ∧
      (s.hazardRead a = true → (hostStep (.rdb 8 a) s).faultHaz = true))

/-- R131 and R69: during the BUSY window no host transaction touches the command in progress, the track table, OUT, ERR,
LOPC or a result register. -/
def Obligations.HostLeavesRunningCommandAlone : Prop :=
  ∀ (s : State) (op : HostOp), s.eng.phase ≠ .idle →
    (hostStep op s).eng = s.eng ∧ (hostStep op s).trks = s.trks ∧ (hostStep op s).out = s.out ∧
    (hostStep op s).params = s.params ∧ (hostStep op s).inputs = s.inputs ∧
    (hostStep op s).regs = { s.regs with
      ovr := (hostStep op s).regs.ovr, arg0 := (hostStep op s).regs.arg0, arg1 := (hostStep op s).regs.arg1 }

/-- The platform's address map (20_memory.md R62; the window is looked up first, log 9): a host address inside the
register window or inside BUF reaches its offset there, and any other address is no access to the block. -/
def Obligations.BusAccessDecodes : Prop :=
  ∀ (p : Params) (width x : Nat) (v : Word),
    (x < 0x40 → busDecode p ⟨p.regBase + x, width, none⟩ = some (.rd width x) ∧
      busDecode p ⟨p.regBase + x, width, some v⟩ = some (.wr width x v)) ∧
    (x < p.bufBytes → (p.regBase + 0x40 ≤ p.bufBase ∨ p.bufBase + p.bufBytes ≤ p.regBase) →
      busDecode p ⟨p.bufBase + x, width, none⟩ = some (.rdb width x) ∧
      busDecode p ⟨p.bufBase + x, width, some v⟩ = some (.wrb width x (v.extractLsb' 0 8))) ∧
    (∀ acc : BusAccess, (acc.addr < p.regBase ∨ p.regBase + 0x40 ≤ acc.addr) →
      (acc.addr < p.bufBase ∨ p.bufBase + p.bufBytes ≤ acc.addr) → busDecode p acc = none)

/-! ### Reset, invariants, termination -/

/-- R148: the reset step sets every piece of state to R51's value, also in the middle of a command; OUT and the fault flags
are unchanged, and STATUS reads 0. -/
def Obligations.ResetSetsEveryValue : Prop :=
  ∀ (s : State) (rest : List Event), s.inputs = .reset :: rest →
    ∃ s', step s = .next s' ∧ s'.cleanReset ∧
      s'.regs = { cmd := 0#32, ovr := false, err := .ok, lopc := 0#4, arg0 := 0#32, arg1 := 0#32, hdrw := 0#32,
                  hdrx := 0#32, afr := 0#32, afc := 0#32, plr := 0#32, trkr := 0#32, pktn := 0#32 } ∧
      s'.eng = { phase := .idle, cmd := 0#32, a0 := 0#32, a1 := 0#32, t := 0, src := 0, len := 0, n := 0, i := 0 } ∧
      s'.trks.length = s.params.nTracks ∧
      (∀ t, t < s.params.nTracks → s'.trk t = { valid := false, pid := 0#13, st := 0#8, cc := 0#4 }) ∧
      s'.statusWord = 0#32 ∧ (∀ a, s'.buf.read a = none) ∧ s'.out = s.out ∧ s'.faultHaz = s.faultHaz ∧
      s'.faultUninit = s.faultUninit ∧ s'.params = s.params

/-- The invariant holds at model start, for every instance with legal parameters (R51). -/
def Obligations.InvHoldsAtReset : Prop :=
  ∀ p : Params, p.Legal → (State.resetOf p).Inv

/-- Every step keeps the invariant: the parameters legal, the track table of N_TRACKS slots with dead slots zero, BUF
canonical and inside its range, packets of 188 bytes, CMD reading back the engine's command, the progress state of R46,
reserved fields zero and the result registers in their ranges. -/
def Obligations.InvKeptByEveryStep : Prop :=
  ∀ s s' : State, s.Inv → step s = .next s' → s'.Inv

/-- In every state that keeps the invariant a step answers a next state: the block never stops, whatever the host does. -/
def Obligations.StepNeverStopsUnderInv : Prop :=
  ∀ s : State, s.Inv → ∃ s', step s = .next s'

/-- R159 and R160, for an engine with no other event pending: an accepted command completes within one engine step, a
PACKETIZE within ceil(L/182) of them. -/
def Obligations.AcceptedCommandCompletes : Prop :=
  ∀ s : State, s.Inv → s.inputs = [] → s.eng.phase ≠ .idle →
    ∃ k s', 1 ≤ k ∧ k ≤ max 1 ((s.eng.a1.toNat + 181) / 182) ∧ runSteps k s = .next s' ∧
      s'.eng.phase = .idle ∧
      ((∀ t fp, decode s.eng.cmd ≠ .instr (.packetize t fp)) → k = 1) ∧
      ∀ j sj, 1 ≤ j → j < k → runSteps j s = .next sj → sj.eng.phase = .run
end

