-- ==== Sys2Proof/Laws/Memory.lean ====
section
/-! SUPPORT. BUF as a list of written bytes: reading after writing, and the canonical form kept by every memory
operation. -/

namespace Sys2Proof.Machine

@[simp] theorem Memory.read_nil (a : Nat) : Memory.read [] a = none := rfl

theorem Memory.read_cons (c : Host.Cell) (m : Memory) (a : Nat) :
    Memory.read (c :: m) a = if c.1 = a then some c.2 else Memory.read m a := rfl

/-- A read after a write: the byte written at its address, every other address as before. -/
theorem Memory.read_write (m : Memory) (a : Nat) (v : Byte) (b : Nat) :
    (m.write a v).read b = if b = a then some v else m.read b := by
  induction m with
  | nil => simp only [Memory.write, Memory.read_cons, Memory.read_nil, eq_comm]
  | cons c m ih =>
    simp only [Memory.write]
    split
    · simp only [Memory.read_cons, eq_comm]
    · split
      · next h => subst h; simp only [Memory.read_cons]; split <;> simp_all [eq_comm]
      · simp only [Memory.read_cons, ih]; split <;> split <;> simp_all

/-- The addresses of a memory after a write. -/
theorem Memory.mem_write {m : Memory} {a : Nat} {v : Byte} {c : Host.Cell} (h : c ∈ m.write a v) :
    c = (a, v) ∨ c ∈ m := by
  induction m with
  | nil => simpa [Memory.write] using h
  | cons d m ih =>
    simp only [Memory.write] at h
    split at h
    · simpa using h
    · split at h
      · simp only [List.mem_cons] at h ⊢; tauto
      · simp only [List.mem_cons] at h ⊢
        rcases h with h | h
        · exact .inr (.inl h)
        · exact (ih h).imp id .inr

/-- A write keeps the canonical form. -/
theorem Memory.wf_write {m : Memory} (h : m.wf) (a : Nat) (v : Byte) : (m.write a v).wf := by
  induction m with
  | nil => simp [Memory.write, Memory.wf]
  | cons c m ih =>
    simp only [Memory.wf, List.pairwise_cons] at h
    obtain ⟨hc, hm⟩ := h
    simp only [Memory.write, Memory.wf]
    split
    · next hlt =>
      simp only [List.pairwise_cons]
      refine ⟨fun x hx => ?_, hc, hm⟩
      rcases List.mem_cons.1 hx with rfl | hx
      · exact hlt
      · exact Nat.lt_trans hlt (hc x hx)
    · split
      · next heq => simp only [List.pairwise_cons]; exact ⟨fun x hx => heq ▸ hc x hx, hm⟩
      · simp only [List.pairwise_cons]
        refine ⟨fun x hx => ?_, ih hm⟩
        rcases Memory.mem_write hx with rfl | hx
        · exact Nat.lt_of_le_of_ne (Nat.le_of_not_lt ‹_›) (Ne.symm ‹_›)
        · exact hc x hx

/-- Canonical memories that read the same everywhere are the same list. -/
theorem Memory.ext_of_wf {m m' : Memory} (h : m.wf) (h' : m'.wf) (e : ∀ a, m.read a = m'.read a) : m = m' := by
  have low : ∀ (m : Memory) (a : Nat), (∀ x ∈ m, a < x.1) → m.read a = none := by
    intro m a hm
    induction m with
    | nil => rfl
    | cons c m ih =>
      have hc := hm c (by simp)
      rw [Memory.read_cons, if_neg (by omega)]
      exact ih fun x hx => hm x (by simp [hx])
  induction m generalizing m' with
  | nil =>
    cases m' with
    | nil => rfl
    | cons d m' => have := e d.1; simp [Memory.read_cons] at this
  | cons c m ih =>
    cases m' with
    | nil => have := e c.1; simp [Memory.read_cons] at this
    | cons d m' =>
      simp only [Memory.wf, List.pairwise_cons] at h h'
      have hd : c.1 = d.1 := by
        rcases Nat.lt_trichotomy c.1 d.1 with hlt | heq | hlt
        · have := e c.1
          rw [Memory.read_cons, if_pos rfl, Memory.read_cons, if_neg (by omega),
            low m' c.1 (fun x hx => Nat.lt_trans hlt (h'.1 x hx))] at this
          cases this
        · exact heq
        · have := e d.1
          rw [Memory.read_cons, if_neg (by omega), Memory.read_cons, if_pos rfl,
            low m d.1 (fun x hx => Nat.lt_trans hlt (h.1 x hx))] at this
          cases this
      have hv : c.2 = d.2 := by
        have := e c.1
        rw [Memory.read_cons, if_pos rfl, Memory.read_cons, if_pos hd.symm] at this
        exact Option.some.inj this
      have hcd : c = d := Prod.ext hd hv
      subst hcd
      congr 1
      refine ih h.2 h'.2 fun a => ?_
      by_cases ha : c.1 = a
      · subst ha; rw [low m _ h.1, low m' _ h'.1]
      · have := e a
        rwa [Memory.read_cons, if_neg ha, Memory.read_cons, if_neg ha] at this

/-- A read that finds a byte finds it among the listed cells. -/
theorem Memory.mem_of_read {m : Memory} {a : Nat} {v : Byte} (h : m.read a = some v) : (a, v) ∈ m := by
  induction m with
  | nil => cases h
  | cons c m ih =>
    rw [Memory.read_cons] at h
    split at h
    · next hc => cases h; subst hc; simp
    · exact List.mem_cons_of_mem _ (ih h)

end Sys2Proof.Machine
end

