-- ==== Sys2Proof/Laws/State.lean ====
section
/-! SUPPORT. One lemma per field of State and update of it, each true by rfl, so that no proof unfolds a record
update. -/

namespace Sys2Proof.Machine

variable (s : State)

/-! ### State.complete -/

@[simp] theorem State.complete_params (c : ErrCode) : (s.complete c).params = s.params := rfl
@[simp] theorem State.complete_regs (c : ErrCode) :
    (s.complete c).regs = { s.regs with err := c, lopc := opcField s.eng.cmd } := rfl
@[simp] theorem State.complete_trks (c : ErrCode) : (s.complete c).trks = s.trks := rfl
@[simp] theorem State.complete_eng (c : ErrCode) : (s.complete c).eng = { s.eng with phase := .idle } := rfl
@[simp] theorem State.complete_buf (c : ErrCode) : (s.complete c).buf = s.buf := rfl
@[simp] theorem State.complete_out (c : ErrCode) : (s.complete c).out = s.out := rfl
@[simp] theorem State.complete_faultHaz (c : ErrCode) : (s.complete c).faultHaz = s.faultHaz := rfl
@[simp] theorem State.complete_faultUninit (c : ErrCode) : (s.complete c).faultUninit = s.faultUninit := rfl
@[simp] theorem State.complete_inputs (c : ErrCode) : (s.complete c).inputs = s.inputs := rfl
@[simp] theorem State.complete_results (c : ErrCode) : (s.complete c).results = s.results := rfl
@[simp] theorem State.complete_draws (c : ErrCode) : (s.complete c).draws = s.draws := rfl

/-! ### State.putTrk -/

@[simp] theorem State.putTrk_params (t : Nat) (x : Track) : (s.putTrk t x).params = s.params := rfl
@[simp] theorem State.putTrk_regs (t : Nat) (x : Track) : (s.putTrk t x).regs = s.regs := rfl
@[simp] theorem State.putTrk_trks (t : Nat) (x : Track) : (s.putTrk t x).trks = s.trks.set t x := rfl
@[simp] theorem State.putTrk_eng (t : Nat) (x : Track) : (s.putTrk t x).eng = s.eng := rfl
@[simp] theorem State.putTrk_buf (t : Nat) (x : Track) : (s.putTrk t x).buf = s.buf := rfl
@[simp] theorem State.putTrk_out (t : Nat) (x : Track) : (s.putTrk t x).out = s.out := rfl
@[simp] theorem State.putTrk_faultHaz (t : Nat) (x : Track) : (s.putTrk t x).faultHaz = s.faultHaz := rfl
@[simp] theorem State.putTrk_faultUninit (t : Nat) (x : Track) : (s.putTrk t x).faultUninit = s.faultUninit := rfl
@[simp] theorem State.putTrk_inputs (t : Nat) (x : Track) : (s.putTrk t x).inputs = s.inputs := rfl
@[simp] theorem State.putTrk_results (t : Nat) (x : Track) : (s.putTrk t x).results = s.results := rfl
@[simp] theorem State.putTrk_draws (t : Nat) (x : Track) : (s.putTrk t x).draws = s.draws := rfl

/-! ### State.emit -/

@[simp] theorem State.emit_params (p : List Byte) : (s.emit p).params = s.params := rfl
@[simp] theorem State.emit_regs (p : List Byte) : (s.emit p).regs = s.regs := rfl
@[simp] theorem State.emit_trks (p : List Byte) : (s.emit p).trks = s.trks := rfl
@[simp] theorem State.emit_eng (p : List Byte) : (s.emit p).eng = s.eng := rfl
@[simp] theorem State.emit_buf (p : List Byte) : (s.emit p).buf = s.buf := rfl
@[simp] theorem State.emit_out (p : List Byte) : (s.emit p).out = s.out ++ [p] := rfl
@[simp] theorem State.emit_faultHaz (p : List Byte) : (s.emit p).faultHaz = s.faultHaz := rfl
@[simp] theorem State.emit_faultUninit (p : List Byte) : (s.emit p).faultUninit = s.faultUninit := rfl
@[simp] theorem State.emit_inputs (p : List Byte) : (s.emit p).inputs = s.inputs := rfl
@[simp] theorem State.emit_results (p : List Byte) : (s.emit p).results = s.results := rfl
@[simp] theorem State.emit_draws (p : List Byte) : (s.emit p).draws = s.draws := rfl

/-! ### State.putHeader -/

@[simp] theorem State.putHeader_params (w : Word) (b : Bool) : (s.putHeader w b).params = s.params := rfl
@[simp] theorem State.putHeader_regs (w : Word) (b : Bool) :
    (s.putHeader w b).regs = { s.regs with hdrw := w, hdrx := (BitVec.ofBool b).setWidth 32 } := rfl
@[simp] theorem State.putHeader_trks (w : Word) (b : Bool) : (s.putHeader w b).trks = s.trks := rfl
@[simp] theorem State.putHeader_eng (w : Word) (b : Bool) : (s.putHeader w b).eng = s.eng := rfl
@[simp] theorem State.putHeader_buf (w : Word) (b : Bool) : (s.putHeader w b).buf = s.buf := rfl
@[simp] theorem State.putHeader_out (w : Word) (b : Bool) : (s.putHeader w b).out = s.out := rfl
@[simp] theorem State.putHeader_faultHaz (w : Word) (b : Bool) : (s.putHeader w b).faultHaz = s.faultHaz := rfl
@[simp] theorem State.putHeader_faultUninit (w : Word) (b : Bool) : (s.putHeader w b).faultUninit = s.faultUninit := rfl
@[simp] theorem State.putHeader_inputs (w : Word) (b : Bool) : (s.putHeader w b).inputs = s.inputs := rfl
@[simp] theorem State.putHeader_results (w : Word) (b : Bool) : (s.putHeader w b).results = s.results := rfl
@[simp] theorem State.putHeader_draws (w : Word) (b : Bool) : (s.putHeader w b).draws = s.draws := rfl

/-! ### State.putAf -/

@[simp] theorem State.putAf_params (v w : Word) : (s.putAf v w).params = s.params := rfl
@[simp] theorem State.putAf_regs (v w : Word) : (s.putAf v w).regs = { s.regs with afr := v, afc := w } := rfl
@[simp] theorem State.putAf_trks (v w : Word) : (s.putAf v w).trks = s.trks := rfl
@[simp] theorem State.putAf_eng (v w : Word) : (s.putAf v w).eng = s.eng := rfl
@[simp] theorem State.putAf_buf (v w : Word) : (s.putAf v w).buf = s.buf := rfl
@[simp] theorem State.putAf_out (v w : Word) : (s.putAf v w).out = s.out := rfl
@[simp] theorem State.putAf_faultHaz (v w : Word) : (s.putAf v w).faultHaz = s.faultHaz := rfl
@[simp] theorem State.putAf_faultUninit (v w : Word) : (s.putAf v w).faultUninit = s.faultUninit := rfl
@[simp] theorem State.putAf_inputs (v w : Word) : (s.putAf v w).inputs = s.inputs := rfl
@[simp] theorem State.putAf_results (v w : Word) : (s.putAf v w).results = s.results := rfl
@[simp] theorem State.putAf_draws (v w : Word) : (s.putAf v w).draws = s.draws := rfl

/-! ### State.putPlr -/

@[simp] theorem State.putPlr_params (v : Word) : (s.putPlr v).params = s.params := rfl
@[simp] theorem State.putPlr_regs (v : Word) : (s.putPlr v).regs = { s.regs with plr := v } := rfl
@[simp] theorem State.putPlr_trks (v : Word) : (s.putPlr v).trks = s.trks := rfl
@[simp] theorem State.putPlr_eng (v : Word) : (s.putPlr v).eng = s.eng := rfl
@[simp] theorem State.putPlr_buf (v : Word) : (s.putPlr v).buf = s.buf := rfl
@[simp] theorem State.putPlr_out (v : Word) : (s.putPlr v).out = s.out := rfl
@[simp] theorem State.putPlr_faultHaz (v : Word) : (s.putPlr v).faultHaz = s.faultHaz := rfl
@[simp] theorem State.putPlr_faultUninit (v : Word) : (s.putPlr v).faultUninit = s.faultUninit := rfl
@[simp] theorem State.putPlr_inputs (v : Word) : (s.putPlr v).inputs = s.inputs := rfl
@[simp] theorem State.putPlr_results (v : Word) : (s.putPlr v).results = s.results := rfl
@[simp] theorem State.putPlr_draws (v : Word) : (s.putPlr v).draws = s.draws := rfl

/-! ### State.putTrkr -/

@[simp] theorem State.putTrkr_params (v : Word) : (s.putTrkr v).params = s.params := rfl
@[simp] theorem State.putTrkr_regs (v : Word) : (s.putTrkr v).regs = { s.regs with trkr := v } := rfl
@[simp] theorem State.putTrkr_trks (v : Word) : (s.putTrkr v).trks = s.trks := rfl
@[simp] theorem State.putTrkr_eng (v : Word) : (s.putTrkr v).eng = s.eng := rfl
@[simp] theorem State.putTrkr_buf (v : Word) : (s.putTrkr v).buf = s.buf := rfl
@[simp] theorem State.putTrkr_out (v : Word) : (s.putTrkr v).out = s.out := rfl
@[simp] theorem State.putTrkr_faultHaz (v : Word) : (s.putTrkr v).faultHaz = s.faultHaz := rfl
@[simp] theorem State.putTrkr_faultUninit (v : Word) : (s.putTrkr v).faultUninit = s.faultUninit := rfl
@[simp] theorem State.putTrkr_inputs (v : Word) : (s.putTrkr v).inputs = s.inputs := rfl
@[simp] theorem State.putTrkr_results (v : Word) : (s.putTrkr v).results = s.results := rfl
@[simp] theorem State.putTrkr_draws (v : Word) : (s.putTrkr v).draws = s.draws := rfl

/-! ### State.putPktn -/

@[simp] theorem State.putPktn_params (n : Nat) : (s.putPktn n).params = s.params := rfl
@[simp] theorem State.putPktn_regs (n : Nat) : (s.putPktn n).regs = { s.regs with pktn := BitVec.ofNat 32 n } := rfl
@[simp] theorem State.putPktn_trks (n : Nat) : (s.putPktn n).trks = s.trks := rfl
@[simp] theorem State.putPktn_eng (n : Nat) : (s.putPktn n).eng = s.eng := rfl
@[simp] theorem State.putPktn_buf (n : Nat) : (s.putPktn n).buf = s.buf := rfl
@[simp] theorem State.putPktn_out (n : Nat) : (s.putPktn n).out = s.out := rfl
@[simp] theorem State.putPktn_faultHaz (n : Nat) : (s.putPktn n).faultHaz = s.faultHaz := rfl
@[simp] theorem State.putPktn_faultUninit (n : Nat) : (s.putPktn n).faultUninit = s.faultUninit := rfl
@[simp] theorem State.putPktn_inputs (n : Nat) : (s.putPktn n).inputs = s.inputs := rfl
@[simp] theorem State.putPktn_results (n : Nat) : (s.putPktn n).results = s.results := rfl
@[simp] theorem State.putPktn_draws (n : Nat) : (s.putPktn n).draws = s.draws := rfl

/-! ### State.bufWrite -/

@[simp] theorem State.bufWrite_params (a : Nat) (v : Byte) : (s.bufWrite a v).params = s.params := rfl
@[simp] theorem State.bufWrite_regs (a : Nat) (v : Byte) : (s.bufWrite a v).regs = s.regs := rfl
@[simp] theorem State.bufWrite_trks (a : Nat) (v : Byte) : (s.bufWrite a v).trks = s.trks := rfl
@[simp] theorem State.bufWrite_eng (a : Nat) (v : Byte) : (s.bufWrite a v).eng = s.eng := rfl
@[simp] theorem State.bufWrite_buf (a : Nat) (v : Byte) : (s.bufWrite a v).buf = s.buf.write a v := rfl
@[simp] theorem State.bufWrite_out (a : Nat) (v : Byte) : (s.bufWrite a v).out = s.out := rfl
@[simp] theorem State.bufWrite_faultHaz (a : Nat) (v : Byte) : (s.bufWrite a v).faultHaz = s.faultHaz := rfl
@[simp] theorem State.bufWrite_faultUninit (a : Nat) (v : Byte) : (s.bufWrite a v).faultUninit = s.faultUninit := rfl
@[simp] theorem State.bufWrite_inputs (a : Nat) (v : Byte) : (s.bufWrite a v).inputs = s.inputs := rfl
@[simp] theorem State.bufWrite_results (a : Nat) (v : Byte) : (s.bufWrite a v).results = s.results := rfl
@[simp] theorem State.bufWrite_draws (a : Nat) (v : Byte) : (s.bufWrite a v).draws = s.draws := rfl

/-! ### State.startRun -/

@[simp] theorem State.startRun_params (t src len n : Nat) : (s.startRun t src len n).params = s.params := rfl
@[simp] theorem State.startRun_regs (t src len n : Nat) : (s.startRun t src len n).regs = s.regs := rfl
@[simp] theorem State.startRun_trks (t src len n : Nat) : (s.startRun t src len n).trks = s.trks := rfl
@[simp] theorem State.startRun_eng (t src len n : Nat) :
    (s.startRun t src len n).eng = { s.eng with phase := .run, t := t, src := src, len := len, n := n, i := 0 } := rfl
@[simp] theorem State.startRun_buf (t src len n : Nat) : (s.startRun t src len n).buf = s.buf := rfl
@[simp] theorem State.startRun_out (t src len n : Nat) : (s.startRun t src len n).out = s.out := rfl
@[simp] theorem State.startRun_faultHaz (t src len n : Nat) : (s.startRun t src len n).faultHaz = s.faultHaz := rfl
@[simp] theorem State.startRun_faultUninit (t src len n : Nat) :
    (s.startRun t src len n).faultUninit = s.faultUninit := rfl
@[simp] theorem State.startRun_inputs (t src len n : Nat) : (s.startRun t src len n).inputs = s.inputs := rfl
@[simp] theorem State.startRun_results (t src len n : Nat) : (s.startRun t src len n).results = s.results := rfl
@[simp] theorem State.startRun_draws (t src len n : Nat) : (s.startRun t src len n).draws = s.draws := rfl

/-! ### State.statusWrite -/

@[simp] theorem State.statusWrite_params (v : Word) : (s.statusWrite v).params = s.params := rfl
@[simp] theorem State.statusWrite_regs (v : Word) :
    (s.statusWrite v).regs = { s.regs with ovr := s.regs.ovr && !v.getLsbD 1 } := rfl
@[simp] theorem State.statusWrite_trks (v : Word) : (s.statusWrite v).trks = s.trks := rfl
@[simp] theorem State.statusWrite_eng (v : Word) : (s.statusWrite v).eng = s.eng := rfl
@[simp] theorem State.statusWrite_buf (v : Word) : (s.statusWrite v).buf = s.buf := rfl
@[simp] theorem State.statusWrite_out (v : Word) : (s.statusWrite v).out = s.out := rfl
@[simp] theorem State.statusWrite_faultHaz (v : Word) : (s.statusWrite v).faultHaz = s.faultHaz := rfl
@[simp] theorem State.statusWrite_faultUninit (v : Word) : (s.statusWrite v).faultUninit = s.faultUninit := rfl
@[simp] theorem State.statusWrite_inputs (v : Word) : (s.statusWrite v).inputs = s.inputs := rfl
@[simp] theorem State.statusWrite_results (v : Word) : (s.statusWrite v).results = s.results := rfl
@[simp] theorem State.statusWrite_draws (v : Word) : (s.statusWrite v).draws = s.draws := rfl

/-! ### State.rejectCmd -/

@[simp] theorem State.rejectCmd_params : s.rejectCmd.params = s.params := rfl
@[simp] theorem State.rejectCmd_regs : s.rejectCmd.regs = { s.regs with ovr := true } := rfl
@[simp] theorem State.rejectCmd_trks : s.rejectCmd.trks = s.trks := rfl
@[simp] theorem State.rejectCmd_eng : s.rejectCmd.eng = s.eng := rfl
@[simp] theorem State.rejectCmd_buf : s.rejectCmd.buf = s.buf := rfl
@[simp] theorem State.rejectCmd_out : s.rejectCmd.out = s.out := rfl
@[simp] theorem State.rejectCmd_faultHaz : s.rejectCmd.faultHaz = s.faultHaz := rfl
@[simp] theorem State.rejectCmd_faultUninit : s.rejectCmd.faultUninit = s.faultUninit := rfl
@[simp] theorem State.rejectCmd_inputs : s.rejectCmd.inputs = s.inputs := rfl
@[simp] theorem State.rejectCmd_results : s.rejectCmd.results = s.results := rfl
@[simp] theorem State.rejectCmd_draws : s.rejectCmd.draws = s.draws := rfl

/-! ### State.accept -/

@[simp] theorem State.accept_params (v : Word) : (s.accept v).params = s.params := rfl
@[simp] theorem State.accept_regs (v : Word) : (s.accept v).regs = { s.regs with cmd := v } := rfl
@[simp] theorem State.accept_trks (v : Word) : (s.accept v).trks = s.trks := rfl
@[simp] theorem State.accept_eng (v : Word) :
    (s.accept v).eng = { s.eng with phase := .start, cmd := v, a0 := s.regs.arg0, a1 := s.regs.arg1 } := rfl
@[simp] theorem State.accept_buf (v : Word) : (s.accept v).buf = s.buf := rfl
@[simp] theorem State.accept_out (v : Word) : (s.accept v).out = s.out := rfl
@[simp] theorem State.accept_faultHaz (v : Word) : (s.accept v).faultHaz = s.faultHaz := rfl
@[simp] theorem State.accept_faultUninit (v : Word) : (s.accept v).faultUninit = s.faultUninit := rfl
@[simp] theorem State.accept_inputs (v : Word) : (s.accept v).inputs = s.inputs := rfl
@[simp] theorem State.accept_results (v : Word) : (s.accept v).results = s.results := rfl
@[simp] theorem State.accept_draws (v : Word) : (s.accept v).draws = s.draws := rfl

/-! ### State.respond -/

@[simp] theorem State.respond_params (x : HostResult) : (s.respond x).params = s.params := rfl
@[simp] theorem State.respond_regs (x : HostResult) : (s.respond x).regs = s.regs := rfl
@[simp] theorem State.respond_trks (x : HostResult) : (s.respond x).trks = s.trks := rfl
@[simp] theorem State.respond_eng (x : HostResult) : (s.respond x).eng = s.eng := rfl
@[simp] theorem State.respond_buf (x : HostResult) : (s.respond x).buf = s.buf := rfl
@[simp] theorem State.respond_out (x : HostResult) : (s.respond x).out = s.out := rfl
@[simp] theorem State.respond_faultHaz (x : HostResult) : (s.respond x).faultHaz = s.faultHaz := rfl
@[simp] theorem State.respond_faultUninit (x : HostResult) : (s.respond x).faultUninit = s.faultUninit := rfl
@[simp] theorem State.respond_inputs (x : HostResult) : (s.respond x).inputs = s.inputs := rfl
@[simp] theorem State.respond_results (x : HostResult) : (s.respond x).results = s.results ++ [x] := rfl
@[simp] theorem State.respond_draws (x : HostResult) : (s.respond x).draws = s.draws := rfl

/-! ### State.noteHazard -/

@[simp] theorem State.noteHazard_params (h : Bool) : (s.noteHazard h).params = s.params := rfl
@[simp] theorem State.noteHazard_regs (h : Bool) : (s.noteHazard h).regs = s.regs := rfl
@[simp] theorem State.noteHazard_trks (h : Bool) : (s.noteHazard h).trks = s.trks := rfl
@[simp] theorem State.noteHazard_eng (h : Bool) : (s.noteHazard h).eng = s.eng := rfl
@[simp] theorem State.noteHazard_buf (h : Bool) : (s.noteHazard h).buf = s.buf := rfl
@[simp] theorem State.noteHazard_out (h : Bool) : (s.noteHazard h).out = s.out := rfl
@[simp] theorem State.noteHazard_faultHaz (h : Bool) : (s.noteHazard h).faultHaz = (s.faultHaz || h) := rfl
@[simp] theorem State.noteHazard_faultUninit (h : Bool) : (s.noteHazard h).faultUninit = s.faultUninit := rfl
@[simp] theorem State.noteHazard_inputs (h : Bool) : (s.noteHazard h).inputs = s.inputs := rfl
@[simp] theorem State.noteHazard_results (h : Bool) : (s.noteHazard h).results = s.results := rfl
@[simp] theorem State.noteHazard_draws (h : Bool) : (s.noteHazard h).draws = s.draws := rfl

/-! ### State.withInputs -/

@[simp] theorem State.withInputs_params (l : List Event) : (s.withInputs l).params = s.params := rfl
@[simp] theorem State.withInputs_regs (l : List Event) : (s.withInputs l).regs = s.regs := rfl
@[simp] theorem State.withInputs_trks (l : List Event) : (s.withInputs l).trks = s.trks := rfl
@[simp] theorem State.withInputs_eng (l : List Event) : (s.withInputs l).eng = s.eng := rfl
@[simp] theorem State.withInputs_buf (l : List Event) : (s.withInputs l).buf = s.buf := rfl
@[simp] theorem State.withInputs_out (l : List Event) : (s.withInputs l).out = s.out := rfl
@[simp] theorem State.withInputs_faultHaz (l : List Event) : (s.withInputs l).faultHaz = s.faultHaz := rfl
@[simp] theorem State.withInputs_faultUninit (l : List Event) : (s.withInputs l).faultUninit = s.faultUninit := rfl
@[simp] theorem State.withInputs_inputs (l : List Event) : (s.withInputs l).inputs = l := rfl
@[simp] theorem State.withInputs_results (l : List Event) : (s.withInputs l).results = s.results := rfl
@[simp] theorem State.withInputs_draws (l : List Event) : (s.withInputs l).draws = s.draws := rfl

/-! ### State.blockReset -/

@[simp] theorem State.blockReset_params : s.blockReset.params = s.params := rfl
@[simp] theorem State.blockReset_regs : s.blockReset.regs = Regs.reset := rfl
@[simp] theorem State.blockReset_trks : s.blockReset.trks = List.replicate s.params.nTracks Track.empty := rfl
@[simp] theorem State.blockReset_eng : s.blockReset.eng = Engine.reset := rfl
@[simp] theorem State.blockReset_buf : s.blockReset.buf = [] := rfl
@[simp] theorem State.blockReset_out : s.blockReset.out = s.out := rfl
@[simp] theorem State.blockReset_faultHaz : s.blockReset.faultHaz = s.faultHaz := rfl
@[simp] theorem State.blockReset_faultUninit : s.blockReset.faultUninit = s.faultUninit := rfl
@[simp] theorem State.blockReset_inputs : s.blockReset.inputs = s.inputs := rfl
@[simp] theorem State.blockReset_results : s.blockReset.results = s.results := rfl
@[simp] theorem State.blockReset_draws : s.blockReset.draws = s.draws := rfl

end Sys2Proof.Machine
end

