-- ==== Sys2Proof/Laws/Ops.lean ====
section
/-! SUPPORT. What each shared operation can do, said once: completion, the reads and writes of BUF, the track table. -/

namespace Sys2Proof.Machine

/-- Completion is the spec's `complete(code)` written out (R134). -/
theorem finish_eq (c : ErrCode) (s : State) : finish c s = .next (s.endedWith c) := rfl

/-- A meaning that ends with a code answers exactly that state. -/
theorem finish_next {c : ErrCode} {s s' : State} (h : finish c s = .next s') : s' = s.complete c := by
  simpa [finish] using h.symm

/-! ### Reads of BUF -/

theorem State.bufRead_written {s : State} {a : Nat} {v : Byte} (h : s.buf.read a = some v) :
    s.bufRead a = (v, s) := by
  simp [State.bufRead, h]

theorem State.bufRead_unwritten {s : State} {a : Nat} (h : s.buf.read a = none) :
    s.bufRead a = (Config.freeByte s.draws, { s with faultUninit := true, draws := s.draws + 1 }) := by
  simp [State.bufRead, h]

/-- What a read of BUF can change: fault_uninit, which it never clears, and the draw counter. -/
theorem State.bufRead_state (a : Nat) (s : State) :
    ∃ u d, (s.bufRead a).2 = { s with faultUninit := u, draws := d } ∧ (s.faultUninit = true → u = true) := by
  cases h : s.buf.read a with
  | some v => exact ⟨s.faultUninit, s.draws, by rw [bufRead_written h], id⟩
  | none => exact ⟨true, s.draws + 1, by rw [bufRead_unwritten h], fun _ => rfl⟩

/-- What a read of several bytes can change: the same. -/
theorem State.bufReadList_state (a n : Nat) (s : State) :
    ∃ u d, (s.bufReadList a n).2 = { s with faultUninit := u, draws := d } ∧ (s.faultUninit = true → u = true) := by
  induction n generalizing a s with
  | zero => exact ⟨s.faultUninit, s.draws, rfl, id⟩
  | succ k ih =>
    obtain ⟨u, d, h, hu⟩ := bufRead_state a s
    obtain ⟨u', d', h', hu'⟩ := ih (a + 1) (s.bufRead a).2
    refine ⟨u', d', ?_, fun hs => hu' (by rw [h]; exact hu hs)⟩
    show ((s.bufRead a).2.bufReadList (a + 1) k).2 = _
    rw [h', h]

/-- A read of BUF depends on BUF and on the draw counter alone, and does the same to every state that has these. -/
theorem State.bufRead_uniform (a : Nat) (m : Memory) (n : Nat) :
    ∃ v u k, ∀ s : State, s.buf = m → s.draws = n →
      s.bufRead a = (v, { s with faultUninit := s.faultUninit || u, draws := n + k }) := by
  cases h : m.read a with
  | some v => exact ⟨v, false, 0, by rintro s rfl rfl; rw [bufRead_written h]; simp⟩
  | none => exact ⟨Config.freeByte n, true, 1, by rintro s rfl rfl; rw [bufRead_unwritten h]; simp⟩

/-- A read of several bytes likewise. -/
theorem State.bufReadList_uniform (a c : Nat) (m : Memory) (n : Nat) :
    ∃ v u k, ∀ s : State, s.buf = m → s.draws = n →
      s.bufReadList a c = (v, { s with faultUninit := s.faultUninit || u, draws := n + k }) := by
  induction c generalizing a n with
  | zero => exact ⟨[], false, 0, by rintro s rfl rfl; simp [State.bufReadList]⟩
  | succ c ih =>
    obtain ⟨v, u, k, h⟩ := bufRead_uniform a m n
    obtain ⟨vs, us, ks, hs⟩ := ih (a + 1) (n + k)
    refine ⟨v :: vs, u || us, k + ks, fun s hb hd => ?_⟩
    have h' := hs { s with faultUninit := s.faultUninit || u, draws := n + k } hb rfl
    simp only [State.bufReadList, h s hb hd, h', Bool.or_assoc, Nat.add_assoc]

/-- A read of several bytes answers as many. -/
theorem State.bufReadList_length (a n : Nat) (s : State) : (s.bufReadList a n).1.length = n := by
  induction n generalizing a s with
  | zero => rfl
  | succ k ih => simp [State.bufReadList, ih]

/-- Reading written bytes answers them and changes nothing. -/
theorem State.bufReadList_holds {s : State} {a : Nat} {bytes : List Byte} (h : s.buf.holds a bytes) :
    s.bufReadList a bytes.length = (bytes, s) := by
  induction bytes generalizing a with
  | nil => rfl
  | cons v rest ih =>
    have hv : s.bufRead a = (v, s) := bufRead_written (by simpa using h 0 (by simp))
    have hr : s.buf.holds (a + 1) rest := fun k hk => by
      have := h (k + 1) (by simpa using hk)
      simpa [Nat.add_assoc, Nat.add_comm 1] using this
    simp [State.bufReadList, hv, ih hr]

section frame
variable (a n : Nat) (s : State)

@[simp] theorem State.bufRead_params : (s.bufRead a).2.params = s.params := by
  obtain ⟨u, d, h, -⟩ := bufRead_state a s; rw [h]
@[simp] theorem State.bufRead_regs : (s.bufRead a).2.regs = s.regs := by
  obtain ⟨u, d, h, -⟩ := bufRead_state a s; rw [h]
@[simp] theorem State.bufRead_trks : (s.bufRead a).2.trks = s.trks := by
  obtain ⟨u, d, h, -⟩ := bufRead_state a s; rw [h]
@[simp] theorem State.bufRead_eng : (s.bufRead a).2.eng = s.eng := by
  obtain ⟨u, d, h, -⟩ := bufRead_state a s; rw [h]
@[simp] theorem State.bufRead_buf : (s.bufRead a).2.buf = s.buf := by
  obtain ⟨u, d, h, -⟩ := bufRead_state a s; rw [h]
@[simp] theorem State.bufRead_out : (s.bufRead a).2.out = s.out := by
  obtain ⟨u, d, h, -⟩ := bufRead_state a s; rw [h]
@[simp] theorem State.bufRead_faultHaz : (s.bufRead a).2.faultHaz = s.faultHaz := by
  obtain ⟨u, d, h, -⟩ := bufRead_state a s; rw [h]
@[simp] theorem State.bufRead_inputs : (s.bufRead a).2.inputs = s.inputs := by
  obtain ⟨u, d, h, -⟩ := bufRead_state a s; rw [h]
@[simp] theorem State.bufRead_results : (s.bufRead a).2.results = s.results := by
  obtain ⟨u, d, h, -⟩ := bufRead_state a s; rw [h]
theorem State.bufRead_faultUninit (h : s.faultUninit = true) : (s.bufRead a).2.faultUninit = true := by
  obtain ⟨u, d, e, hu⟩ := bufRead_state a s; rw [e]; exact hu h

@[simp] theorem State.bufReadList_params : (s.bufReadList a n).2.params = s.params := by
  obtain ⟨u, d, h, -⟩ := bufReadList_state a n s; rw [h]
@[simp] theorem State.bufReadList_regs : (s.bufReadList a n).2.regs = s.regs := by
  obtain ⟨u, d, h, -⟩ := bufReadList_state a n s; rw [h]
@[simp] theorem State.bufReadList_trks : (s.bufReadList a n).2.trks = s.trks := by
  obtain ⟨u, d, h, -⟩ := bufReadList_state a n s; rw [h]
@[simp] theorem State.bufReadList_eng : (s.bufReadList a n).2.eng = s.eng := by
  obtain ⟨u, d, h, -⟩ := bufReadList_state a n s; rw [h]
@[simp] theorem State.bufReadList_buf : (s.bufReadList a n).2.buf = s.buf := by
  obtain ⟨u, d, h, -⟩ := bufReadList_state a n s; rw [h]
@[simp] theorem State.bufReadList_out : (s.bufReadList a n).2.out = s.out := by
  obtain ⟨u, d, h, -⟩ := bufReadList_state a n s; rw [h]
@[simp] theorem State.bufReadList_faultHaz : (s.bufReadList a n).2.faultHaz = s.faultHaz := by
  obtain ⟨u, d, h, -⟩ := bufReadList_state a n s; rw [h]
@[simp] theorem State.bufReadList_inputs : (s.bufReadList a n).2.inputs = s.inputs := by
  obtain ⟨u, d, h, -⟩ := bufReadList_state a n s; rw [h]
@[simp] theorem State.bufReadList_results : (s.bufReadList a n).2.results = s.results := by
  obtain ⟨u, d, h, -⟩ := bufReadList_state a n s; rw [h]
theorem State.bufReadList_faultUninit (h : s.faultUninit = true) :
    (s.bufReadList a n).2.faultUninit = true := by
  obtain ⟨u, d, e, hu⟩ := bufReadList_state a n s; rw [e]; exact hu h

end frame

/-! ### Writes of BUF -/

/-- What a write of consecutive bytes does: BUF alone changes, it keeps its canonical form, the bytes stand at their
addresses and every other address reads as before. -/
theorem State.bufWriteList_state (a : Nat) (bytes : List Byte) (s : State) :
    ∃ m, s.bufWriteList a bytes = { s with buf := m } ∧ (s.buf.wf → m.wf) ∧
      (∀ c ∈ m, c ∈ s.buf ∨ (a ≤ c.1 ∧ c.1 < a + bytes.length)) ∧
      ∀ b, m.read b = if a ≤ b ∧ b < a + bytes.length then bytes[b - a]? else s.buf.read b := by
  induction bytes generalizing a s with
  | nil => exact ⟨s.buf, rfl, id, fun c hc => .inl hc, fun b => by simp⟩
  | cons v rest ih =>
    obtain ⟨m, hs, hwf, hin, hread⟩ := ih (a + 1) (s.bufWrite a v)
    refine ⟨m, ?_, fun h => hwf (Memory.wf_write h a v), fun c hc => ?_, fun b => ?_⟩
    · show (s.bufWrite a v).bufWriteList (a + 1) rest = _
      rw [hs]; rfl
    · rcases hin c hc with h | h
      · rcases Memory.mem_write h with rfl | h
        · exact .inr ⟨le_refl _, by simp⟩
        · exact .inl h
      · exact .inr ⟨by omega, by simp only [List.length_cons]; omega⟩
    · rw [hread b, State.bufWrite_buf, Memory.read_write, List.length_cons]
      by_cases hb : b = a
      · subst hb
        rw [if_neg (by omega), if_pos rfl, if_pos ⟨le_refl _, by omega⟩]; simp
      · rw [if_neg hb]
        by_cases hlt : a + 1 ≤ b ∧ b < a + 1 + rest.length
        · rw [if_pos hlt, if_pos ⟨by omega, by omega⟩]
          obtain ⟨k, rfl⟩ : ∃ k, b = a + 1 + k := ⟨b - (a + 1), by omega⟩
          simp [show a + 1 + k - a = k + 1 by omega, show a + 1 + k - (a + 1) = k by omega]
        · rw [if_neg hlt, if_neg (by omega)]

/-! ### The track table -/

@[simp] theorem State.slotExists_iff (t : Nat) (s : State) : s.slotExists t = true ↔ t < s.params.nTracks := by
  simp [State.slotExists]

@[simp] theorem State.slotExists_iff_not (t : Nat) (s : State) :
    s.slotExists t = false ↔ s.params.nTracks ≤ t := by
  simp [State.slotExists]

/-- trk[t] depends on the track table alone. -/
theorem State.trk_congr {s s' : State} (h : s'.trks = s.trks) (t : Nat) : s'.trk t = s.trk t := by
  simp [State.trk, h]

/-- Reading a slot of a table with one slot written. -/
theorem getD_set_slot (l : List Track) (t u : Nat) (x : Track) :
    (l.set t x).getD u Track.empty = if u = t ∧ t < l.length then x else l.getD u Track.empty := by
  simp only [List.getD_eq_getElem?_getD, List.getElem?_set]
  split
  · next h =>
    subst h
    split
    · next h => simp [h]
    · next h => simp [h]
  · next h => rw [if_neg (by tauto)]

/-- Reading another slot than the one written. -/
theorem State.putTrk_trk_ne {t u : Nat} (x : Track) (s : State) (h : u ≠ t) : (s.putTrk t x).trk u = s.trk u := by
  rw [State.trk, State.putTrk_trks, getD_set_slot, if_neg (fun c => h c.1), State.trk]

/-- Reading the slot written. -/
theorem State.putTrk_trk_eq {t : Nat} (x : Track) (s : State) (h : t < s.trks.length) :
    (s.putTrk t x).trk t = x := by
  rw [State.trk, State.putTrk_trks, getD_set_slot, if_pos ⟨rfl, h⟩]

end Sys2Proof.Machine
end

