-- ==== Sys2Proof/Laws/Codec.lean ====
section
/-! SUPPORT. The packings and the packet as numbers: what each word and each wire byte is, field by field. -/

namespace Sys2Proof.Machine

/-- Appending bit vectors, as numbers. -/
theorem toNat_append_add {v w : Nat} (x : BitVec v) (y : BitVec w) :
    (x ++ y).toNat = x.toNat * 2 ^ w + y.toNat := by
  rw [BitVec.toNat_append, ← Nat.shiftLeft_add_eq_or_of_lt y.isLt, Nat.shiftLeft_eq]

/-- A field of bits is a quotient and a remainder. -/
theorem toNat_field {v : Nat} (x : BitVec v) (lo len : Nat) :
    (x.extractLsb' lo len).toNat = x.toNat / 2 ^ lo % 2 ^ len := by
  rw [BitVec.extractLsb'_toNat, Nat.shiftRight_eq_div_pow]

/-- A bit as a number. -/
theorem toNat_bit (b : Bool) : (BitVec.ofBool b).toNat = b.toNat := by cases b <;> rfl

theorem trkrWord_toNat (x : Track) :
    (trkrWord x).toNat =
      x.pid.toNat + 2 ^ 15 * x.valid.toNat + 2 ^ 16 * x.cc.toNat + 2 ^ 24 * x.st.toNat := by
  simp only [trkrWord, toNat_append_add, toNat_bit, BitVec.toNat_ofNat]
  omega

theorem afrWord_toNat {fl : Byte} (flags : Byte) (h : fl.toNat ≠ 0) :
    (afrWord fl flags).toNat = fl.toNat + 2 ^ 8 * flags.toNat + 2 ^ 16 * (fl.toNat - 1) := by
  have : (fl - 1#8).toNat = fl.toNat - 1 := by
    rw [BitVec.toNat_sub]; have := fl.isLt; simp only [BitVec.toNat_ofNat]; omega
  simp only [afrWord, toNat_append_add, this, BitVec.toNat_ofNat]
  omega

theorem plrWord_toNat {plen poff : Nat} (h : plen < 256) (h' : poff < 256) :
    (plrWord plen poff).toNat = poff + 2 ^ 8 * plen := by
  simp only [plrWord, toNat_append_add, BitVec.toNat_ofNat]
  omega

theorem packWord_toNat (b0 b1 b2 b3 : Byte) :
    (packWord b0 b1 b2 b3).toNat = 2 ^ 24 * b0.toNat + 2 ^ 16 * b1.toNat + 2 ^ 8 * b2.toNat + b3.toNat := by
  simp only [packWord, toNat_append_add]
  omega

theorem hdrWord_toNat (tei pusi tp : Bool) (pid : BitVec 13) (scr am : BitVec 2) (cc : BitVec 4) :
    (hdrWord tei pusi tp pid scr am cc).toNat =
      0x47 * 2 ^ 24 + 2 ^ 23 * tei.toNat + 2 ^ 22 * pusi.toNat + 2 ^ 21 * tp.toNat + 2 ^ 8 * pid.toNat
        + 2 ^ 6 * scr.toNat + 2 ^ 4 * am.toNat + cc.toNat := by
  simp only [hdrWord, toNat_append_add, toNat_bit, BitVec.toNat_ofNat]
  omega

/-- cc_norm as a number (R89). -/
theorem ccNorm_toNat (v : Nat) : (ccNorm v).toNat = v % 16 := by
  simp [ccNorm]

/-- The increment of a counter (R111). -/
theorem ccNorm_succ (c : BitVec 4) : ccNorm (c.toNat + 1) = c + 1#4 := by
  apply BitVec.eq_of_toNat_eq; simp [ccNorm_toNat]

/-- The adaptation field of a packet or of AF_ENC has 2 + N bytes (R100). -/
theorem afBytes_length (n : Nat) : (afBytes n).length = 2 + n := by
  simp [afBytes]; omega

/-- The packet the engine forms is the byte map of R81. -/
theorem packetBytes_eq (first : Bool) (pid : BitVec 13) (cc : BitVec 4) {chunk : List Byte}
    (h : chunk.length ≤ 182) :
    packetBytes first pid cc chunk = specPacket first pid.toNat cc.toNat chunk := by
  have hp := pid.isLt
  have hc := cc.isLt
  have hb : hdrBytes (hdrWord false first false pid 0#2 AdaptMode.adaptationAndPayload.code cc) =
      [0x47#8, BitVec.ofNat 8 ((if first then 0x40 else 0) + pid.toNat / 256), BitVec.ofNat 8 (pid.toNat % 256),
        BitVec.ofNat 8 (0x30 + cc.toNat % 16)] := by
    have ha : AdaptMode.adaptationAndPayload.code.toNat = 3 := rfl
    unfold hdrBytes
    congr 1
    · apply BitVec.eq_of_toNat_eq
      rw [toNat_field, hdrWord_toNat, ha]; cases first <;> simp <;> omega
    congr 1
    · apply BitVec.eq_of_toNat_eq
      rw [toNat_field, hdrWord_toNat, ha, BitVec.toNat_ofNat]; cases first <;> simp <;> omega
    congr 1
    · apply BitVec.eq_of_toNat_eq
      rw [toNat_field, hdrWord_toNat, ha, BitVec.toNat_ofNat]; cases first <;> simp <;> omega
    congr 1
    · apply BitVec.eq_of_toNat_eq
      rw [toNat_field, hdrWord_toNat, ha, BitVec.toNat_ofNat]; cases first <;> simp <;> omega
  have hn : 1 + (182 - chunk.length) = 183 - chunk.length := by omega
  simp only [packetBytes, hb, afBytes, specPacket, Config.maxChunk, hn]
  rfl

/-- A packet is 188 bytes long (R107). -/
theorem specPacket_length (first : Bool) (pid cc : Nat) {chunk : List Byte} (h : chunk.length ≤ 182) :
    (specPacket first pid cc chunk).length = 188 := by
  simp [specPacket]; omega

/-- The counter enters a packet modulo 16. -/
theorem specPacket_cc_mod (first : Bool) (pid cc : Nat) (chunk : List Byte) :
    specPacket first pid (cc % 16) chunk = specPacket first pid cc chunk := by
  simp [specPacket]

end Sys2Proof.Machine
end

