-- ==== Sys2Proof/Laws/Decode.lean ====
section
/-! SUPPORT. The decoder inverted, and the fields of a word put back in place. -/

namespace Sys2Proof

/-- A word that decodes to a command selects that command's row (30_encoding.md R75). -/
theorem decode_instr {w : Word} {i : Instr} (h : decode w = .instr i) :
    ∃ r ∈ opcodeMap, w &&& r.mask = r.pattern ∧ i = buildInstr r.op w := by
  unfold decode at h
  split at h
  · next q hq =>
    have h1 := List.find?_some hq
    simp only [OpcodeRow.selects, beq_iff_eq] at h1
    exact ⟨q, List.mem_of_find?_eq_some hq, h1, by simpa using h.symm⟩
  · cases h

/-- A word that is ILLEGAL selects no row. -/
theorem decode_illegal {w : Word} {why : IllegalReason} (h : decode w = .illegal why) :
    ∀ r ∈ opcodeMap, w &&& r.mask ≠ r.pattern := by
  unfold decode at h
  split at h
  · cases h
  · next hn =>
    intro r hr he
    have := List.find?_eq_none.1 hn r hr
    simp [OpcodeRow.selects, he] at this

/-- OPC is inside every mask (R75). -/
theorem opcField_mask : ∀ r ∈ opcodeMap, opcField r.mask = 0xF#4 := by decide

/-- Masking with a mask that holds OPC keeps OPC. -/
theorem opcField_and (w : Word) {m : Word} (h : opcField m = 0xF#4) : opcField (w &&& m) = opcField w := by
  unfold opcField at *
  rw [BitVec.extractLsb'_and, h]
  exact BitVec.and_allOnes (x := w.extractLsb' 28 4)

/-- The rows have distinct OPC values, so a word selects at most one (R75). -/
theorem row_unique {w : Word} {r q : OpcodeRow} (hr : r ∈ opcodeMap) (hq : q ∈ opcodeMap)
    (h1 : w &&& r.mask = r.pattern) (h2 : w &&& q.mask = q.pattern) : r = q := by
  have inj : ∀ r ∈ opcodeMap, ∀ q ∈ opcodeMap, opcField r.pattern = opcField q.pattern → r = q := by decide
  apply inj r hr q hq
  rw [← h1, ← h2, opcField_and _ (opcField_mask r hr), opcField_and _ (opcField_mask q hq)]

/-- The decoder answers the row a word selects (R75). -/
theorem decode_row {w : Word} {r : OpcodeRow} (hr : r ∈ opcodeMap) (h : w &&& r.mask = r.pattern) :
    decode w = .instr (buildInstr r.op w) := by
  unfold decode
  split
  · next q hq =>
    have h1 := List.find?_some hq
    simp only [OpcodeRow.selects, beq_iff_eq] at h1
    rw [row_unique (List.mem_of_find?_eq_some hq) hr h1 h]
  · next hn =>
    have := List.find?_eq_none.1 hn r hr
    simp [OpcodeRow.selects, h] at this

/-- The TRK field, taken out and put back. -/
theorem trkBits_trkField (w : Word) : trkBits (trkField w) = w &&& 0x0FF00000#32 := by
  unfold trkBits trkField
  rw [BitVec.ofNat_toNat]
  apply BitVec.eq_of_getLsbD_eq
  intro i hi
  have hc : ∀ i < 32, (0x0FF00000#32).getLsbD i = decide (20 ≤ i ∧ i < 28) := by decide
  rw [BitVec.getLsbD_and, hc i hi, BitVec.getLsbD_shiftLeft, BitVec.getLsbD_setWidth, BitVec.getLsbD_extractLsb']
  by_cases h : 20 ≤ i
  · simp [hi, h, show 20 + (i - 20) = i by omega, show ¬ i < 20 by omega, show (i - 20 < 32) by omega]
    rw [Bool.and_comm]; congr 1; simp; omega
  · simp [h, show i < 20 by omega]

/-- The FP bit, taken out and put back. -/
theorem fpBits_fpField (w : Word) : fpBits (fpField w) = w &&& 0x00080000#32 := by
  apply BitVec.eq_of_getLsbD_eq
  intro i hi
  have hc : ∀ i < 32, (0x00080000#32).getLsbD i = decide (i = 19) := by decide
  rw [BitVec.getLsbD_and, hc i hi]
  unfold fpBits fpField
  split
  · next h => rw [hc i hi]; by_cases hi : i = 19 <;> simp_all
  · next h => by_cases hi : i = 19 <;> simp_all

end Sys2Proof
end

