-- ==== Sys2Proof/Laws/Step.lean ====
section
/-! SUPPORT. What a packet step, an engine step and a step of the block can do: one inversion lemma each. -/

namespace Sys2Proof.Machine

/-! ### The packet step -/

/-- The state after the emission of the chunk eng.i, written out (R107): `r` is the read of the chunk. -/
theorem State.emitChunk_eq (s : State) :
    let r := s.bufReadList (s.eng.src + 182 * s.eng.i) (min 182 (s.eng.len - 182 * s.eng.i))
    let x := s.trk s.eng.t
    let s1 : State :=
      { r.2 with
        trks := s.trks.set s.eng.t { x with cc := x.cc + 1#4 }
        out := s.out ++ [specPacket (s.eng.i == 0) x.pid.toNat (x.cc.toNat + 1) r.1]
        eng := { s.eng with i := s.eng.i + 1 } }
    s.emitChunk =
      (if s.eng.i + 1 = s.eng.n then
        State.endedWith .ok { s1 with regs := { s1.regs with pktn := BitVec.ofNat 32 s.eng.n } }
      else s1) := by
  intro r x s1
  have hlen : r.1.length ≤ 182 := by
    show (s.bufReadList _ _).1.length ≤ 182
    rw [bufReadList_length]; exact Nat.min_le_left _ _
  have hx : r.2.trk s.eng.t = x := trk_congr (bufReadList_trks _ _ s) _
  have hout : r.2.out = s.out := bufReadList_out _ _ s
  have heng : r.2.eng = s.eng := bufReadList_eng _ _ s
  have htrks : r.2.trks = s.trks := bufReadList_trks _ _ s
  have hp : packetBytes (s.eng.i == 0) x.pid (x.cc + 1#4) r.1
      = specPacket (s.eng.i == 0) x.pid.toNat (x.cc.toNat + 1) r.1 := by
    rw [packetBytes_eq _ _ _ hlen, ← specPacket_cc_mod _ _ (x.cc.toNat + 1)]
    rw [BitVec.toNat_add]
    rfl
  show (let r' := r
    let x0 := r'.2.trk s.eng.t
    let x' := { x0 with cc := ccNorm (x0.cc.toNat + 1) }
    let t1 := (r'.2.putTrk s.eng.t x').emit (packetBytes (s.eng.i == 0) x'.pid x'.cc r'.1)
    let t2 := { t1 with eng := { t1.eng with i := s.eng.i + 1 } }
    if s.eng.i + 1 = s.eng.n then (t2.putPktn s.eng.n).complete .ok else t2) = _
  simp only [hx, ccNorm_succ, hp]
  split
  · simp [State.complete, State.putPktn, State.putTrk, State.emit, s1, hout, heng, htrks, opcField]
  · simp [State.putTrk, State.emit, s1, hout, heng, htrks]

/-- A packet step answers a next state exactly where chunk eng.i, slot eng.t and the chunk's BUF range exist. -/
theorem packetStep_next {s s' : State} (h : packetStep s = .next s') :
    (s.eng.i < s.eng.n ∧ 182 * s.eng.i < s.eng.len) ∧ s.eng.t < s.params.nTracks ∧
      s.eng.src + 182 * s.eng.i + chunkLen s.eng.len s.eng.i ≤ s.params.bufBytes ∧ s' = s.emitChunk := by
  unfold packetStep at h
  split at h
  · cases h
  · split at h
    · cases h
    · split at h
      · cases h
      · next h1 h2 h3 =>
        simp only [Bool.not_eq_false, State.slotExists_iff] at h2
        exact ⟨not_not.1 h1, h2, Nat.le_of_not_lt h3, by simpa using h.symm⟩

theorem packetStep_of {s : State} (h1 : s.eng.i < s.eng.n) (h2 : 182 * s.eng.i < s.eng.len)
    (h3 : s.eng.t < s.params.nTracks)
    (h4 : s.eng.src + 182 * s.eng.i + chunkLen s.eng.len s.eng.i ≤ s.params.bufBytes) :
    packetStep s = .next s.emitChunk := by
  have h5 := (State.slotExists_iff s.eng.t s).2 h3
  unfold packetStep
  rw [if_neg (not_not.2 ⟨h1, h2⟩), if_neg (by simp [h5]), if_neg (by simpa using h4)]

/-! ### The engine step -/

/-- What an engine step that answers a next state was. -/
theorem engineStep_cases {s s' : State} (h : engineStep s = .next s') :
    (s.eng.phase = .idle ∧ s' = s) ∨
    (s.eng.phase = .start ∧ (∃ why, decode s.eng.cmd = .illegal why) ∧ s' = s.complete .illegalCmd) ∨
    (s.eng.phase = .start ∧ ∃ i, decode s.eng.cmd = .instr i ∧ exec i s = .next s') ∨
    (s.eng.phase = .run ∧ packetStep s = .next s') := by
  unfold engineStep at h
  split at h
  · exact .inl ⟨‹_›, by simpa using h.symm⟩
  · unfold runCommand at h
    split at h
    · exact .inr (.inr (.inl ⟨‹_›, _, ‹_›, h⟩))
    · exact .inr (.inl ⟨‹_›, ⟨_, ‹_›⟩, finish_next h⟩)
  · exact .inr (.inr (.inr ⟨‹_›, h⟩))

theorem engineStep_idle {s : State} (h : s.eng.phase = .idle) : engineStep s = .next s := by
  unfold engineStep; rw [h]

theorem engineStep_start {s : State} (h : s.eng.phase = .start) : engineStep s = runCommand s := by
  unfold engineStep; rw [h]

theorem engineStep_run {s : State} (h : s.eng.phase = .run) : engineStep s = packetStep s := by
  unfold engineStep; rw [h]

theorem runCommand_instr {s : State} {i : Instr} (h : decode s.eng.cmd = .instr i) : runCommand s = exec i s := by
  unfold runCommand; rw [h]

theorem runCommand_illegal {s : State} {why : IllegalReason} (h : decode s.eng.cmd = .illegal why) :
    runCommand s = finish .illegalCmd s := by
  unfold runCommand; rw [h]

/-! ### The step of the block -/

theorem State.withInputs_tail_nil {s : State} (h : s.inputs = []) : s.withInputs s.inputs.tail = s := by
  cases s; cases h; rfl

/-- What a step that answers a next state was: a reset, a host transaction, a bus access, or a turn of the engine. -/
theorem step_cases {s s' : State} (h : step s = .next s') :
    (∃ rest, s.inputs = .reset :: rest ∧ s' = (s.withInputs rest).blockReset) ∨
    (∃ op rest, s.inputs = .host op :: rest ∧ s' = hostStep op (s.withInputs rest)) ∨
    (∃ acc rest, s.inputs = .bus acc :: rest ∧ s' = busStep acc (s.withInputs rest)) ∨
    (s.engineNext ∧ engineStep (s.withInputs s.inputs.tail) = .next s') := by
  unfold step nextStep at h
  split at h
  · next hi =>
    refine .inr (.inr (.inr ⟨by simp [State.engineNext, hi], ?_⟩))
    rw [State.withInputs_tail_nil hi]; exact h
  · next e rest hi =>
    cases e with
    | engine => exact .inr (.inr (.inr ⟨by simp [State.engineNext, hi], by simpa [eventStep, hi] using h⟩))
    | host op => exact .inr (.inl ⟨op, rest, hi, by simpa [eventStep] using h.symm⟩)
    | bus acc => exact .inr (.inr (.inl ⟨acc, rest, hi, by simpa [eventStep] using h.symm⟩))
    | reset => exact .inl ⟨rest, hi, by simpa [eventStep] using h.symm⟩

/-- A turn of the engine, as a step. -/
theorem step_engine {s : State} (h : s.engineNext) : step s = engineStep (s.withInputs s.inputs.tail) := by
  unfold step nextStep
  split
  · next hi =>
    rw [State.withInputs_tail_nil hi]
  · next e rest hi =>
    have : e = .engine := by simpa [State.engineNext, hi] using h
    subst this; simp [eventStep, hi]

/-! ### Runs of several steps -/

theorem runSteps_zero (s : State) : runSteps 0 s = .next s := rfl

/-- The first step of a run. -/
theorem runSteps_cons {k : Nat} {s s1 : State} (h : step s = .next s1) : runSteps (k + 1) s = runSteps k s1 := by
  have h' : core.step s = .next s1 := h
  simp only [runSteps, Host.Core.run, h']
  rfl

/-- A run of k + 1 steps that answers a next state has taken a first step. -/
theorem runSteps_split {k : Nat} {s s2 : State} (h : runSteps (k + 1) s = .next s2) :
    ∃ s1, step s = .next s1 ∧ runSteps k s1 = .next s2 := by
  simp only [runSteps, Host.Core.run] at h
  split at h
  · exact ⟨_, ‹_›, h⟩
  · cases h
  · cases h

/-- A run and one step more. -/
theorem runSteps_snoc {k : Nat} {s s1 s2 : State} (h : runSteps k s = .next s1) (h' : step s1 = .next s2) :
    runSteps (k + 1) s = .next s2 := by
  induction k generalizing s with
  | zero => cases h; rw [runSteps_cons h', runSteps_zero]
  | succ k ih =>
    obtain ⟨t, ht, hr⟩ := runSteps_split h
    rw [runSteps_cons ht]; exact ih hr

end Sys2Proof.Machine
end

