-- ==== Sys2Proof/Laws/Exec.lean ====
section
/-! SUPPORT. What a command can do, said once for all eleven: `exec_cases` inverts exec, and the whole-machine rules are
read off it. -/

namespace Sys2Proof.Machine

/-- Two register windows agree but for the result registers (10_state.md R21). -/
abbrev Regs.SameControl (r r' : Regs) : Prop :=
  r'.cmd = r.cmd ∧ r'.ovr = r.ovr ∧ r'.err = r.err ∧ r'.lopc = r.lopc ∧ r'.arg0 = r.arg0 ∧ r'.arg1 = r.arg1

/-- A change of the result registers that keeps their invariants (R31 to R36, R40). -/
structure Regs.ResultWrite (r r' : Regs) : Prop where
  control : r.SameControl r'
  reserved : r.ReservedZero → r'.ReservedZero
  results : r.ResultsOk → r'.ResultsOk

theorem Regs.ResultWrite.refl (r : Regs) : r.ResultWrite r := ⟨⟨rfl, rfl, rfl, rfl, rfl, rfl⟩, id, id⟩

theorem Regs.ResultWrite.trans {a b c : Regs} (h : a.ResultWrite b) (h' : b.ResultWrite c) : a.ResultWrite c := by
  obtain ⟨⟨h1, h2, h3, h4, h5, h6⟩, hr, ho⟩ := h
  obtain ⟨⟨g1, g2, g3, g4, g5, g6⟩, gr, go⟩ := h'
  exact ⟨⟨g1.trans h1, g2.trans h2, g3.trans h3, g4.trans h4, g5.trans h5, g6.trans h6⟩, gr ∘ hr, go ∘ ho⟩

/-! ### Each result register's write keeps the registers' invariants -/

theorem putHeader_resultWrite (w : Word) (b : Bool) (s : State) (h : topByte w = Config.sync) :
    s.regs.ResultWrite (s.putHeader w b).regs := by
  refine ⟨⟨rfl, rfl, rfl, rfl, rfl, rfl⟩, fun r => ⟨?_, r.afr, r.afc, r.plr, r.trkrLow, r.trkrHigh⟩,
    fun r => ⟨.inr h, r.field, r.view⟩⟩
  show ((BitVec.ofBool b).setWidth 32).extractLsb' 1 31 = 0#31
  cases b <;> decide

/-- The fields of a word below 2^24. -/
theorem field_of_bytes {x y z : Nat} (hx : x < 256) (hy : y < 256) (hz : z < 256) :
    (x + 2 ^ 8 * y + 2 ^ 16 * z) / 2 ^ 24 = 0 ∧ (x + 2 ^ 8 * y + 2 ^ 16 * z) % 2 ^ 8 = x ∧
      (x + 2 ^ 8 * y + 2 ^ 16 * z) / 2 ^ 8 % 2 ^ 8 = y ∧ (x + 2 ^ 8 * y + 2 ^ 16 * z) / 2 ^ 16 = z := by omega

theorem putAf_resultWrite (fl flags : Byte) (s : State) (h : fl.toNat ≠ 0) :
    s.regs.ResultWrite (s.putAf (afrWord fl flags) (afcWord (1 + fl.toNat))).regs := by
  have hfl := fl.isLt
  have ha := afrWord_toNat flags h
  obtain ⟨hz, hl, -, hn⟩ := field_of_bytes hfl flags.isLt (show fl.toNat - 1 < 256 by omega)
  have hc : (afcWord (1 + fl.toNat)).toNat = 1 + fl.toNat := by
    rw [afcWord, BitVec.toNat_ofNat]; omega
  refine ⟨⟨rfl, rfl, rfl, rfl, rfl, rfl⟩, fun r => ⟨r.hdrx, ?_, ?_, r.plr, r.trkrLow, r.trkrHigh⟩,
    fun r => ⟨r.sync, .inr ?_, r.view⟩⟩
  · apply BitVec.eq_of_toNat_eq
    rw [toNat_field, State.putAf_regs, ha, hz]; rfl
  · apply BitVec.eq_of_toNat_eq
    rw [toNat_field, State.putAf_regs, hc, Nat.div_eq_of_lt (by omega)]; rfl
  · have e0 : (afrWord fl flags).toNat / 2 ^ 0 % 2 ^ 8 = fl.toNat := by rw [ha, Nat.pow_zero, Nat.div_one, hl]
    have e1 : (afrWord fl flags).toNat / 2 ^ 16 % 2 ^ 8 = fl.toNat - 1 := by rw [ha, hn]; omega
    simp only [State.putAf_regs, toNat_field, e0, e1]
    exact ⟨by omega, by omega, hc⟩

theorem putPlr_resultWrite {fl : Nat} (s : State) (h : 1 ≤ fl) (h' : fl ≤ 183) :
    s.regs.ResultWrite (s.putPlr (plrWord (183 - fl) (5 + fl))).regs := by
  have hp := plrWord_toNat (plen := 183 - fl) (poff := 5 + fl) (by omega) (by omega)
  obtain ⟨-, hl, hh, -⟩ := field_of_bytes (show 5 + fl < 256 by omega) (show 183 - fl < 256 by omega)
    (show 0 < 256 by omega)
  simp only [Nat.mul_zero, Nat.add_zero] at hl hh
  refine ⟨⟨rfl, rfl, rfl, rfl, rfl, rfl⟩, fun r => ⟨r.hdrx, r.afr, r.afc, ?_, r.trkrLow, r.trkrHigh⟩,
    fun r => ⟨r.sync, r.field, .inr ?_⟩⟩
  · apply BitVec.eq_of_toNat_eq
    rw [toNat_field, State.putPlr_regs, hp, Nat.div_eq_of_lt (by omega)]; rfl
  · simp only [State.putPlr_regs, toNat_field, hp, Nat.pow_zero, Nat.div_one, hl, hh]; omega

theorem putTrkr_resultWrite (x : Track) (s : State) : s.regs.ResultWrite (s.putTrkr (trkrWord x)).regs := by
  have h1 := x.pid.isLt
  have h2 := x.cc.isLt
  have h3 := x.st.isLt
  have h4 : x.valid.toNat ≤ 1 := by cases x.valid <;> simp
  refine ⟨⟨rfl, rfl, rfl, rfl, rfl, rfl⟩, fun r => ⟨r.hdrx, r.afr, r.afc, r.plr, ?_, ?_⟩,
    fun r => ⟨r.sync, r.field, r.view⟩⟩
  all_goals
    apply BitVec.eq_of_toNat_eq
    rw [toNat_field, State.putTrkr_regs, trkrWord_toNat]; simp; omega

theorem putPktn_resultWrite (n : Nat) (s : State) : s.regs.ResultWrite (s.putPktn n).regs :=
  ⟨⟨rfl, rfl, rfl, rfl, rfl, rfl⟩, fun r => ⟨r.hdrx, r.afr, r.afc, r.plr, r.trkrLow, r.trkrHigh⟩,
    fun r => ⟨r.sync, r.field, r.view⟩⟩

/-! ### The codec's checks -/

theorem afLengthError_some {r fl : Nat} {e : ErrCode} (h : afLengthError r fl = some e) :
    e = .truncatedAf ∨ e = .afZeroLen := by
  unfold afLengthError at h
  split at h
  · exact .inl (Option.some.inj h).symm
  · split at h
    · exact .inr (Option.some.inj h).symm
    · cases h

theorem afLengthError_none {r fl : Nat} (h : afLengthError r fl = none) : 1 + fl ≤ r ∧ fl ≠ 0 := by
  unfold afLengthError at h
  split at h
  · cases h
  · split at h
    · cases h
    · exact ⟨Nat.le_of_not_lt ‹_›, ‹_›⟩

/-- The payload length of a packet whose field_length passed the checks (R115, R117). -/
theorem parsePlen_of_ok {fl : Nat} (h : 1 + fl ≤ parseRemaining) : fl ≤ 183 ∧ parsePlen fl = ((183 - fl : Nat) : Int) := by
  simp only [parseRemaining, Config.pktBytes, Config.hdrBytes] at h
  refine ⟨by omega, ?_⟩
  simp only [parsePlen, Config.pktBytes, Config.hdrBytes]; omega

/-- A packed header's top byte is its first byte (20_memory.md R61). -/
theorem topByte_packWord (b0 b1 b2 b3 : Byte) : topByte (packWord b0 b1 b2 b3) = b0 := by
  apply BitVec.eq_of_toNat_eq
  have := b0.isLt
  have := b1.isLt
  have := b2.isLt
  have := b3.isLt
  rw [topByte, toNat_field, packWord_toNat]; omega

/-- The header word's top byte is the sync byte (R95). -/
theorem topByte_hdrWord (tei pusi tp : Bool) (pid : BitVec 13) (scr am : BitVec 2) (cc : BitVec 4) :
    topByte (hdrWord tei pusi tp pid scr am cc) = Config.sync := by
  apply BitVec.eq_of_toNat_eq
  have := pid.isLt
  have := scr.isLt
  have := am.isLt
  have := cc.isLt
  rw [topByte, toNat_field, hdrWord_toNat]
  cases tei <;> cases pusi <;> cases tp <;> simp <;> omega

/-! ### The inversion of exec -/

/-- The reads a command made: fault_uninit and the draw counter may have changed. -/
abbrev State.withReads (u : Bool) (d : Nat) (s : State) : State := { s with faultUninit := u, draws := d }

/-- The state a PACKETIZE with at least one packet starts its packet steps from (R106). -/
abbrev State.packetizing (t : Nat) (s : State) : State :=
  s.startRun t s.arg0Nat s.arg1Nat (ceilDiv s.arg1Nat Config.maxChunk)

/-- What one command did. -/
inductive ExecEffect (i : Instr) (s s' : State) : Prop where
  /-- it failed: STATUS alone changed, and fault_uninit where AF_DEC or PARSE read -/
  | failed (c : ErrCode) (u : Bool) (d : Nat) (hc : c ≠ .ok) (hc' : c ≠ .inconsistentAfLen)
      (hu : s.faultUninit = true → u = true) (hr : u ≠ s.faultUninit → i = .afDec ∨ i = .parse)
      (he : s' = (s.withReads u d).complete c)
  /-- it wrote result registers, or nothing -/
  | results (r : Regs) (u : Bool) (d : Nat) (hw : s.regs.ResultWrite r) (hu : s.faultUninit = true → u = true)
      (he : s' = ({ s.withReads u d with regs := r } : State).complete .ok)
  /-- TRK_CFG made a track -/
  | created (t : Nat) (x : Track) (hi : i = .trkCfg t) (ht : t < s.params.nTracks) (hf : (s.trk t).valid = false)
      (hx : x.valid = true) (hc : x.cc = ccNorm s.params.ccInit) (he : s' = (s.putTrk t x).complete .ok)
  /-- TRK_FREE ended one -/
  | freed (t : Nat) (hi : i = .trkFree t) (ht : t < s.params.nTracks)
      (he : s' = (s.putTrk t Track.empty).complete .ok)
  /-- TRK_SETCC seeded a counter -/
  | seeded (t : Nat) (hi : i = .trkSetcc t) (ht : t < s.params.nTracks) (hv : (s.trk t).valid = true)
      (he : s' = (s.putTrk t { s.trk t with cc := ccNorm s.arg0Nat }).complete .ok)
  /-- AF_ENC wrote a field into BUF -/
  | field (m : Memory) (r : Regs) (hi : i = .afEnc) (hw : s.regs.ResultWrite r) (hm : s.buf.wf → m.wf)
      (hin : ∀ c ∈ m, c ∈ s.buf ∨ c.1 < s.params.bufBytes)
      (he : s' = ({ s with buf := m, regs := r } : State).complete .ok)
  /-- PACKETIZE emitted packet 0 -/
  | packet (t : Nat) (fp : Bool) (hi : i = .packetize t fp) (ht : t < s.params.nTracks)
      (hv : (s.trk t).valid = true) (hb : s.arg0Nat + s.arg1Nat ≤ s.params.bufBytes) (hl : 0 < s.arg1Nat)
      (he : s' = (s.packetizing t).emitChunk)

theorem ExecEffect.failedPlain {i : Instr} {s s' : State} {c : ErrCode} (hc : c ≠ .ok) (hc' : c ≠ .inconsistentAfLen)
    (h : finish c s = .next s') : ExecEffect i s s' :=
  .failed c s.faultUninit s.draws hc hc' id (fun h => absurd rfl h) (finish_next h)

theorem ceilDiv_chunk (len : Nat) : ceilDiv len Config.maxChunk = (len + 181) / 182 := by
  unfold ceilDiv; congr 1

/-- Every command's effect is one of `ExecEffect`. -/
theorem exec_cases {i : Instr} {s s' : State} (h : exec i s = .next s') : ExecEffect i s s' := by
  cases i with
  | nop => exact .results s.regs s.faultUninit s.draws (.refl _) id (finish_next h)
  | trkCfg t =>
    simp only [exec, execTrkCfg] at h
    split at h
    · exact .failedPlain (by decide) (by decide) h
    · split at h
      · exact .failedPlain (by decide) (by decide) h
      · split at h
        · exact .failedPlain (by decide) (by decide) h
        · split at h
          · exact .failedPlain (by decide) (by decide) h
          · exact .created t _ rfl (by simp_all) (by simp_all) rfl rfl (finish_next h)
  | trkFree t =>
    simp only [exec, execTrkFree] at h
    split at h
    · exact .failedPlain (by decide) (by decide) h
    · exact .freed t rfl (by simp_all) (finish_next h)
  | trkSetcc t =>
    simp only [exec, execTrkSetcc] at h
    split at h
    · exact .failedPlain (by decide) (by decide) h
    · split at h
      · exact .failedPlain (by decide) (by decide) h
      · exact .seeded t rfl (by simp_all) (by simp_all) (finish_next h)
  | trkRead t =>
    simp only [exec, execTrkRead] at h
    split at h
    · exact .failedPlain (by decide) (by decide) h
    · exact .results _ s.faultUninit s.draws (putTrkr_resultWrite _ s) id (finish_next h)
  | hdrEnc =>
    simp only [exec, execHdrEnc] at h
    split at h
    · exact .failedPlain (by decide) (by decide) h
    · exact .results _ s.faultUninit s.draws (putHeader_resultWrite _ _ s (topByte_hdrWord ..)) id (finish_next h)
  | hdrDec =>
    simp only [exec, execHdrDec] at h
    split at h
    · exact .failedPlain (by decide) (by decide) h
    · exact .results _ s.faultUninit s.draws (putHeader_resultWrite _ _ s (not_not.1 ‹_›)) id (finish_next h)
  | afEnc =>
    simp only [exec, execAfEnc] at h
    split at h
    · exact .failedPlain (by decide) (by decide) h
    · split at h
      · exact .failedPlain (by decide) (by decide) h
      · next h1 h2 =>
        obtain ⟨m, hs, hm, hin, -⟩ := State.bufWriteList_state s.arg1Nat (afBytes s.arg0Nat) s
        rw [afBytes_length] at hin
        have hn : (BitVec.ofNat 8 (1 + s.arg0Nat)).toNat = 1 + s.arg0Nat := by rw [BitVec.toNat_ofNat]; omega
        have hw := putAf_resultWrite (BitVec.ofNat 8 (1 + s.arg0Nat)) Config.afFlags s (by rw [hn]; omega)
        rw [hn, ← Nat.add_assoc] at hw
        rw [hs] at h
        exact .field m _ rfl hw hm (fun c hc => (hin c hc).imp id (by omega)) (finish_next h)
  | afDec =>
    simp only [exec, execAfDec] at h
    split at h
    · exact .failedPlain (by decide) (by decide) h
    · split at h
      · exact .failedPlain (by decide) (by decide) h
      · obtain ⟨u, d, e1, hu⟩ := State.bufRead_state s.arg0Nat s
        split at h
        · next e he =>
          rw [e1] at h
          exact .failed e u d (by rcases afLengthError_some he with rfl | rfl <;> decide)
            (by rcases afLengthError_some he with rfl | rfl <;> decide) hu (fun _ => .inl rfl) (finish_next h)
        · next he =>
          obtain ⟨u', d', e2, hu'⟩ := State.bufRead_state (s.arg0Nat + 1) (s.bufRead s.arg0Nat).2
          have hw := putAf_resultWrite (s.bufRead s.arg0Nat).1
            ((s.bufRead s.arg0Nat).2.bufRead (s.arg0Nat + 1)).1 s (afLengthError_none he).2
          rw [e2, e1] at h
          refine .results _ u' d' hw (fun h => hu' (by rw [e1]; exact hu h)) ?_
          rw [finish_next h, e1]; rfl
  | packetize t fp =>
    simp only [exec, execPacketize] at h
    split at h
    · exact .failedPlain (by decide) (by decide) h
    · split at h
      · exact .failedPlain (by decide) (by decide) h
      · split at h
        · exact .failedPlain (by decide) (by decide) h
        · split at h
          · exact .results _ s.faultUninit s.draws (putPktn_resultWrite 0 s) id (finish_next h)
          · next h1 h2 h3 h4 =>
            rw [ceilDiv_chunk] at h4
            exact .packet t fp rfl (by simp_all) (by simp_all) (by omega) (by omega) (packetStep_next h).2.2.2
  | parse =>
    simp only [exec, execParse] at h
    split at h
    · exact .failedPlain (by decide) (by decide) h
    · split at h
      · exact .failedPlain (by decide) (by decide) h
      · obtain ⟨u0, d0, e0, hu0⟩ := State.bufRead_state s.arg0Nat s
        split at h
        · rw [e0] at h
          exact .failed _ u0 d0 (by decide) (by decide) hu0 (fun _ => .inr rfl) (finish_next h)
        · next h0 =>
          rw [e0] at h
          generalize (s.bufRead s.arg0Nat).1 = b0 at h h0
          simp only [parseBody] at h
          obtain ⟨u1, d1, e1, hu1⟩ := State.bufRead_state (s.arg0Nat + 1) (s.withReads u0 d0)
          rw [e1] at h
          generalize ((s.withReads u0 d0).bufRead (s.arg0Nat + 1)).1 = b1 at h
          obtain ⟨u2, d2, e2, hu2⟩ := State.bufRead_state (s.arg0Nat + 2) (s.withReads u1 d1)
          rw [e2] at h
          generalize ((s.withReads u1 d1).bufRead (s.arg0Nat + 2)).1 = b2 at h
          obtain ⟨u3, d3, e3, hu3⟩ := State.bufRead_state (s.arg0Nat + 3) (s.withReads u2 d2)
          rw [e3] at h
          generalize ((s.withReads u2 d2).bufRead (s.arg0Nat + 3)).1 = b3 at h
          obtain ⟨u4, d4, e4, hu4⟩ := State.bufRead_state (s.arg0Nat + 4) (s.withReads u3 d3)
          rw [e4] at h
          generalize ((s.withReads u3 d3).bufRead (s.arg0Nat + 4)).1 = fl at h
          obtain ⟨u5, d5, e5, hu5⟩ := State.bufRead_state (s.arg0Nat + 5) (s.withReads u4 d4)
          rw [e5] at h
          generalize ((s.withReads u4 d4).bufRead (s.arg0Nat + 5)).1 = flags at h
          split at h
          · next e he =>
            exact .failed e u4 d4 (by rcases afLengthError_some he with rfl | rfl <;> decide)
              (by rcases afLengthError_some he with rfl | rfl <;> decide)
              (fun h => hu4 (hu3 (hu2 (hu1 (hu0 h))))) (fun _ => .inr rfl) (finish_next h)
          · next he =>
            obtain ⟨hfl, hfl0⟩ := afLengthError_none he
            obtain ⟨hle, hpl⟩ := parsePlen_of_ok hfl
            rw [hpl, if_neg (by omega), Int.toNat_natCast] at h
            refine .results _ u5 d5 ?_ (fun h => hu5 (hu4 (hu3 (hu2 (hu1 (hu0 h)))))) (finish_next h)
            refine ((putHeader_resultWrite (packWord b0 b1 b2 b3) _ s ?_).trans
              (putAf_resultWrite fl flags _ hfl0)).trans (putPlr_resultWrite _ (by omega) hle)
            rw [topByte_packWord]; exact not_not.1 h0

end Sys2Proof.Machine
end

