-- ==== Sys2Proof/Laws/Host.lean ====
section
/-! SUPPORT. What a host transaction can do, said once: one inversion lemma. -/

namespace Sys2Proof.Machine

/-- The offset of a register (10_state.md R21). -/
def RegName.offset : RegName → Nat
  | .id => 0x00
  | .cmd => 0x04
  | .status => 0x08
  | .arg0 => 0x0C
  | .arg1 => 0x10
  | .hdrw => 0x14
  | .hdrx => 0x18
  | .afr => 0x1C
  | .afc => 0x20
  | .plr => 0x24
  | .trkr => 0x28
  | .pktn => 0x2C
  | .cfgn => 0x30
  | .cfgb => 0x34
  | .res38 => 0x38
  | .res3c => 0x3C

/-- BUSY reads 1 exactly when the engine is not idle (10_state.md R25). -/
theorem State.busy_iff {s : State} : s.busy = true ↔ s.eng.phase ≠ .idle := by simp [State.busy]

/-- An access that is no bus error is 32 bits wide and at its register's offset (20_memory.md R56). -/
theorem regAccess_some {width offset : Nat} {r : RegName} (h : regAccess width offset = some r) :
    width = 32 ∧ offset = r.offset := by
  unfold regAccess at h
  split at h
  · cases h
  · next hc =>
    simp only [not_or, not_not] at hc
    obtain ⟨h1, h2, h3⟩ := hc
    refine ⟨h3, ?_⟩
    obtain ⟨k, rfl⟩ : ∃ k, offset = 4 * k := ⟨offset / 4, by omega⟩
    rw [Nat.mul_div_cancel_left k (by omega)] at h
    have hk : k < 16 := by omega
    clear h1 h2 h3
    revert h
    revert r
    revert hk
    revert k
    decide +revert

/-- The register at an offset answers to it. -/
theorem regAccess_offset (r : RegName) : regAccess 32 r.offset = some r := by cases r <;> rfl

/-- What one host transaction did. -/
inductive HostEffect (op : HostOp) (s s' : State) : Prop where
  /-- a register read, an ignored write or a bus error: only the response -/
  | answered (x : HostResult) (he : s' = s.respond x)
  /-- a CMD write was accepted -/
  | accepted (v : Word) (ho : op = .wr 32 0x04 v) (hp : s.eng.phase = .idle) (he : s' = (s.accept v).respond .done)
  /-- a CMD write was dropped -/
  | dropped (v : Word) (ho : op = .wr 32 0x04 v) (hp : s.eng.phase ≠ .idle) (he : s' = s.rejectCmd.respond .done)
  /-- a STATUS write -/
  | status (v : Word) (ho : op = .wr 32 0x08 v) (he : s' = (s.statusWrite v).respond .done)
  /-- an ARG write -/
  | argument (v w : Word) (he : s' = ({ s with regs := { s.regs with arg0 := v, arg1 := w } } : State).respond .done)
  /-- a BUF read -/
  | bufRead (h u : Bool) (d : Nat) (v : Byte) (hu : s.faultUninit = true → u = true)
      (he : s' = (({ s with faultUninit := u, draws := d } : State).noteHazard h).respond (.byte v))
  /-- a BUF write -/
  | bufWrite (h : Bool) (a : Nat) (v : Byte) (ha : a < s.params.bufBytes)
      (he : s' = ((s.noteHazard h).bufWrite a v).respond .done)

theorem hostStep_cases (op : HostOp) (s : State) : HostEffect op s (hostStep op s) := by
  cases op with
  | rd width offset =>
    simp only [hostStep, hostRd]
    split
    · exact .answered _ rfl
    · exact .answered _ rfl
  | wr width offset v =>
    simp only [hostStep, hostWr]
    split
    · exact .answered _ rfl
    · next r hr =>
      obtain ⟨rfl, rfl⟩ := regAccess_some hr
      cases r with
      | cmd =>
        simp only [State.writeReg, State.writeCmd]
        by_cases hp : s.eng.phase = .idle
        · rw [if_neg (fun h => State.busy_iff.1 h hp)]; exact .accepted v rfl hp rfl
        · rw [if_pos (State.busy_iff.2 hp)]; exact .dropped v rfl hp rfl
      | status => exact .status v rfl rfl
      | arg0 => exact .argument v s.regs.arg1 rfl
      | arg1 => exact .argument s.regs.arg0 v rfl
      | id => exact .answered .done rfl
      | hdrw => exact .answered .done rfl
      | hdrx => exact .answered .done rfl
      | afr => exact .answered .done rfl
      | afc => exact .answered .done rfl
      | plr => exact .answered .done rfl
      | trkr => exact .answered .done rfl
      | pktn => exact .answered .done rfl
      | cfgn => exact .answered .done rfl
      | cfgb => exact .answered .done rfl
      | res38 => exact .answered .done rfl
      | res3c => exact .answered .done rfl
  | rdb width a =>
    simp only [hostStep, hostRdb]
    split
    · exact .answered _ rfl
    · obtain ⟨u, d, e, hu⟩ := State.bufRead_state a s
      refine .bufRead (s.hazardRead a) u d (s.bufRead a).1 hu ?_
      rw [e]
  | wrb width a v =>
    simp only [hostStep, hostWrb]
    split
    · exact .answered _ rfl
    · next h =>
      refine .bufWrite (s.hazardWrite a) a v ?_ rfl
      simp only [State.bufAccessError, decide_eq_true_eq, not_or] at h
      omega

/-- A bus access is nothing, or one host transaction. -/
theorem busStep_cases (acc : BusAccess) (s : State) :
    busStep acc s = s ∨ ∃ op, busDecode s.params acc = some op ∧ busStep acc s = hostStep op s := by
  unfold busStep
  split
  · next op h => exact .inr ⟨op, h, rfl⟩
  · exact .inl rfl

end Sys2Proof.Machine
end

