-- ==== Sys2Proof/Laws/PerInstr.lean ====
section
/-! SUPPORT. The statement made per instruction: every command's word carries its opcode in bits 31:28 and zeros in the
reserved field, bits 18:0 (30_encoding.md R70, R71). -/

namespace Sys2Proof.Laws.EncodeOpcode

/-- The word of a well-formed command has the command's OPC, and RSV is 0. -/
def Statement (i : Instr) : Prop :=
  i.wellFormed = true → opcField (encode i) = i.opc ∧ encode i &&& 0x0007FFFF#32 = 0#32

/-- A slot index that fits the TRK field touches no other field. -/
theorem trkBits_frame : ∀ t < 256, opcField (trkBits t) = 0#4 ∧ trkBits t &&& 0x0007FFFF#32 = 0#32 := by decide +kernel

/-- A match value with a slot index put in. -/
theorem with_trk {m : Word} {t : Nat} (h : trkFits t = true) :
    opcField (m ||| trkBits t) = opcField m ∧ (m ||| trkBits t) &&& 0x0007FFFF#32 = m &&& 0x0007FFFF#32 := by
  obtain ⟨h1, h2⟩ := trkBits_frame t (of_decide_eq_true h)
  unfold opcField at *
  rw [BitVec.extractLsb'_or, h1, BitVec.and_or_distrib_right, h2]
  simp

theorem nop : Statement .nop := fun _ => by decide
theorem trkCfg (t : Nat) : Statement (.trkCfg t) := fun h => with_trk (m := 0x10000000#32) h
theorem trkFree (t : Nat) : Statement (.trkFree t) := fun h => with_trk (m := 0x20000000#32) h
theorem trkSetcc (t : Nat) : Statement (.trkSetcc t) := fun h => with_trk (m := 0x30000000#32) h
theorem trkRead (t : Nat) : Statement (.trkRead t) := fun h => with_trk (m := 0x40000000#32) h
theorem hdrEnc : Statement .hdrEnc := fun _ => by decide
theorem hdrDec : Statement .hdrDec := fun _ => by decide
theorem afEnc : Statement .afEnc := fun _ => by decide
theorem afDec : Statement .afDec := fun _ => by decide
theorem packetize (t : Nat) (fp : Bool) : Statement (.packetize t fp) := fun h => by
  have e : encode (.packetize t fp) = (0x90000000#32 ||| fpBits fp) ||| trkBits t := by
    rw [encode, BitVec.or_assoc, BitVec.or_comm (trkBits t), ← BitVec.or_assoc]
  rw [e]
  have := with_trk (m := 0x90000000#32 ||| fpBits fp) h
  cases fp <;> exact this
theorem parse : Statement .parse := fun _ => by decide

end Sys2Proof.Laws.EncodeOpcode
end

