-- ==== Sys2Proof/Tests/Slice0.lean ====
section
/-! SUPPORT. The model's own tests: the smoke tests of WellFormed, words decoded as the spec writes them, vectors of
95_test_vectors.md, each one step, and a witness for every statement that has hypotheses. -/

open Sys2Proof Sys2Proof.Machine

namespace Sys2Proof.Tests

/-! ### Helpers -/

/-- The state of an outcome, where it has one. -/
def stateOf (r : Result) : Option State :=
  match r with
  | .next s => some s
  | .fault _ => none
  | .refused _ => none

/-- The reset state with slot 0 live: trk[0] = {1, 0x100, 0x0F, cc} (95_test_vectors.md 2.5). -/
def live (cc : BitVec 4) : State :=
  { State.reset with trks := [⟨true, 0x100#13, 0x0F#8, cc⟩, Track.empty, Track.empty, Track.empty] }

/-- A command accepted with these operands. -/
def given (w a0 a1 : Word) (s : State) : State :=
  { s with
    regs := { s.regs with cmd := w, arg0 := a0, arg1 := a1 }
    eng := { s.eng with phase := .start, cmd := w, a0 := a0, a1 := a1 } }

/-- Bytes written into BUF from address `a` on. -/
def written (a : Nat) (bytes : List Byte) (s : State) : State := s.bufWriteList a bytes

/-- What one step of the given command leaves. -/
def after (w a0 a1 : Word) (s : State) : Option State := stateOf (step (given w a0 a1 s))

/-- The registers CMD to PKTN that a test looks at, after one step. -/
def reads (w a0 a1 : Word) (s : State) (rs : List RegName) : Option (List Word) :=
  (after w a0 a1 s).map (fun t => rs.map (fun r => t.readReg r))

/-- Trk[0] live with counter 15 and the engine in the middle of PK-3: BUF[k] = k for 183 bytes, packet 0 emitted. -/
def running : State :=
  { live 0#4 with
    regs := { Regs.reset with cmd := 0x90000000#32, arg1 := 183#32 }
    eng := { phase := .run, cmd := 0x90000000#32, a0 := 0#32, a1 := 183#32, t := 0, src := 0, len := 183, n := 2,
             i := 1 }
    buf := (List.range 183).map (fun k => (k, BitVec.ofNat 8 k))
    out := [specPacket true 0x100 0 ((List.range 182).map (fun k => BitVec.ofNat 8 k))] }

/-! ### WellFormed: an ill-formed term for each check -/

theorem test_wf_trkCfg : (Instr.trkCfg 255).wellFormed = true ∧ (Instr.trkCfg 256).wellFormed = false := by decide
theorem test_wf_trkFree : (Instr.trkFree 255).wellFormed = true ∧ (Instr.trkFree 256).wellFormed = false := by decide
theorem test_wf_trkSetcc : (Instr.trkSetcc 255).wellFormed = true ∧ (Instr.trkSetcc 256).wellFormed = false := by
  decide
theorem test_wf_trkRead : (Instr.trkRead 255).wellFormed = true ∧ (Instr.trkRead 256).wellFormed = false := by decide
theorem test_wf_packetize :
    (Instr.packetize 255 true).wellFormed = true ∧ (Instr.packetize 256 true).wellFormed = false := by decide

/-! ### Decode: words written out from 30_encoding.md R70, R71 -/

/-- OPC 0001, TRK 00000010, FP 0, RSV 0 (R70): TRK_CFG t=2, the word of program P2. -/
theorem test_decode_trkCfg : decode 0b00010000001000000000000000000000#32 = .instr (.trkCfg 2) := by decide
/-- OPC 0010, TRK 00000100: TRK_FREE t=4 (TK-17). -/
theorem test_decode_trkFree : decode 0b00100000010000000000000000000000#32 = .instr (.trkFree 4) := by decide
/-- OPC 0011, TRK 10000001: TRK_SETCC t=129. -/
theorem test_decode_trkSetcc : decode 0b00111000000100000000000000000000#32 = .instr (.trkSetcc 129) := by decide
/-- OPC 0100, TRK 00001111: TRK_READ t=15 (TK-14). -/
theorem test_decode_trkRead : decode 0b01000000111100000000000000000000#32 = .instr (.trkRead 15) := by decide
/-- OPC 0000, 0101 to 1000 and 1010, every other bit 0 (R71). -/
theorem test_decode_plain :
    decode 0b00000000000000000000000000000000#32 = .instr .nop ∧
    decode 0b01010000000000000000000000000000#32 = .instr .hdrEnc ∧
    decode 0b01100000000000000000000000000000#32 = .instr .hdrDec ∧
    decode 0b01110000000000000000000000000000#32 = .instr .afEnc ∧
    decode 0b10000000000000000000000000000000#32 = .instr .afDec ∧
    decode 0b10100000000000000000000000000000#32 = .instr .parse := by decide
/-- OPC 1001, TRK 00000011, FP 1 (R70): PACKETIZE t=3 fp=1. -/
theorem test_decode_packetize : decode 0b10010000001110000000000000000000#32 = .instr (.packetize 3 true) := by decide
/-- DC-2 to DC-6 and DC-8 to DC-10. -/
theorem test_decode_illegal :
    [0x00000001#32, 0x00100000#32, 0x10080000#32, 0x50100000#32, 0x90000001#32, 0xAFF00000#32].all
      (fun w => decode w == .illegal .unusedFieldNonzero) = true ∧
    [0xB0000000#32, 0xFFFFFFFF#32].all (fun w => decode w == .illegal .reservedOpcode) = true := by decide
/-- The words of R71 with t and fp put in, from R91 and R106. -/
theorem test_encode : encode (.trkCfg 4) = 0x10400000#32 ∧ encode (.packetize 1 true) = 0x90180000#32 := by decide
/-- The table's numbering: one word of 32 bits, and none longer (R83). -/
theorem test_decodeTableWord :
    decodeTableWord 32 0x10200000 = some (.trkCfg 2) ∧ decodeTableWord 32 0xB0000000 = none ∧
    decodeTableWord 40 0 = none := by decide

/-! ### Tables and memory -/

/-- The code values of R132. -/
theorem test_errCodes :
    [ErrCode.ok, .wrongSize, .malformedHeader, .truncatedAf, .inconsistentAfLen, .afZeroLen, .pidRange, .badTrack,
      .range, .badArg, .illegalCmd].map ErrCode.code =
    [0#4, 1#4, 2#4, 3#4, 4#4, 5#4, 6#4, 7#4, 8#4, 9#4, 10#4] := by decide
/-- R78: every raw adaptation-mode value names one variant, and only 0b00 the reserved one. -/
theorem test_adaptModes :
    [0b00#2, 0b01#2, 0b10#2, 0b11#2].map AdaptMode.ofCode =
      [.reserved, .payloadOnly, .adaptationOnly, .adaptationAndPayload] ∧
    ∀ r : BitVec 2, (AdaptMode.ofCode r).code = r := by decide
/-- Reset memory has the canonical form. -/
theorem test_reset_memory : State.reset.buf.wf := by decide
/-- R12: ceil_div(0, b) = 0; S4: ceil(5842/182) = 33. -/
theorem test_ceilDiv : ceilDiv 0 182 = 0 ∧ ceilDiv 5842 182 = 33 ∧ ceilDiv 182 182 = 1 ∧ ceilDiv 183 182 = 2 := by
  decide

/-! ### Commands, one step each -/

/-- R87's example: STATUS 0x00000A10, then NOP gives 0. -/
theorem test_nop :
    ({ State.reset with regs := { Regs.reset with err := .wrongSize, lopc := 0xA#4 } } : State).statusWord
      = 0x00000A10#32 ∧
    reads 0x00000000#32 0#32 0#32
      { State.reset with regs := { Regs.reset with err := .wrongSize, lopc := 0xA#4 } } [.status]
      = some [0x00000000#32] := by decide
/-- TK-1. -/
theorem test_trkCfg :
    (after 0x10000000#32 0x100#32 0x0F#32 State.reset).map (fun t => (t.trk 0, t.statusWord))
      = some (⟨true, 0x100#13, 0x0F#8, 0#4⟩, 0x00000100#32) := by decide
/-- TK-6: PID_RANGE wins over BAD_ARG. -/
theorem test_trkCfg_order :
    reads 0x10100000#32 0x2000#32 0x100#32 (live 0#4) [.status] = some [0x00000160#32] := by decide
/-- R92's example. -/
theorem test_trkFree :
    (after 0x20000000#32 0#32 0#32 (live 7#4)).map (fun t => (t.trk 0, t.statusWord))
      = some (⟨false, 0#13, 0#8, 0#4⟩, 0x00000200#32) := by decide
/-- TK-17: slot 4 does not exist. -/
theorem test_trkFree_badTrack :
    reads 0x20400000#32 0#32 0#32 (live 7#4) [.status] = some [0x00000270#32] := by decide
/-- S5 and TK-9: 255 stores 15. -/
theorem test_trkSetcc :
    (after 0x30000000#32 0xFF#32 0#32 (live 0#4)).map (fun t => (t.trk 0).cc) = some 0xF#4 := by decide
/-- TK-12: slot 2 is invalid. -/
theorem test_trkSetcc_badTrack :
    reads 0x30200000#32 7#32 0#32 (live 0#4) [.status] = some [0x00000370#32] := by decide
/-- R94's example: trk[2] = {1, 0x1FFF, 0x1B, 9}. -/
theorem test_trkRead :
    reads 0x40200000#32 0#32 0#32
      { State.reset with trks := [Track.empty, Track.empty, ⟨true, 0x1FFF#13, 0x1B#8, 9#4⟩, Track.empty] }
      [.trkr, .status] = some [0x1B099FFF#32, 0x00000400#32] := by decide
/-- TK-14. -/
theorem test_trkRead_badTrack :
    reads 0x40F00000#32 0#32 0#32 (live 0#4) [.trkr, .status] = some [0#32, 0x00000470#32] := by decide
/-- HC-1. -/
theorem test_hdrEnc :
    reads 0x50000000#32 0x00BFFF6A#32 0#32 State.reset [.hdrw, .hdrx, .status]
      = some [0x47BFFF6A#32, 1#32, 0x00000500#32] := by decide
/-- HC-4. -/
theorem test_hdrEnc_badArg :
    reads 0x50000000#32 0x00000080#32 0#32 State.reset [.hdrw, .status] = some [0#32, 0x00000590#32] := by decide
/-- HC-9: SCR 0b10. -/
theorem test_hdrDec :
    reads 0x60000000#32 0x47BFFFAA#32 0#32 State.reset [.hdrw, .hdrx, .status]
      = some [0x47BFFFAA#32, 1#32, 0x00000600#32] := by decide
/-- HC-13: the sync constant in the wrong byte. -/
theorem test_hdrDec_malformed :
    reads 0x60000000#32 0x00000047#32 0#32 State.reset [.hdrw, .status] = some [0#32, 0x00000620#32] := by decide
/-- AF-1. -/
theorem test_afEnc :
    (after 0x70000000#32 3#32 0x40#32 State.reset).map (fun t => (t.buf, [t.regs.afr, t.regs.afc, t.statusWord]))
      = some ([(0x40, 0x04#8), (0x41, 0x00#8), (0x42, 0xFF#8), (0x43, 0xFF#8), (0x44, 0xFF#8)],
          [0x00030004#32, 5#32, 0x00000700#32]) := by decide
/-- AF-8: BAD_ARG before RANGE. -/
theorem test_afEnc_order :
    reads 0x70000000#32 255#32 1023#32 State.reset [.status] = some [0x00000790#32] := by decide
/-- AD-9: the stuffing bytes are not read. -/
theorem test_afDec :
    (after 0x80000000#32 0x40#32 5#32 (written 0x40 [0x04#8, 0x00#8] State.reset)).map
      (fun t => ([t.regs.afr, t.regs.afc, t.statusWord], t.faultUninit))
      = some ([0x00030004#32, 5#32, 0x00000800#32], false) := by decide
/-- AD-2: R = 4 < 1 + fl. -/
theorem test_afDec_truncated :
    reads 0x80000000#32 0x40#32 4#32 (written 0x40 [0x04#8, 0x00#8] State.reset) [.afr, .status]
      = some [0#32, 0x00000830#32] := by decide
/-- PK-1: one payload byte 00. -/
theorem test_packetize :
    (after 0x90000000#32 0#32 1#32 (written 0 [0x00#8] (live 0#4))).map
      (fun t => (t.out, (t.trk 0).cc, [t.regs.pktn, t.statusWord]))
      = some ([[0x47#8, 0x41#8, 0x00#8, 0x31#8, 0xB6#8, 0x00#8] ++ List.replicate 181 0xFF#8 ++ [0x00#8]], 1#4,
          [1#32, 0x00000900#32]) := by decide +kernel
/-- PK-3, its second engine step: packet 1 and completion. -/
theorem test_packetize_last :
    (stateOf (step running)).map (fun t => (t.out.getD 1 [], (t.trk 0).cc, [t.regs.pktn, t.statusWord]))
      = some ([0x47#8, 0x01#8, 0x00#8, 0x31#8, 0xB6#8, 0x00#8] ++ List.replicate 181 0xFF#8 ++ [0xB6#8], 1#4,
          [2#32, 0x00000900#32]) := by decide +kernel
/-- PA-11: the adaptation field is read whatever AM says, and only six bytes are. -/
theorem test_parse :
    (after 0xA0000000#32 0x200#32 188#32
      (written 0x200 [0x47#8, 0x01#8, 0x00#8, 0x10#8, 0x20#8, 0x55#8] State.reset)).map
      (fun t => ([t.regs.hdrw, t.regs.hdrx, t.regs.afr, t.regs.afc, t.regs.plr, t.statusWord], t.faultUninit))
      = some ([0x47010010#32, 0#32, 0x001F5520#32, 0x21#32, 0x00009725#32, 0x00000A00#32], false) := by decide
/-- PA-5: fl = 184. -/
theorem test_parse_truncated :
    reads 0xA0000000#32 0x200#32 188#32
      (written 0x200 [0x47#8, 0x00#8, 0x00#8, 0x10#8, 0xB8#8, 0x00#8] State.reset) [.hdrw, .plr, .status]
      = some [0#32, 0#32, 0x00000A30#32] := by decide
/-- DC-4: an ILLEGAL word's STATUS. -/
theorem test_illegal : reads 0x10080000#32 0#32 0#32 State.reset [.status] = some [0x000001A0#32] := by decide

/-! ### The host, hazards and reset -/

/-- HT-1. -/
theorem test_reset_registers :
    [RegName.id, .cfgn, .cfgb, .status].map (fun r => State.reset.readReg r)
      = [0x54534601#32, 4#32, 0x400#32, 0#32] := by decide
/-- HT-2, HT-3, HT-6: bus errors. -/
theorem test_bus_errors :
    ((hostStep (.rd 32 0x02) State.reset).results, (hostStep (.rd 32 0x40) State.reset).results,
      (hostStep (.rdb 8 1024) State.reset).results) = ([.busError], [.busError], [.busError]) := by decide
/-- HT-8: a CMD write is dropped while BUSY; ERR and LOPC keep the previous command's values. -/
theorem test_cmd_dropped :
    (hostStep (.wr 32 0x04 0#32) running).statusWord = 0x00000003#32 ∧
    (hostStep (.wr 32 0x04 0#32) running).regs.cmd = 0x90000000#32 := by decide +kernel
/-- HT-9: `clrovr`. -/
theorem test_clrovr :
    (hostStep pseudoClrovr { State.reset with regs := { Regs.reset with ovr := true, lopc := 9#4 } }).statusWord
      = 0x00000900#32 := by decide
/-- HT-11, HT-12 with PK-3's footprint [0, 183): a write inside it is a hazard, one outside is not. -/
theorem test_hazard_write :
    (hostStep (.wrb 8 182 0x00#8) running).faultHaz = true ∧ (hostStep (.wrb 8 183 0x00#8) running).faultHaz = false := by
  decide +kernel
/-- HT-13: a read inside AF_ENC's destination is a hazard; HT-14: a PARSE with L = 187 has no footprint. -/
theorem test_hazard_read :
    (hostStep (.rdb 8 0x42) (written 0x42 [0x00#8] (given 0x70000000#32 3#32 0x40#32 State.reset))).faultHaz = true ∧
    (hostStep (.wrb 8 0x200 0x00#8) (given 0xA0000000#32 0x200#32 187#32 State.reset)).faultHaz = false := by decide
/-- RS-1: a reset in the middle of a PACKETIZE keeps OUT and nothing else. -/
theorem test_reset_midway :
    (stateOf (step { running with inputs := [.reset] })).map
      (fun t => t.out == running.out && t.statusWord == 0#32 && t.trks == List.replicate 4 Track.empty
        && t.eng.phase == .idle && t.buf == []) = some true := by decide +kernel
/-- P1 line 3: the pseudo-operation `cmd TRK_CFG t=0`. -/
theorem test_pseudo_cmd :
    pseudoCmd (.trkCfg 0) = .wr 32 0x04 0x10000000#32 ∧
    pseudoFill 0 2 (fun k => k) = [.wrb 8 0 0x00#8, .wrb 8 1 0x01#8] := by decide

/-! ### Witnesses: for every statement with hypotheses, a state and operands that meet them together, clause by clause,
at boundary values. `live 15` has slot 0 live and slots 1 to 3 free; slots 4 and up do not exist. -/

/-- A legal instance whose CC_INIT is 5, so that TRK_CFG changes a counter. -/
def reset5 : State := State.resetOf { Params.vectors with ccInit := 5 }

/-- The reset state keeps the invariant. -/
theorem witness_reset_inv : State.reset.Inv where
  legal := by decide
  table := by decide
  freeSlots := by decide
  bufWf := by decide
  bufRange := by decide
  packets := by decide
  readback := rfl
  run := fun h => by cases h
  reserved := ⟨by decide, by decide, by decide, by decide, by decide, by decide⟩
  resultRegs := ⟨by decide, by decide, by decide⟩

/-- So does the state with a command accepted on a live slot. -/
theorem witness_given_inv (w a0 a1 : Word) : (given w a0 a1 (live 15#4)).Inv where
  legal := (by decide : Params.vectors.Legal)
  table := rfl
  freeSlots := (by decide : ∀ x ∈ (live 15#4).trks, x.valid = false → x = Track.empty)
  bufWf := (by decide : Memory.wf [])
  bufRange := fun c h => by cases h
  packets := fun p h => by cases h
  readback := rfl
  run := fun h => by cases h
  reserved := ⟨witness_reset_inv.reserved.1, witness_reset_inv.reserved.2, witness_reset_inv.reserved.3,
    witness_reset_inv.reserved.4, witness_reset_inv.reserved.5, witness_reset_inv.reserved.6⟩
  resultRegs := ⟨.inl rfl, .inl ⟨rfl, rfl⟩, .inl rfl⟩

/-- And a state in the middle of a PACKETIZE. -/
theorem witness_running_inv : running.Inv where
  legal := (by decide : Params.vectors.Legal)
  table := rfl
  freeSlots := (by decide : ∀ x ∈ (live 0#4).trks, x.valid = false → x = Track.empty)
  bufWf := by decide +kernel
  bufRange := by decide +kernel
  packets := by decide +kernel
  readback := rfl
  run := fun _ =>
    { command := ⟨false, (by decide : decode 0x90000000#32 = .instr (.packetize 0 false))⟩, slot := by decide,
      live := rfl, source := rfl, length := rfl, range := by decide, count := by decide, index := by decide }
  reserved := ⟨witness_reset_inv.reserved.1, witness_reset_inv.reserved.2, witness_reset_inv.reserved.3,
    witness_reset_inv.reserved.4, witness_reset_inv.reserved.5, witness_reset_inv.reserved.6⟩
  resultRegs := ⟨.inl rfl, .inl ⟨rfl, rfl⟩, .inl rfl⟩

theorem witness_DecodeEncodeRoundTrip :
    (Instr.trkCfg 255).wellFormed = true ∧ (Instr.packetize 255 true).wellFormed = true ∧ Instr.nop.wellFormed = true := by
  decide
theorem witness_EncodeDecodeRoundTrip :
    decode 0x9FF80000#32 = .instr (.packetize 255 true) ∧ decode 0x00000000#32 = .instr .nop := by decide
theorem witness_DecodeFollowsOpcodeMap :
    0x00000000#32 &&& 0xFFFFFFFF#32 = 0x00000000#32 ∧ 0x1FF00000#32 &&& 0xF00FFFFF#32 = 0x10000000#32 ∧
    0x2FF00000#32 &&& 0xF00FFFFF#32 = 0x20000000#32 ∧ 0x3FF00000#32 &&& 0xF00FFFFF#32 = 0x30000000#32 ∧
    0x4FF00000#32 &&& 0xF00FFFFF#32 = 0x40000000#32 ∧ 0x50000000#32 &&& 0xFFFFFFFF#32 = 0x50000000#32 ∧
    0x60000000#32 &&& 0xFFFFFFFF#32 = 0x60000000#32 ∧ 0x70000000#32 &&& 0xFFFFFFFF#32 = 0x70000000#32 ∧
    0x80000000#32 &&& 0xFFFFFFFF#32 = 0x80000000#32 ∧ 0x9FF80000#32 &&& 0xF007FFFF#32 = 0x90000000#32 ∧
    0xA0000000#32 &&& 0xFFFFFFFF#32 = 0xA0000000#32 := by decide
theorem witness_DecoderTotalAndUnambiguous :
    (∃ r ∈ opcodeMap, 0x9FF80000#32 &&& r.mask = r.pattern) ∧
    (∀ r ∈ opcodeMap, 0xB0000000#32 &&& r.mask ≠ r.pattern) ∧
    (given 0xB0000000#32 0#32 0#32 State.reset).eng.phase = .start ∧
    (given 0xB0000000#32 0#32 0#32 State.reset).eng.cmd = 0xB0000000#32 := by decide
theorem witness_ReservedAndUnusedFieldsAreIllegal :
    (given 0xB0000000#32 0#32 0#32 State.reset).eng.phase = .start ∧ 0xB ≤ (0xB0000000#32).toNat / 2 ^ 28 ∧
    (0xA0000001#32).toNat / 2 ^ 28 ≤ 0xA ∧ (0xA0000001#32).toNat % 2 ^ 19 ≠ 0 ∧
    (0xA0100000#32).toNat / 2 ^ 20 % 256 ≠ 0 ∧
    (0xA0100000#32).toNat / 2 ^ 28 ∈ [0x0, 0x5, 0x6, 0x7, 0x8, 0xA] ∧
    (0x10080000#32).toNat / 2 ^ 19 % 2 = 1 ∧ (0x10080000#32).toNat / 2 ^ 28 ≠ 0x9 ∧
    decode 0x00000000#32 = .instr .nop := by decide
theorem witness_IllegalCommandCompletes :
    (given 0xFFFFFFFF#32 0#32 0#32 State.reset).eng.phase = .start ∧
    decode (given 0xFFFFFFFF#32 0#32 0#32 State.reset).eng.cmd = .illegal .reservedOpcode := by decide
theorem witness_StepRunsDecodedCommand :
    (given 0x50000000#32 0#32 0#32 State.reset).eng.phase = .start ∧
    decode (given 0x50000000#32 0#32 0#32 State.reset).eng.cmd = .instr .hdrEnc ∧
    (given 0x50000000#32 0#32 0#32 State.reset).inputs = [] ∧
    ({ given 0x50000000#32 0#32 0#32 State.reset with inputs := [.engine, .reset] } : State).inputs
      = .engine :: [.reset] := by decide
theorem witness_StepTakesOldestEvent :
    ({ State.reset with inputs := [.host (.rd 32 0x3C)] } : State).inputs = .host (.rd 32 0x3C) :: [] ∧
    ({ State.reset with inputs := [.bus ⟨0, 32, none⟩] } : State).inputs = .bus ⟨0, 32, none⟩ :: [] ∧
    ({ State.reset with inputs := [.reset] } : State).inputs = .reset :: [] ∧
    ({ State.reset with inputs := [.engine] } : State).inputs = .engine :: [] ∧
    State.reset.inputs = [] ∧ State.reset.eng.phase = .idle := by decide
theorem witness_PlacedWordRuns : (Instr.trkRead 255).wellFormed = true := by decide
theorem witness_NopOnlyCompletes :
    (0x0FFFFFFF#32).toNat / 2 ^ 28 = 0 ∧ 0x0FFFFFFF#32 ≠ 0#32 ∧
    (given 0x0FFFFFFF#32 0#32 0#32 State.reset).eng.phase = .start ∧
    (given 0x0FFFFFFF#32 0#32 0#32 State.reset).eng.cmd = 0x0FFFFFFF#32 := by decide
theorem witness_TrkCfgCreatesTrack :
    255 < 256 ∧ 0x1FF00000#32 &&& 0xF00FFFFF#32 = 0x10000000#32 ∧ (live 15#4).params.nTracks ≤ 4 ∧
    (0 < (live 15#4).params.nTracks ∧ ((live 15#4).trk 0).valid = true) ∧
    (3 < (live 15#4).params.nTracks ∧ ((live 15#4).trk 3).valid = false) ∧
    2 ^ 13 ≤ (given 0#32 0x2000#32 0#32 (live 15#4)).eng.a0.toNat ∧
    ((given 0#32 0x1FFF#32 0x100#32 (live 15#4)).eng.a0.toNat < 2 ^ 13 ∧
      2 ^ 8 ≤ (given 0#32 0x1FFF#32 0x100#32 (live 15#4)).eng.a1.toNat) ∧
    ((given 0#32 0x1FFF#32 0xFF#32 (live 15#4)).eng.a0.toNat < 2 ^ 13 ∧
      (given 0#32 0x1FFF#32 0xFF#32 (live 15#4)).eng.a1.toNat < 2 ^ 8) := by decide
theorem witness_TrkFreeClearsSlot :
    255 < 256 ∧ 0x2FF00000#32 &&& 0xF00FFFFF#32 = 0x20000000#32 ∧ (live 15#4).params.nTracks ≤ 4 ∧ 0 < (live 15#4).params.nTracks ∧
    (3 < (given 0#32 0#32 0#32 (live 15#4)).params.nTracks ∧ (given 0#32 0#32 0#32 (live 15#4)).Inv ∧
      ((given 0#32 0#32 0#32 (live 15#4)).trk 3).valid = false) :=
  ⟨by decide, by decide, by decide, by decide, by decide, witness_given_inv _ _ _, rfl⟩
theorem witness_TrkSetccSeedsCounter :
    255 < 256 ∧ 0x3FF00000#32 &&& 0xF00FFFFF#32 = 0x30000000#32 ∧ (live 15#4).params.nTracks ≤ 4 ∧
    (3 < (live 15#4).params.nTracks ∧ ((live 15#4).trk 3).valid = false) ∧
    (0 < (live 15#4).params.nTracks ∧ ((live 15#4).trk 0).valid = true) := by decide
theorem witness_TrkReadSnapshotsSlot :
    255 < 256 ∧ 0x4FF00000#32 &&& 0xF00FFFFF#32 = 0x40000000#32 ∧ (live 15#4).params.nTracks ≤ 4 ∧ 0 < (live 15#4).params.nTracks ∧
    (3 < (given 0#32 0#32 0#32 (live 15#4)).params.nTracks ∧ (given 0#32 0#32 0#32 (live 15#4)).Inv ∧
      ((given 0#32 0#32 0#32 (live 15#4)).trk 3).valid = false) :=
  ⟨by decide, by decide, by decide, by decide, by decide, witness_given_inv _ _ _, rfl⟩
theorem witness_SlotWriteReadsBack : 3 < State.reset.params.nTracks ∧
    State.reset.trks.length = State.reset.params.nTracks := by decide
theorem witness_HdrEncEncodesHeader :
    2 ^ 24 ≤ (given 0#32 0x01000000#32 0#32 State.reset).eng.a0.toNat ∧
    (given 0#32 0x00000080#32 0#32 State.reset).eng.a0.getLsbD 7 = true ∧
    ((given 0#32 0x00FFFF7F#32 0#32 State.reset).eng.a0.toNat < 2 ^ 24 ∧
      (given 0#32 0x00FFFF7F#32 0#32 State.reset).eng.a0.getLsbD 7 = false) := by decide
theorem witness_HdrDecDecodesHeader :
    (given 0#32 0x46FFFFFF#32 0#32 State.reset).eng.a0.toNat / 2 ^ 24 ≠ 0x47 ∧
    (given 0#32 0x470000C0#32 0#32 State.reset).eng.a0.toNat / 2 ^ 24 = 0x47 := by decide
theorem witness_HeaderRoundTrip :
    ((given 0#32 0x00FFFF7F#32 0#32 State.reset).eng.a0.toNat < 2 ^ 24 ∧
      (given 0#32 0x00FFFF7F#32 0#32 State.reset).eng.a0.getLsbD 7 = false ∧
      ∃ s1, exec .hdrEnc (given 0#32 0x00FFFF7F#32 0#32 State.reset) = .next s1 ∧
        (given 0#32 0x47FFFF7F#32 0#32 s1).eng.a0 = s1.regs.hdrw) ∧
    ((given 0#32 0x47FFFF7F#32 0#32 State.reset).eng.a0.toNat / 2 ^ 24 = 0x47 ∧
      (given 0#32 0x47FFFF7F#32 0#32 State.reset).eng.a0.getLsbD 7 = false ∧
      ∃ s1, exec .hdrDec (given 0#32 0x47FFFF7F#32 0#32 State.reset) = .next s1 ∧
        (given 0#32 0x00FFFF7F#32 0#32 s1).eng.a0 = s1.regs.hdrw &&& 0x00FFFFFF#32) ∧
    ((given 0#32 0x47BFFFAA#32 0#32 State.reset).eng.a0.toNat / 2 ^ 24 = 0x47 ∧
      (given 0#32 0x47BFFFAA#32 0#32 State.reset).eng.a0.getLsbD 7 = true ∧
      ∃ s1, exec .hdrDec (given 0#32 0x47BFFFAA#32 0#32 State.reset) = .next s1 ∧
        (given 0#32 0x00BFFFAA#32 0#32 s1).eng.a0 = s1.regs.hdrw &&& 0x00FFFFFF#32) :=
  ⟨⟨by decide, by decide, _, rfl, by decide⟩, ⟨by decide, by decide, _, rfl, by decide⟩,
    by decide, by decide, _, rfl, by decide⟩
theorem witness_AfEncWritesField :
    254 < (given 0#32 255#32 0#32 State.reset).eng.a0.toNat ∧
    ((given 0#32 254#32 769#32 State.reset).eng.a0.toNat ≤ 254 ∧
      State.reset.params.bufBytes < (given 0#32 254#32 769#32 State.reset).eng.a1.toNat + 2
        + (given 0#32 254#32 769#32 State.reset).eng.a0.toNat) ∧
    ((given 0#32 254#32 768#32 State.reset).eng.a0.toNat ≤ 254 ∧
      (given 0#32 254#32 768#32 State.reset).eng.a1.toNat + 2
        + (given 0#32 254#32 768#32 State.reset).eng.a0.toNat ≤ State.reset.params.bufBytes) := by decide
theorem witness_AfDecDecodesField :
    State.reset.params.bufBytes < (1000#32).toNat + (25#32).toNat ∧
    ((1024#32).toNat + (0#32).toNat ≤ State.reset.params.bufBytes ∧ (0#32).toNat = 0) ∧
    ((1023#32).toNat + (1#32).toNat ≤ State.reset.params.bufBytes ∧ 1 ≤ (1#32).toNat) ∧
    (1#32).toNat < 1 + ((written 1023 [0x01#8] State.reset).bufRead 1023).1.toNat ∧
    (1 + ((written 1023 [0x00#8] State.reset).bufRead 1023).1.toNat ≤ (1#32).toNat ∧
      ((written 1023 [0x00#8] State.reset).bufRead 1023).1.toNat = 0) ∧
    (1 + ((written 0 [0xFF#8] State.reset).bufRead 0).1.toNat ≤ (256#32).toNat ∧
      ((written 0 [0xFF#8] State.reset).bufRead 0).1.toNat ≠ 0) := by decide
theorem witness_AdaptationFieldRoundTrip :
    (given 0#32 3#32 1019#32 State.reset).eng.a0.toNat ≤ 254 ∧
    (given 0#32 3#32 1019#32 State.reset).eng.a1.toNat + 2 + (given 0#32 3#32 1019#32 State.reset).eng.a0.toNat
      ≤ State.reset.params.bufBytes ∧
    ∃ s1, exec .afEnc (given 0#32 3#32 1019#32 State.reset) = .next s1 ∧
      (given 0#32 1019#32 5#32 s1).buf = s1.buf ∧ (given 0#32 1019#32 5#32 s1).params = s1.params ∧
      (given 0#32 1019#32 5#32 s1).eng.a0 = (given 0#32 3#32 1019#32 State.reset).eng.a1 ∧
      (given 0#32 1019#32 5#32 s1).eng.a1.toNat = 2 + (given 0#32 3#32 1019#32 State.reset).eng.a0.toNat :=
  ⟨by decide, by decide, _, rfl, rfl, rfl, rfl, by decide⟩
theorem witness_BufReadsYieldBytes :
    (written 1023 [0x5A#8] State.reset).buf.read 1023 = some 0x5A#8 ∧ State.reset.buf.read 1023 = none ∧
    (written 1022 [0x5A#8, 0xA5#8] State.reset).buf.holds 1022 [0x5A#8, 0xA5#8] ∧
    ({ State.reset with faultUninit := true } : State).faultUninit = true := by decide
theorem witness_UnwrittenReadsRunOn :
    ((given 0#32 1023#32 1#32 State.reset).eng.a0.toNat + (given 0#32 1023#32 1#32 State.reset).eng.a1.toNat
        ≤ State.reset.params.bufBytes ∧ 1 ≤ (given 0#32 1023#32 1#32 State.reset).eng.a1.toNat ∧
      State.reset.buf.read 1023 = none) ∧
    ((given 0#32 836#32 188#32 State.reset).eng.a1.toNat = 188 ∧
      (given 0#32 836#32 188#32 State.reset).eng.a0.toNat + 188 ≤ State.reset.params.bufBytes ∧
      State.reset.buf.read 836 = none) ∧
    (let s : State := { running with buf := [] }
     s.eng.phase = .run ∧ s.eng.i < s.eng.n ∧ 182 * s.eng.i < s.eng.len ∧ s.eng.t < s.params.nTracks ∧
      s.eng.src + 182 * s.eng.i + min 182 (s.eng.len - 182 * s.eng.i) ≤ s.params.bufBytes ∧
      0 < min 182 (s.eng.len - 182 * s.eng.i) ∧ s.buf.read (s.eng.src + 182 * s.eng.i + 0) = none) := by decide
theorem witness_PacketizeFirstStep :
    255 < 256 ∧ 0x9FF80000#32 &&& 0xF007FFFF#32 = 0x90000000#32 ∧ running.eng.phase = .run ∧
    (live 15#4).params.nTracks ≤ 4 ∧
    (3 < (live 15#4).params.nTracks ∧ ((live 15#4).trk 3).valid = false) ∧
    (0 < (live 15#4).params.nTracks ∧ ((live 15#4).trk 0).valid = true) ∧
    (live 15#4).params.bufBytes < (given 0#32 900#32 125#32 (live 15#4)).eng.a0.toNat
      + (given 0#32 900#32 125#32 (live 15#4)).eng.a1.toNat ∧
    ((given 0#32 1024#32 0#32 (live 15#4)).eng.a0.toNat + (given 0#32 1024#32 0#32 (live 15#4)).eng.a1.toNat
        ≤ (live 15#4).params.bufBytes ∧ (given 0#32 1024#32 0#32 (live 15#4)).eng.a1.toNat = 0) ∧
    ((given 0#32 841#32 183#32 (live 15#4)).eng.a0.toNat + (given 0#32 841#32 183#32 (live 15#4)).eng.a1.toNat
        ≤ (live 15#4).params.bufBytes ∧ 0 < (given 0#32 841#32 183#32 (live 15#4)).eng.a1.toNat) := by decide
theorem witness_PacketStepEmitsChunk :
    running.eng.phase = .run ∧ running.eng.i < running.eng.n ∧ 182 * running.eng.i < running.eng.len ∧
    running.eng.t < running.params.nTracks ∧
    running.eng.src + 182 * running.eng.i + min 182 (running.eng.len - 182 * running.eng.i)
      ≤ running.params.bufBytes := by decide
theorem witness_PacketStepStopsOutsideItsState :
    (let s : State := { running with eng := { running.eng with i := 2 } }
     s.eng.phase = .run ∧ s.eng.n ≤ s.eng.i) ∧
    (let s : State := { running with eng := { running.eng with len := 182 } }
     s.eng.phase = .run ∧ s.eng.len ≤ 182 * s.eng.i) ∧
    (let s : State := { running with eng := { running.eng with t := 4 } }
     s.eng.phase = .run ∧ s.eng.i < s.eng.n ∧ 182 * s.eng.i < s.eng.len ∧ s.params.nTracks ≤ s.eng.t) ∧
    (let s : State := { running with eng := { running.eng with src := 842 } }
     s.eng.phase = .run ∧ s.eng.i < s.eng.n ∧ 182 * s.eng.i < s.eng.len ∧ s.eng.t < s.params.nTracks ∧
      s.params.bufBytes < s.eng.src + 182 * s.eng.i + min 182 (s.eng.len - 182 * s.eng.i)) := by decide

/-- PACKETIZE of the byte 0x47 at address 0 on a live slot with counter 15. -/
def packetizing : State := given 0x90080000#32 0#32 1#32 (written 0 [0x47#8] (live 15#4))

theorem witness_PacketizeEmitsEveryChunk :
    packetizing.inputs = [] ∧ packetizing.eng.phase = .start ∧
    decode packetizing.eng.cmd = .instr (.packetize 0 true) ∧
    packetizing.trks.length = packetizing.params.nTracks ∧ 0 < packetizing.params.nTracks ∧
    (packetizing.trk 0).valid = true ∧ [0x47#8].length = packetizing.eng.a1.toNat ∧
    packetizing.eng.a0.toNat + packetizing.eng.a1.toNat ≤ packetizing.params.bufBytes ∧
    packetizing.buf.holds packetizing.eng.a0.toNat [0x47#8] ∧ 1 ≤ 1 ∧ 1 ≤ (packetizing.eng.a1.toNat + 181) / 182 := by
  decide
theorem witness_PacketizeOutputLaws :
    (packetizing.inputs = [] ∧ packetizing.eng.phase = .start ∧
      decode packetizing.eng.cmd = .instr (.packetize 0 true) ∧
      packetizing.trks.length = packetizing.params.nTracks ∧ 0 < packetizing.params.nTracks ∧
      (packetizing.trk 0).valid = true ∧ [0x47#8].length = packetizing.eng.a1.toNat ∧
      packetizing.eng.a0.toNat + packetizing.eng.a1.toNat ≤ packetizing.params.bufBytes ∧
      packetizing.buf.holds packetizing.eng.a0.toNat [0x47#8] ∧ 0 < [0x47#8].length) ∧
    ∃ s', runSteps ((packetizing.eng.a1.toNat + 181) / 182) packetizing = .next s' :=
  ⟨by decide, _, rfl⟩
theorem witness_ForcePusiHasNoEffect :
    (packetizing.eng.phase ≠ .idle ∧ decode packetizing.eng.cmd = .instr (.packetize 0 true) ∧
      ∃ s', engineStep packetizing = .next s') ∧
    (running.eng.phase ≠ .idle ∧ decode running.eng.cmd = .instr (.packetize 0 false) ∧
      ∃ s', engineStep running = .next s') := ⟨⟨by decide, by decide, _, rfl⟩, by decide, by decide, _, rfl⟩
theorem witness_ParseReadsPacket :
    (given 0#32 0#32 187#32 State.reset).eng.a1.toNat ≠ 188 ∧
    ((given 0#32 837#32 188#32 State.reset).eng.a1.toNat = 188 ∧
      State.reset.params.bufBytes < (given 0#32 837#32 188#32 State.reset).eng.a0.toNat + 188) ∧
    ((given 0#32 836#32 188#32 State.reset).eng.a1.toNat = 188 ∧
      (given 0#32 836#32 188#32 State.reset).eng.a0.toNat + 188 ≤ State.reset.params.bufBytes) ∧
    ((written 836 [0x46#8] State.reset).bufRead 836).1 ≠ 0x47#8 ∧
    (let s := written 836 [0x47#8, 0x00#8, 0x00#8, 0x10#8, 0xB8#8] State.reset
     (s.bufRead 836).1 = 0x47#8 ∧ 183 < (s.bufRead (836 + 4)).1.toNat) ∧
    (let s := written 836 [0x47#8, 0x00#8, 0x00#8, 0x10#8, 0x00#8] State.reset
     (s.bufRead 836).1 = 0x47#8 ∧ (s.bufRead (836 + 4)).1.toNat = 0) ∧
    (let s := written 836 [0x47#8, 0x00#8, 0x00#8, 0x10#8, 0xB7#8] State.reset
     (s.bufRead 836).1 = 0x47#8 ∧ 1 ≤ (s.bufRead (836 + 4)).1.toNat ∧ (s.bufRead (836 + 4)).1.toNat ≤ 183) := by
  decide
theorem witness_InconsistentLengthUnreachable :
    ∃ s', exec .parse (given 0xA0000000#32 0#32 187#32 State.reset) = .next s' := ⟨_, rfl⟩

/-- The packet that `packetizing` emits. -/
def packet0 : List Byte := specPacket true 0x100 16 [0x47#8]

theorem witness_ParseInvertsPacketize :
    (∃ s0', engineStep packetizing = .next s0' ∧ s0'.out = packetizing.out ++ [packet0]) ∧
    (given 0xA0000000#32 836#32 188#32 (written 836 packet0 State.reset)).eng.a1.toNat = 188 ∧
    (given 0xA0000000#32 836#32 188#32 (written 836 packet0 State.reset)).eng.a0.toNat + 188
      ≤ State.reset.params.bufBytes ∧
    (written 836 packet0 State.reset).buf.holds 836 packet0 :=
  ⟨⟨_, rfl, by decide +kernel⟩, by decide +kernel, by decide +kernel, by decide +kernel⟩
theorem witness_FailureAtomicity :
    (given 0xA0000000#32 0#32 187#32 State.reset).eng.phase ≠ .idle ∧
    (∃ s', engineStep (given 0xA0000000#32 0#32 187#32 State.reset) = .next s' ∧ s'.eng.phase = .idle ∧
      s'.regs.err ≠ .ok) ∧
    (∃ s', engineStep (given 0xB0000000#32 0#32 0#32 State.reset) = .next s' ∧ s'.eng.phase = .idle ∧
      s'.regs.err ≠ .ok) ∧
    (∃ m : Memory, let s : State := { given 0xA0000000#32 836#32 188#32 State.reset with buf := m, faultUninit := true }
      ∃ s', engineStep s = .next s' ∧ s'.eng.phase = .idle ∧ s'.regs.err ≠ .ok ∧ s.faultUninit = true) :=
  ⟨by decide, ⟨_, rfl, by decide, by decide⟩, ⟨_, rfl, by decide, by decide⟩,
    [(836, 0x46#8)], _, rfl, by decide, by decide, rfl⟩
theorem witness_OtherSlotsNeitherReadNorWritten :
    (∀ t, Instr.trkFree 0 = .trkCfg t ∨ Instr.trkFree 0 = .trkFree t ∨ Instr.trkFree 0 = .trkSetcc t ∨
      Instr.trkFree 0 = .trkRead t ∨ (∃ fp, Instr.trkFree 0 = .packetize t fp) → t ≠ 3) ∧
    ∃ s', exec (.trkFree 0) (live 15#4) = .next s' := by
  refine ⟨?_, _, rfl⟩
  rintro t (h | h | h | h | ⟨fp, h⟩) <;> cases h
  decide
theorem witness_StreamTypeReachesOnlyTrkr :
    ({ live 15#4 with trks := [⟨true, 0x100#13, 0x55#8, 15#4⟩, Track.empty, Track.empty, Track.empty] }
      : State).withoutSt = (live 15#4).withoutSt ∧
    (∃ s', step (live 15#4) = .next s') ∧
    (∀ r, (live 15#4).inputs ≠ .host (.rd 32 0x28) :: r) ∧ ∀ acc r, (live 15#4).inputs ≠ .bus acc :: r :=
  ⟨by decide, ⟨_, rfl⟩, (fun _ h => by cases h), (fun _ _ h => by cases h)⟩
theorem witness_CounterTransitions :
    (live 15#4).trks.length = (live 15#4).params.nTracks ∧ 0 < (live 15#4).params.nTracks ∧
    (∃ s', step { live 15#4 with inputs := [.reset] } = .next s' ∧ (s'.trk 0).cc ≠ ((live 15#4).trk 0).cc) ∧
    (∃ s', step (given 0x10000000#32 0#32 0#32 reset5) = .next s' ∧ s'.regs.err = .ok ∧
      (s'.trk 0).cc ≠ (reset5.trk 0).cc) ∧
    (∃ s', step (given 0x30000000#32 0#32 0#32 (live 15#4)) = .next s' ∧ s'.regs.err = .ok ∧
      (s'.trk 0).cc ≠ ((live 15#4).trk 0).cc) ∧
    (∃ s', step (given 0x20000000#32 0#32 0#32 (live 15#4)) = .next s' ∧ s'.regs.err = .ok ∧
      (s'.trk 0).cc ≠ ((live 15#4).trk 0).cc) ∧
    (∃ s', step packetizing = .next s' ∧ s'.out ≠ packetizing.out ∧ packetizing.engineNext ∧
      packetizing.eng.phase = .start ∧ decode packetizing.eng.cmd = .instr (.packetize 0 true) ∧
      (s'.trk 0).cc ≠ (packetizing.trk 0).cc) ∧
    (∃ s', step running = .next s' ∧ s'.out ≠ running.out ∧ running.engineNext ∧ running.eng.phase = .run ∧
      running.eng.t = 0 ∧ (s'.trk 0).cc ≠ (running.trk 0).cc) :=
  ⟨by decide, by decide, ⟨_, rfl, by decide⟩, ⟨_, rfl, by decide, by decide⟩, ⟨_, rfl, by decide, by decide⟩,
    ⟨_, rfl, by decide, by decide⟩, ⟨_, rfl, by decide +kernel, by decide, by decide, by decide, by decide +kernel⟩,
    _, rfl, by decide +kernel, by decide, by decide, by decide, by decide +kernel⟩
theorem witness_LiveTrackIdentityIsImmutable :
    (live 15#4).trks.length = (live 15#4).params.nTracks ∧
    (∃ s', step (given 0x30000000#32 0#32 0#32 (live 15#4)) = .next s' ∧ ((live 15#4).trk 0).valid = true ∧
      (s'.trk 0).valid = true) ∧
    (∃ s', step (given 0x20000000#32 0#32 0#32 (live 15#4)) = .next s' ∧
      (s'.trk 0).pid ≠ ((live 15#4).trk 0).pid) ∧
    (∃ s', step (given 0x10100000#32 0#32 1#32 (live 15#4)) = .next s' ∧ (s'.trk 1).st ≠ ((live 15#4).trk 1).st) ∧
    (∃ s', step { live 15#4 with inputs := [.reset] } = .next s' ∧ (s'.trk 0).pid ≠ ((live 15#4).trk 0).pid) :=
  ⟨by decide, ⟨_, rfl, by decide, by decide⟩, ⟨_, rfl, by decide⟩, ⟨_, rfl, by decide⟩, _, rfl, by decide⟩
theorem witness_OutOnlyGrowsByWholePackets : ∃ s', step packetizing = .next s' ∧ s'.out ≠ packetizing.out :=
  ⟨_, rfl, by decide +kernel⟩
theorem witness_FaultFlagsNeverCleared :
    ∃ s', step { State.reset with faultHaz := true, faultUninit := true, inputs := [.reset] } = .next s' := ⟨_, rfl⟩
theorem witness_OverrunFlagTransitions :
    (∃ s', step { running with inputs := [.host (.wr 32 0x04 0#32)] } = .next s' ∧ running.regs.ovr = false ∧
      s'.regs.ovr = true) ∧
    (∃ s', step { running with inputs := [.bus ⟨running.params.regBase + 0x04, 32, some 0#32⟩] } = .next s' ∧
      s'.regs.ovr = true) ∧
    (∃ s', step { State.reset with regs := { Regs.reset with ovr := true }, inputs := [.host (.wr 32 0x08 2#32)] }
      = .next s' ∧ s'.regs.ovr = false) ∧
    (∃ s', step { State.reset with regs := { Regs.reset with ovr := true }, inputs := [.reset] } = .next s' ∧
      s'.regs.ovr = false) :=
  ⟨⟨_, rfl, rfl, by decide +kernel⟩, ⟨_, rfl, by decide +kernel⟩, ⟨_, rfl, by decide⟩, _, rfl, by decide⟩
theorem witness_ResultsChangeOnlyAtCompletion :
    (∃ s', step { State.reset with inputs := [.host (.wr 32 0x04 0#32)] } = .next s') ∧
    (∀ r, ({ State.reset with inputs := [.host (.wr 32 0x04 0#32)] } : State).inputs ≠ .reset :: r) ∧
    ¬ (({ State.reset with inputs := [.host (.wr 32 0x04 0#32)] } : State).engineNext ∧
      State.reset.eng.phase ≠ .idle) :=
  ⟨⟨_, rfl⟩, (fun _ h => by cases h), by decide⟩
theorem witness_ParametersAndArgumentsKept : packetizing.engineNext ∧ ∃ s', step packetizing = .next s' :=
  ⟨by decide, _, rfl⟩
theorem witness_CmdWriteStartsOrDrops : State.reset.eng.phase = .idle ∧ running.eng.phase ≠ .idle := by decide
theorem witness_StatusAndArgumentWrites :
    (0xFFFFFFFF#32).getLsbD 1 = true ∧ (0xFFFFFFFD#32).getLsbD 1 = false := by decide
theorem witness_ReadOnlyWritesIgnored :
    0x00 ∈ [0x00, 0x14, 0x18, 0x1C, 0x20, 0x24, 0x28, 0x2C, 0x30, 0x34, 0x38, 0x3C] ∧
    0x3C ∈ [0x00, 0x14, 0x18, 0x1C, 0x20, 0x24, 0x28, 0x2C, 0x30, 0x34, 0x38, 0x3C] := by decide
theorem witness_RegisterReads :
    let s := running
    let l := [(0x00, 0x54534601#32), (0x04, s.regs.cmd),
      (0x08, BitVec.ofNat 32 (2 ^ 8 * s.regs.lopc.toNat + 2 ^ 4 * s.regs.err.code.toNat + 2 * s.regs.ovr.toNat
        + (if s.eng.phase = .idle then 0 else 1))),
      (0x0C, s.regs.arg0), (0x10, s.regs.arg1), (0x14, s.regs.hdrw), (0x18, s.regs.hdrx), (0x1C, s.regs.afr),
      (0x20, s.regs.afc), (0x24, s.regs.plr), (0x28, s.regs.trkr), (0x2C, s.regs.pktn),
      (0x30, BitVec.ofNat 32 s.params.nTracks), (0x34, BitVec.ofNat 32 s.params.bufBytes), (0x38, 0#32),
      (0x3C, 0#32)]
    (0x08, 1#32) ∈ l ∧ (0x3C, 0#32) ∈ l := by decide
theorem witness_BusErrorsChangeNothing :
    (0x40 ≤ 0x40 ∨ 0x40 % 4 ≠ 0 ∨ 32 ≠ 32) ∧ (0x40 ≤ 0x3E ∨ 0x3E % 4 ≠ 0 ∨ 32 ≠ 32) ∧
    (0x40 ≤ 0x3C ∨ 0x3C % 4 ≠ 0 ∨ 16 ≠ 32) ∧
    (State.reset.params.bufBytes ≤ 1024 ∨ 8 ≠ 8) ∧ (State.reset.params.bufBytes ≤ 1023 ∨ 16 ≠ 8) := by decide
theorem witness_BufByteRead :
    1023 < State.reset.params.bufBytes ∧ (written 1023 [0x5A#8] State.reset).buf.read 1023 = some 0x5A#8 ∧
    State.reset.buf.read 1023 = none := by decide
theorem witness_BufByteWrite : 1023 < State.reset.params.bufBytes ∧ State.reset.buf.wf := by decide
theorem witness_FootprintHazards :
    State.reset.eng.phase = .idle ∧ (given 0#32 0#32 0#32 State.reset).eng.phase ≠ .idle ∧
    decode packetizing.eng.cmd = .instr (.packetize 0 true) ∧
    decode (given 0xA0000000#32 0#32 188#32 State.reset).eng.cmd = .instr .parse ∧
    decode (given 0x80000000#32 0#32 5#32 State.reset).eng.cmd = .instr .afDec ∧
    decode (given 0x70000000#32 254#32 0#32 State.reset).eng.cmd = .instr .afEnc ∧
    decode (given 0x50000000#32 0#32 0#32 State.reset).eng.cmd = .instr .hdrEnc ∧
    (182 < running.params.bufBytes ∧ running.hazardWrite 182 = true) ∧
    (1023 < State.reset.params.bufBytes ∧
      (given 0x70000000#32 254#32 768#32 State.reset).hazardRead 1023 = true) := by decide
theorem witness_ErrorCodeValues : ErrCode.illegalCmd.code = 10#4 ∧ ErrCode.ok.code = ErrCode.ok.code := by decide
theorem witness_HostLeavesRunningCommandAlone : running.eng.phase ≠ .idle := by decide
theorem witness_BusAccessDecodes :
    0x3F < 0x40 ∧ 1023 < Params.vectors.bufBytes ∧ Params.vectors.regBase + 0x40 ≤ Params.vectors.bufBase ∧
    ((⟨1088, 8, none⟩ : BusAccess).addr < Params.vectors.regBase ∨
      Params.vectors.regBase + 0x40 ≤ (⟨1088, 8, none⟩ : BusAccess).addr) ∧
    ((⟨1088, 8, none⟩ : BusAccess).addr < Params.vectors.bufBase ∨
      Params.vectors.bufBase + Params.vectors.bufBytes ≤ (⟨1088, 8, none⟩ : BusAccess).addr) := by decide
theorem witness_ResetSetsEveryValue :
    ({ running with inputs := [.reset, .engine] } : State).inputs = .reset :: [.engine] ∧
    3 < running.params.nTracks := by decide
theorem witness_InvHoldsAtReset :
    Params.vectors.Legal ∧ ({ Params.vectors with nTracks := 256, bufBytes := 188, ccInit := 15 } : Params).Legal := by
  decide
theorem witness_InvKeptByEveryStep : running.Inv ∧ ∃ s', step running = .next s' := ⟨witness_running_inv, _, rfl⟩
theorem witness_StepNeverStopsUnderInv : State.reset.Inv ∧ running.Inv := ⟨witness_reset_inv, witness_running_inv⟩
theorem witness_AcceptedCommandCompletes :
    (running.Inv ∧ running.inputs = [] ∧ running.eng.phase ≠ .idle) ∧
    ((given 0x50000000#32 0#32 0#32 (live 15#4)).Inv ∧ (given 0x50000000#32 0#32 0#32 (live 15#4)).inputs = [] ∧
      (given 0x50000000#32 0#32 0#32 (live 15#4)).eng.phase ≠ .idle) :=
  ⟨⟨witness_running_inv, by decide, by decide⟩, witness_given_inv _ _ _, by decide, by decide⟩

end Sys2Proof.Tests
end

section
/-! What a step leaves alone: the parameters, and, at an engine step, the registers that host transactions write. -/

namespace Sys2Proof.Machine

/-- `s'` has the parameters of `s`, and its ARG0, ARG1, CMD readback and OVR: what no engine step writes (00_scope.md
R10, 10_state.md R20, R26). -/
structure State.HostSideKept (s s' : State) : Prop where
  params : s'.params = s.params
  arg0 : s'.regs.arg0 = s.regs.arg0
  arg1 : s'.regs.arg1 = s.regs.arg1
  cmd : s'.regs.cmd = s.regs.cmd
  ovr : s'.regs.ovr = s.regs.ovr

theorem State.HostSideKept.of_regs_eq {s s' : State} (hp : s'.params = s.params) (hr : s'.regs = s.regs) :
    s.HostSideKept s' := by
  constructor <;> simp only [hp, hr]

theorem State.HostSideKept.of_resultWrite {s s' : State} (hp : s'.params = s.params)
    (hw : s.regs.ResultWrite s'.regs) : s.HostSideKept s' := by
  obtain ⟨hcmd, hovr, -, -, harg0, harg1⟩ := hw.control
  exact ⟨hp, harg0, harg1, hcmd, hovr⟩

theorem State.HostSideKept.trans {s s' s'' : State} (h : s.HostSideKept s') (h' : s'.HostSideKept s'') :
    s.HostSideKept s'' :=
  ⟨h'.params.trans h.params, h'.arg0.trans h.arg0, h'.arg1.trans h.arg1, h'.cmd.trans h.cmd, h'.ovr.trans h.ovr⟩

/-- Of the registers, completion writes ERR and LOPC only (60_exceptions.md R134). -/
theorem State.HostSideKept.complete {s s' : State} (c : ErrCode) (h : s.HostSideKept s') :
    s.HostSideKept (s'.complete c) :=
  ⟨h.params, h.arg0, h.arg1, h.cmd, h.ovr⟩

/-- The emission of a chunk writes no register but PKTN and, where it completes, ERR and LOPC (43_packetizer.md
R107). -/
theorem State.emitChunk_hostSideKept (s : State) : s.HostSideKept s.emitChunk := by
  rw [State.emitChunk_eq]
  dsimp only
  split
  · constructor <;> simp only [bufReadList_params, bufReadList_regs]
  · exact .of_regs_eq (bufReadList_params _ _ s) (bufReadList_regs _ _ s)

theorem exec_hostSideKept {i : Instr} {s s' : State} (h : exec i s = .next s') : s.HostSideKept s' := by
  cases exec_cases h with
  | failed c _ _ _ _ _ _ he => rw [he]; exact .complete c (.of_regs_eq rfl rfl)
  | results _ _ _ hw _ he => rw [he]; exact .complete .ok (.of_resultWrite rfl hw)
  | field _ _ _ hw _ _ he => rw [he]; exact .complete .ok (.of_resultWrite rfl hw)
  | created _ _ _ _ _ _ _ he => rw [he]; exact .complete .ok (.of_regs_eq rfl rfl)
  | freed _ _ _ he => rw [he]; exact .complete .ok (.of_regs_eq rfl rfl)
  | seeded _ _ _ _ he => rw [he]; exact .complete .ok (.of_regs_eq rfl rfl)
  | packet t _ _ _ _ _ _ he =>
    rw [he]; exact .trans (s' := s.packetizing t) (.of_regs_eq rfl rfl) (State.emitChunk_hostSideKept _)

theorem engineStep_hostSideKept {s s' : State} (h : engineStep s = .next s') : s.HostSideKept s' := by
  obtain ⟨-, rfl⟩ | ⟨-, -, rfl⟩ | ⟨-, i, -, hexec⟩ | ⟨-, hpacket⟩ := engineStep_cases h
  · exact .of_regs_eq rfl rfl
  · exact .complete .illegalCmd (.of_regs_eq rfl rfl)
  · exact exec_hostSideKept hexec
  · obtain ⟨-, -, -, rfl⟩ := packetStep_next hpacket
    exact s.emitChunk_hostSideKept

/-- At an engine step of the block; taking the turn from the pending events changes nothing else. -/
theorem engineTurn_hostSideKept {s s' : State} (h : engineStep (s.withInputs s.inputs.tail) = .next s') :
    s.HostSideKept s' :=
  .trans (s' := s.withInputs s.inputs.tail) (.of_regs_eq rfl rfl) (engineStep_hostSideKept h)

@[simp] theorem hostStep_params (op : HostOp) (s : State) : (hostStep op s).params = s.params := by
  cases hostStep_cases op s with
  | answered _ he | accepted _ _ _ he | dropped _ _ _ he | status _ _ he | argument _ _ he | bufRead _ _ _ _ _ he
  | bufWrite _ _ _ _ he => rw [he]; rfl

@[simp] theorem busStep_params (acc : BusAccess) (s : State) : (busStep acc s).params = s.params := by
  obtain h | ⟨op, -, h⟩ := busStep_cases acc s
  · rw [h]
  · rw [h, hostStep_params]

/-- No step of the block changes the parameters (00_scope.md R10). -/
theorem step_params {s s' : State} (h : step s = .next s') : s'.params = s.params := by
  obtain ⟨rest, -, rfl⟩ | ⟨op, rest, -, rfl⟩ | ⟨acc, rest, -, rfl⟩ | ⟨-, hturn⟩ := step_cases h
  · rfl
  · rw [hostStep_params, State.withInputs_params]
  · rw [busStep_params, State.withInputs_params]
  · exact (engineTurn_hostSideKept hturn).params

/-- Settles O44: the parameters by the inversion of a step, the host's registers by that of an engine step. -/
theorem parametersAndArgumentsKept : Obligations.ParametersAndArgumentsKept := by
  intro s s' h
  refine ⟨step_params h, fun hnext => ?_⟩
  rw [step_engine hnext] at h
  obtain ⟨-, harg0, harg1, hcmd, hovr⟩ := engineTurn_hostSideKept h
  exact ⟨harg0, harg1, hcmd, hovr⟩

end Sys2Proof.Machine
end

section
/-! The fields of a state after the emission of a chunk, from `State.emitChunk_eq`, and after a turn of the engine. -/

namespace Sys2Proof.Machine

section emission
variable (s : State)

@[simp] theorem State.emitChunk_trks :
    s.emitChunk.trks = s.trks.set s.eng.t { s.trk s.eng.t with cc := (s.trk s.eng.t).cc + 1#4 } := by
  rw [State.emitChunk_eq]; dsimp only; split <;> rfl
@[simp] theorem State.emitChunk_buf : s.emitChunk.buf = s.buf := by
  rw [State.emitChunk_eq]; dsimp only; split <;> exact bufReadList_buf ..
@[simp] theorem State.emitChunk_faultHaz : s.emitChunk.faultHaz = s.faultHaz := by
  rw [State.emitChunk_eq]; dsimp only; split <;> exact bufReadList_faultHaz ..
@[simp] theorem State.emitChunk_results : s.emitChunk.results = s.results := by
  rw [State.emitChunk_eq]; dsimp only; split <;> exact bufReadList_results ..

theorem State.emitChunk_faultUninit (h : s.faultUninit = true) : s.emitChunk.faultUninit = true := by
  rw [State.emitChunk_eq]; dsimp only; split <;> exact bufReadList_faultUninit _ _ s h

/-- Emission appends one packet of 188 bytes to OUT (10_state.md R49, 43_packetizer.md R107). -/
theorem State.emitChunk_out : ∃ p : List Byte, s.emitChunk.out = s.out ++ [p] ∧ p.length = 188 := by
  rw [State.emitChunk_eq]
  refine ⟨_, by dsimp only; split <;> rfl, specPacket_length _ _ _ ?_⟩
  rw [bufReadList_length]; exact Nat.min_le_left ..

/-- Emission completes the command after the last chunk and writes no register before that (43_packetizer.md R107). -/
theorem State.emitChunk_phase_or_regs :
    s.emitChunk.eng.phase = .idle ∨ s.emitChunk.regs = s.regs := by
  rw [State.emitChunk_eq]
  dsimp only
  split
  · exact .inl rfl
  · exact .inr (bufReadList_regs ..)

end emission

/-- No command answers the host. -/
theorem exec_results {i : Instr} {s s' : State} (h : exec i s = .next s') : s'.results = s.results := by
  cases exec_cases h with
  | failed _ _ _ _ _ _ _ he | results _ _ _ _ _ he | created _ _ _ _ _ _ _ he | freed _ _ _ he | seeded _ _ _ _ he
  | field _ _ _ _ _ _ he => rw [he]; rfl
  | packet _ _ _ _ _ _ _ he => rw [he, State.emitChunk_results]; rfl

/-- No engine step answers the host. -/
theorem engineStep_results {s s' : State} (h : engineStep s = .next s') : s'.results = s.results := by
  obtain ⟨-, rfl⟩ | ⟨-, -, rfl⟩ | ⟨-, i, -, hexec⟩ | ⟨-, hpacket⟩ := engineStep_cases h
  · rfl
  · rfl
  · exact exec_results hexec
  · obtain ⟨-, -, -, rfl⟩ := packetStep_next hpacket
    exact s.emitChunk_results

end Sys2Proof.Machine
end

section
/-! Stream types reach TRKR alone (10_state.md R43). `State.withoutSt` takes out of a state what may hold a stream type;
every operation does from `s.withoutSt` what it does from `s`, up to what `withoutSt` takes out. -/

namespace Sys2Proof.Machine

/-- An outcome, its next state taken without stream types. -/
def eraseSt : Result → Result
  | .next s => .next s.withoutSt
  | .fault r => .fault r
  | .refused r => .refused r

@[simp] theorem eraseSt_next (s : State) : eraseSt (.next s) = .next s.withoutSt := rfl
@[simp] theorem eraseSt_fault (r : Fault) : eraseSt (.fault r) = .fault r := rfl
@[simp] theorem eraseSt_finish (c : ErrCode) (s : State) : eraseSt (finish c s) = finish c s.withoutSt := rfl
@[simp] theorem eraseSt_ite (p : Prop) {_ : Decidable p} (a b : Result) :
    eraseSt (if p then a else b) = if p then eraseSt a else eraseSt b := apply_ite ..

/-! ### What is left without stream types -/

section fields
variable (s : State)

@[simp] theorem State.withoutSt_params : s.withoutSt.params = s.params := rfl
@[simp] theorem State.withoutSt_regs : s.withoutSt.regs = { s.regs with trkr := 0#32 } := rfl
@[simp] theorem State.withoutSt_eng : s.withoutSt.eng = s.eng := rfl
@[simp] theorem State.withoutSt_buf : s.withoutSt.buf = s.buf := rfl
@[simp] theorem State.withoutSt_out : s.withoutSt.out = s.out := rfl
@[simp] theorem State.withoutSt_faultHaz : s.withoutSt.faultHaz = s.faultHaz := rfl
@[simp] theorem State.withoutSt_faultUninit : s.withoutSt.faultUninit = s.faultUninit := rfl
@[simp] theorem State.withoutSt_draws : s.withoutSt.draws = s.draws := rfl
@[simp] theorem State.withoutSt_inputs : s.withoutSt.inputs = s.inputs := rfl
@[simp] theorem State.withoutSt_results : s.withoutSt.results = [] := rfl
@[simp] theorem State.withoutSt_arg0Nat : s.withoutSt.arg0Nat = s.arg0Nat := rfl
@[simp] theorem State.withoutSt_arg1Nat : s.withoutSt.arg1Nat = s.arg1Nat := rfl
@[simp] theorem State.withoutSt_slotExists (t : Nat) : s.withoutSt.slotExists t = s.slotExists t := rfl

@[simp] theorem State.withoutSt_trk (t : Nat) : s.withoutSt.trk t = { s.trk t with st := 0#8 } := by
  exact List.getD_map (f := fun x : Track => { x with st := 0#8 }) (l := s.trks) (d := Track.empty) (n := t)

@[simp] theorem State.withoutSt_withoutSt : s.withoutSt.withoutSt = s.withoutSt := by
  simp [State.withoutSt]

end fields

@[simp] theorem eraseSt_eraseSt (r : Result) : eraseSt (eraseSt r) = eraseSt r := by
  cases r <;> simp [eraseSt]

/-- An outcome that agrees with a next state up to stream types is a next state. -/
theorem eraseSt_eq_next {r : Result} {s : State} (h : eraseSt r = .next s.withoutSt) :
    ∃ s', r = .next s' ∧ s'.withoutSt = s.withoutSt := by
  cases r with
  | next s' => exact ⟨s', rfl, by simpa using h⟩
  | fault r => cases h
  | refused r => cases h

/-! ### Every operation of the state commutes with taking stream types out -/

section operations
variable (s : State)

@[simp] theorem State.withoutSt_withInputs (l : List Event) :
    (s.withInputs l).withoutSt = s.withoutSt.withInputs l := rfl
@[simp] theorem State.withoutSt_complete (c : ErrCode) : (s.complete c).withoutSt = s.withoutSt.complete c := rfl
@[simp] theorem State.withoutSt_putHeader (w : Word) (b : Bool) :
    (s.putHeader w b).withoutSt = s.withoutSt.putHeader w b := rfl
@[simp] theorem State.withoutSt_putAf (v w : Word) : (s.putAf v w).withoutSt = s.withoutSt.putAf v w := rfl
@[simp] theorem State.withoutSt_putPlr (v : Word) : (s.putPlr v).withoutSt = s.withoutSt.putPlr v := rfl
@[simp] theorem State.withoutSt_putPktn (n : Nat) : (s.putPktn n).withoutSt = s.withoutSt.putPktn n := rfl
@[simp] theorem State.withoutSt_startRun (t src len n : Nat) :
    (s.startRun t src len n).withoutSt = s.withoutSt.startRun t src len n := rfl
@[simp] theorem State.withoutSt_bufWrite (a : Nat) (v : Byte) :
    (s.bufWrite a v).withoutSt = s.withoutSt.bufWrite a v := rfl
@[simp] theorem State.withoutSt_noteHazard (h : Bool) : (s.noteHazard h).withoutSt = s.withoutSt.noteHazard h := rfl

/-- TRKR and the responses are taken out. -/
@[simp] theorem State.withoutSt_putTrkr (v : Word) : (s.putTrkr v).withoutSt = s.withoutSt := rfl
@[simp] theorem State.withoutSt_respond (x : HostResult) : (s.respond x).withoutSt = s.withoutSt := rfl

@[simp] theorem State.withoutSt_putTrk (t : Nat) (x : Track) :
    (s.putTrk t x).withoutSt = s.withoutSt.putTrk t { x with st := 0#8 } := by
  simp [State.withoutSt, State.putTrk, List.map_set]

@[simp] theorem State.withoutSt_blockReset : s.blockReset.withoutSt = { s.blockReset with results := [] } := by
  simp [State.withoutSt, State.blockReset, Track.empty, Regs.reset]

@[simp] theorem State.withoutSt_bufRead (a : Nat) :
    s.withoutSt.bufRead a = ((s.bufRead a).1, (s.bufRead a).2.withoutSt) := by
  cases h : s.buf.read a with
  | some v => rw [bufRead_written h, bufRead_written (s := s.withoutSt) h]
  | none => rw [bufRead_unwritten h, bufRead_unwritten (s := s.withoutSt) h]; rfl

@[simp] theorem State.withoutSt_bufReadList (a n : Nat) :
    s.withoutSt.bufReadList a n = ((s.bufReadList a n).1, (s.bufReadList a n).2.withoutSt) := by
  induction n generalizing a s with
  | zero => rfl
  | succ k ih => simp [State.bufReadList, ih]

@[simp] theorem State.withoutSt_bufWriteList (a : Nat) (bytes : List Byte) :
    (s.bufWriteList a bytes).withoutSt = s.withoutSt.bufWriteList a bytes := by
  induction bytes generalizing a s with
  | nil => rfl
  | cons v rest ih => simp only [State.bufWriteList, ih, State.withoutSt_bufWrite]

/-- The counter that emission writes and the packet it forms are read from the slot's other fields. -/
@[simp] theorem State.withoutSt_emitChunk : s.emitChunk.withoutSt = s.withoutSt.emitChunk := by
  rw [State.emitChunk_eq, State.emitChunk_eq]
  simp only [withoutSt_eng, withoutSt_bufReadList, withoutSt_trk]
  split <;> simp [State.withoutSt, List.map_set]

end operations

/-! ### The commands and the step -/

@[simp] theorem packetStep_withoutSt (s : State) : packetStep s.withoutSt = eraseSt (packetStep s) := by
  simp [packetStep]

@[simp] theorem parseBody_withoutSt (a : Nat) (b0 : Byte) (s : State) :
    parseBody a b0 s.withoutSt = eraseSt (parseBody a b0 s) := by
  simp only [parseBody, State.withoutSt_bufRead]
  split <;> simp

/-- A command's effect, up to TRKR, does not depend on stream types: its checks read none of them, and what it then
does commutes with taking them out. -/
theorem exec_withoutSt (i : Instr) (s : State) : eraseSt (exec i s.withoutSt) = eraseSt (exec i s) := by
  cases i with
  | nop => simp [exec, execNop]
  | trkCfg t => simp only [exec, execTrkCfg, eraseSt_ite]; simp
  | trkFree t => simp [exec, execTrkFree]
  | trkSetcc t => simp [exec, execTrkSetcc]
  | trkRead t => simp [exec, execTrkRead]
  | hdrEnc => simp [exec, execHdrEnc]
  | hdrDec => simp only [exec, execHdrDec, eraseSt_ite]; simp
  | afEnc => simp [exec, execAfEnc]
  | afDec =>
    cases h : afLengthError s.arg1Nat (s.bufRead s.arg0Nat).1.toNat <;> simp [exec, execAfDec, h]
  | packetize t fp => simp [exec, execPacketize, ← State.withoutSt_startRun]
  | parse => simp [exec, execParse]

theorem engineStep_withoutSt (s : State) : eraseSt (engineStep s.withoutSt) = eraseSt (engineStep s) := by
  simp only [engineStep, runCommand, State.withoutSt_eng]
  split
  · simp
  · split
    · exact exec_withoutSt _ s
    · simp
  · simp

/-! ### The host's transactions -/

@[simp] theorem State.withoutSt_bufAccessError (width a : Nat) (s : State) :
    s.withoutSt.bufAccessError width a = s.bufAccessError width a := rfl
@[simp] theorem State.withoutSt_hazardRead (a : Nat) (s : State) : s.withoutSt.hazardRead a = s.hazardRead a := rfl
@[simp] theorem State.withoutSt_hazardWrite (a : Nat) (s : State) : s.withoutSt.hazardWrite a = s.hazardWrite a := rfl

@[simp] theorem State.withoutSt_writeReg (r : RegName) (v : Word) (s : State) :
    (s.writeReg r v).withoutSt = s.withoutSt.writeReg r v := by
  cases r with
  | cmd => exact apply_ite State.withoutSt ..
  | id | status | arg0 | arg1 | hdrw | hdrx | afr | afc | plr | trkr | pktn | cfgn | cfgb | res38 | res3c => rfl

@[simp] theorem State.writeReg_results (r : RegName) (v : Word) (s : State) :
    (s.writeReg r v).results = s.results := by
  cases r with
  | cmd => exact (apply_ite State.results ..).trans (ite_self _)
  | id | status | arg0 | arg1 | hdrw | hdrx | afr | afc | plr | trkr | pktn | cfgn | cfgb | res38 | res3c => rfl

/-- A transaction's effect, up to its response, does not depend on stream types. -/
theorem hostStep_withoutSt (op : HostOp) (s : State) :
    (hostStep op s.withoutSt).withoutSt = (hostStep op s).withoutSt := by
  cases op with
  | rd width offset => simp only [hostStep, hostRd]; split <;> simp
  | wr width offset v => simp only [hostStep, hostWr]; split <;> simp
  | rdb width a => cases h : s.bufAccessError width a <;> simp [hostStep, hostRdb, h]
  | wrb width a v => cases h : s.bufAccessError width a <;> simp [hostStep, hostWrb, h]

/-- No register read but TRKR's depends on stream types. -/
theorem State.readReg_withoutSt {r : RegName} (h : r ≠ .trkr) (s : State) : s.withoutSt.readReg r = s.readReg r := by
  cases r with
  | trkr => exact absurd rfl h
  | id | cmd | status | arg0 | arg1 | hdrw | hdrx | afr | afc | plr | pktn | cfgn | cfgb | res38 | res3c => rfl

/-- Nor does the response to any transaction that is no read of TRKR. -/
theorem hostStep_results {op : HostOp} (h : op ≠ .rd 32 0x28) (s : State) :
    (hostStep op s).results = s.results ++ (hostStep op s.withoutSt).results := by
  cases op with
  | rd width offset =>
    simp only [hostStep, hostRd]
    split
    · rfl
    · next r hr =>
      obtain ⟨rfl, rfl⟩ := regAccess_some hr
      have hr : r ≠ .trkr := by rintro rfl; exact h rfl
      rw [State.readReg_withoutSt hr]; rfl
  | wr width offset v => simp only [hostStep, hostWr]; split <;> simp
  | rdb width a => cases h : s.bufAccessError width a <;> simp [hostStep, hostRdb, h]
  | wrb width a v => cases h : s.bufAccessError width a <;> simp [hostStep, hostWrb, h]

theorem busStep_withoutSt (acc : BusAccess) (s : State) :
    (busStep acc s.withoutSt).withoutSt = (busStep acc s).withoutSt := by
  simp only [busStep, State.withoutSt_params]
  split
  · exact hostStep_withoutSt _ s
  · simp

/-! ### The step -/

theorem eventStep_withoutSt (e : Event) (s : State) : eraseSt (eventStep e s.withoutSt) = eraseSt (eventStep e s) := by
  cases e with
  | engine => exact engineStep_withoutSt s
  | host op => simp [eventStep, hostStep_withoutSt]
  | bus acc => simp [eventStep, busStep_withoutSt]
  | reset => simp [eventStep]

theorem step_withoutSt (s : State) : eraseSt (step s.withoutSt) = eraseSt (step s) := by
  simp only [step, nextStep, State.withoutSt_inputs, ← State.withoutSt_withInputs]
  split
  · exact engineStep_withoutSt s
  · exact eventStep_withoutSt _ _

/-- The responses of a step that reads no TRKR and makes no bus access are those of the step taken without stream
types. -/
theorem step_results {s s' t' : State} (hread : ∀ r, s.inputs ≠ .host (.rd 32 0x28) :: r)
    (hbus : ∀ acc r, s.inputs ≠ .bus acc :: r) (h : step s = .next s') (ht : step s.withoutSt = .next t') :
    s'.results = s.results ++ t'.results := by
  cases hi : s.inputs with
  | nil =>
    simp only [step, nextStep, State.withoutSt_inputs, hi] at h ht
    rw [engineStep_results h, engineStep_results ht]; simp
  | cons e rest =>
    simp only [step, nextStep, State.withoutSt_inputs, hi, ← State.withoutSt_withInputs] at h ht
    cases e with
    | engine =>
      rw [engineStep_results h, engineStep_results ht]; simp
    | host op =>
      cases h
      cases ht
      exact hostStep_results (fun hop => hread rest (by rw [hi, hop])) _
    | bus acc => exact absurd hi (hbus acc rest)
    | reset =>
      cases h
      cases ht
      simp

/-- Settles O37: both steps agree with the step taken without stream types. -/
theorem streamTypeReachesOnlyTrkr : Obligations.StreamTypeReachesOnlyTrkr := by
  intro s s2 s' hsame h
  have hstep : eraseSt (step s2) = .next s'.withoutSt := by
    rw [← step_withoutSt s2, hsame, step_withoutSt s, h, eraseSt_next]
  obtain ⟨s2', h2, hsame'⟩ := eraseSt_eq_next hstep
  refine ⟨s2', h2, hsame', fun hread hbus => ?_⟩
  obtain ⟨t', ht, -⟩ := eraseSt_eq_next (r := step s.withoutSt) (by rw [step_withoutSt s, h, eraseSt_next])
  have hinputs : s2.inputs = s.inputs := by simpa using congrArg State.inputs hsame
  have hresults := step_results hread hbus h ht
  have hresults2 := step_results (hinputs ▸ hread) (hinputs ▸ hbus) h2 (hsame ▸ ht)
  rw [hresults, hresults2, List.drop_left, List.drop_left]

end Sys2Proof.Machine
end

section
/-! The machine's invariant under the operations of the state, one lemma each; every step is made of these. -/

namespace Sys2Proof.Machine

/-! ### Reset -/

theorem Regs.reset_reservedZero : Regs.reset.ReservedZero := by
  constructor <;> decide

theorem Regs.reset_resultsOk : Regs.reset.ResultsOk := ⟨.inl rfl, .inl ⟨rfl, rfl⟩, .inl rfl⟩

/-- The block reset gives every value the invariant speaks of, but OUT's packets and the parameters (R148). -/
theorem State.Inv.blockReset {s : State} (hlegal : s.params.Legal) (hout : ∀ p ∈ s.out, p.length = 188) :
    s.blockReset.Inv where
  legal := hlegal
  table := List.length_replicate
  freeSlots _ hx _ := List.eq_of_mem_replicate hx
  bufWf := .nil
  bufRange _ hc := by cases hc
  packets := hout
  readback := rfl
  run h := by cases h
  reserved := Regs.reset_reservedZero
  resultRegs := Regs.reset_resultsOk

/-- Settles O57: the state at model start is a block reset of itself, with OUT empty. -/
theorem invHoldsAtReset : Obligations.InvHoldsAtReset := by
  intro p hp
  exact State.Inv.blockReset (s := State.resetOf p) hp (fun _ h => by cases h)

/-! ### The invariant under the operations of the state -/

section operations
variable {s s' : State}

/-- A running PACKETIZE's progress state speaks of the parameters, the engine and its slot alone. -/
theorem State.RunOk.of_fields_eq (h : s.RunOk) (hparams : s'.params = s.params) (heng : s'.eng = s.eng)
    (hlive : (s'.trk s.eng.t).valid = true) : s'.RunOk where
  command := heng ▸ h.command
  slot := by rw [heng, hparams]; exact h.slot
  live := heng ▸ hlive
  source := heng ▸ h.source
  length := heng ▸ h.length
  range := by rw [heng, hparams]; exact h.range
  count := heng ▸ h.count
  index := heng ▸ h.index

/-- The invariant speaks of the architectural fields alone; the fault flags and the model's own fields are free. -/
theorem State.Inv.of_fields_eq (h : s.Inv) (hparams : s'.params = s.params) (hregs : s'.regs = s.regs)
    (htrks : s'.trks = s.trks) (heng : s'.eng = s.eng) (hbuf : s'.buf = s.buf) (hout : s'.out = s.out) : s'.Inv where
  legal := hparams ▸ h.legal
  table := by rw [htrks, hparams, h.table]
  freeSlots := htrks ▸ h.freeSlots
  bufWf := hbuf ▸ h.bufWf
  bufRange := by rw [hbuf, hparams]; exact h.bufRange
  packets := hout ▸ h.packets
  readback := by rw [hregs, heng, h.readback]
  run hp := by
    have hrun := h.run (heng ▸ hp)
    exact hrun.of_fields_eq hparams heng (by rw [State.trk_congr htrks, hrun.live])
  reserved := hregs ▸ h.reserved
  resultRegs := hregs ▸ h.resultRegs

theorem State.Inv.setRegs (h : s.Inv) {r : Regs} (hcmd : r.cmd = s.regs.cmd) (hreserved : r.ReservedZero)
    (hresults : r.ResultsOk) : ({ s with regs := r } : State).Inv :=
  { h with
    readback := hcmd.trans h.readback
    run := fun hp => (h.run hp).of_fields_eq rfl rfl (h.run hp).live
    reserved := hreserved
    resultRegs := hresults }

/-- A write of result registers keeps the invariant. -/
theorem State.Inv.resultWrite (h : s.Inv) {r : Regs} (hw : s.regs.ResultWrite r) :
    ({ s with regs := r } : State).Inv := by
  obtain ⟨hcmd, -⟩ := hw.control
  exact h.setRegs hcmd (hw.reserved h.reserved) (hw.results h.resultRegs)

/-- The invariant asks nothing of STATUS, ARG0 and ARG1. -/
theorem State.Inv.setControl (h : s.Inv) (ovr : Bool) (err : ErrCode) (lopc : BitVec 4) (arg0 arg1 : Word) :
    ({ s with regs := { s.regs with ovr := ovr, err := err, lopc := lopc, arg0 := arg0, arg1 := arg1 } } : State).Inv :=
  h.setRegs rfl { h.reserved with } { h.resultRegs with }

/-- The engine may move to any state that latches the same command and, if it runs, is a PACKETIZE's progress. -/
theorem State.Inv.setEng (h : s.Inv) {e : Engine} (hcmd : e.cmd = s.eng.cmd)
    (hrun : e.phase = .run → ({ s with eng := e } : State).RunOk) : ({ s with eng := e } : State).Inv :=
  { h with
    readback := h.readback.trans hcmd.symm
    run := hrun }

theorem State.RunOk.advance (h : s.RunOk) {i : Nat} (hi : i < s.eng.n) :
    ({ s with eng := { s.eng with i := i } } : State).RunOk :=
  { h with index := hi }

theorem State.Inv.complete (h : s.Inv) (c : ErrCode) : (s.complete c).Inv := by
  have hidle := h.setEng (e := { s.eng with phase := .idle }) rfl (fun hp => by cases hp)
  exact hidle.setControl s.regs.ovr c (opcField s.eng.cmd) s.regs.arg0 s.regs.arg1

theorem State.Inv.accept (h : s.Inv) (v : Word) : (s.accept v).Inv :=
  { h with
    readback := rfl
    run := fun hp => by cases hp
    reserved := { h.reserved with }
    resultRegs := { h.resultRegs with } }

/-- A slot is written with a live track, or with zeros where no PACKETIZE runs on it. -/
theorem State.Inv.putTrk (h : s.Inv) (t : Nat) {x : Track} (hfree : x.valid = false → x = Track.empty)
    (hlive : s.eng.phase = .run → x.valid = true) : (s.putTrk t x).Inv :=
  { h with
    table := by rw [State.putTrk_trks, List.length_set, h.table, State.putTrk_params]
    freeSlots := fun y hy => (List.mem_or_eq_of_mem_set hy).elim (h.freeSlots y) (fun heq => heq ▸ hfree)
    run := fun hp => by
      refine (h.run hp).of_fields_eq rfl rfl ?_
      by_cases ht : s.eng.t = t
      · rw [ht, State.putTrk_trk_eq _ _ (by rw [h.table, ← ht]; exact (h.run hp).slot), hlive hp]
      · rw [State.putTrk_trk_ne _ _ ht, (h.run hp).live] }

theorem State.Inv.setBuf (h : s.Inv) {m : Memory} (hwf : m.wf) (hrange : ∀ c ∈ m, c.1 < s.params.bufBytes) :
    ({ s with buf := m } : State).Inv :=
  { h with
    bufWf := hwf
    bufRange := hrange
    run := fun hp => (h.run hp).of_fields_eq rfl rfl (h.run hp).live }

theorem State.Inv.emit (h : s.Inv) {p : List Byte} (hp : p.length = 188) : (s.emit p).Inv :=
  { h with
    packets := fun q hq => (List.mem_append.1 hq).elim (h.packets q) (fun hq => List.mem_singleton.1 hq ▸ hp)
    run := fun hp => (h.run hp).of_fields_eq rfl rfl (h.run hp).live }

theorem State.Inv.respond (h : s.Inv) (x : HostResult) : (s.respond x).Inv := h.of_fields_eq rfl rfl rfl rfl rfl rfl

theorem State.Inv.withInputs (h : s.Inv) (l : List Event) : (s.withInputs l).Inv :=
  h.of_fields_eq rfl rfl rfl rfl rfl rfl

theorem State.Inv.withReads (h : s.Inv) (u : Bool) (d : Nat) : (s.withReads u d).Inv :=
  h.of_fields_eq rfl rfl rfl rfl rfl rfl

theorem State.Inv.bufReadList (h : s.Inv) (a n : Nat) : (s.bufReadList a n).2.Inv :=
  h.of_fields_eq (bufReadList_params ..) (bufReadList_regs ..) (bufReadList_trks ..) (bufReadList_eng ..)
    (bufReadList_buf ..) (bufReadList_out ..)

end operations

/-! ### The invariant under the engine's steps -/

/-- The emission of a chunk of a running PACKETIZE: its slot stays live, and either the last chunk completes the command
or the next one exists. -/
theorem State.Inv.emitChunk {s : State} (h : s.Inv) (hphase : s.eng.phase = .run) : s.emitChunk.Inv := by
  have hlive := (h.run hphase).live
  have hindex := (h.run hphase).index
  unfold State.emitChunk
  dsimp only
  generalize hr : s.bufReadList (s.eng.src + Config.maxChunk * s.eng.i) (chunkLen s.eng.len s.eng.i) = r
  have heng : r.2.eng = s.eng := by rw [← hr, bufReadList_eng]
  have hchunk : r.1.length ≤ 182 := by
    rw [← hr, bufReadList_length]; exact Nat.min_le_left ..
  have hread : r.2.Inv := hr ▸ h.bufReadList _ _
  have htrks : r.2.trks = s.trks := by rw [← hr, bufReadList_trks]
  have hvalid : (r.2.trk s.eng.t).valid = true := by rw [State.trk_congr htrks, hlive]
  have hcounter (c : BitVec 4) : (r.2.putTrk s.eng.t { r.2.trk s.eng.t with cc := c }).Inv :=
    hread.putTrk _ (by simp [hvalid]) (fun _ => hvalid)
  have hemit (first : Bool) (pid : BitVec 13) (cc : BitVec 4) :=
    (hcounter cc).emit (p := packetBytes first pid cc r.1)
      (by rw [packetBytes_eq _ _ _ hchunk, specPacket_length _ _ _ hchunk])
  split
  · have hidle := (hemit (s.eng.i == 0) (r.2.trk s.eng.t).pid (ccNorm ((r.2.trk s.eng.t).cc.toNat + 1))).setEng
      (e := { r.2.eng with phase := .idle, i := s.eng.i + 1 }) rfl (fun hp => by cases hp)
    exact (hidle.resultWrite (putPktn_resultWrite s.eng.n _)).complete .ok
  · refine (hemit ..).setEng rfl fun hp => ((hemit ..).run hp).advance ?_
    show s.eng.i + 1 < r.2.eng.n
    rw [heng]
    omega

/-- The state a PACKETIZE takes its packet steps from (R106). -/
theorem State.Inv.packetizing {s : State} (h : s.Inv) {t : Nat} {fp : Bool}
    (hcmd : decode s.eng.cmd = .instr (.packetize t fp)) (ht : t < s.params.nTracks) (hv : (s.trk t).valid = true)
    (hb : s.arg0Nat + s.arg1Nat ≤ s.params.bufBytes) (hl : 0 < s.arg1Nat) : (s.packetizing t).Inv := by
  refine h.setEng rfl fun _ => ⟨⟨fp, hcmd⟩, ht, hv, rfl, rfl, hb, rfl, ?_⟩
  show 0 < ceilDiv s.arg1Nat Config.maxChunk
  rw [ceilDiv_chunk]
  omega

theorem State.Inv.exec {s s' : State} {i : Instr} (h : s.Inv) (hcmd : decode s.eng.cmd = .instr i)
    (hphase : s.eng.phase = .start) (hexec : Machine.exec i s = .next s') : s'.Inv := by
  have hstart (x : Track) (hp : s.eng.phase = .run) : x.valid = true := by simp [hphase] at hp
  cases exec_cases hexec with
  | failed c u d _ _ _ _ he => rw [he]; exact (h.withReads u d).complete c
  | results r u d hw _ he => rw [he]; exact ((h.withReads u d).resultWrite hw).complete .ok
  | created t x _ _ _ hx _ he => rw [he]; exact (h.putTrk t (by simp [hx]) (hstart x)).complete .ok
  | freed t _ _ he => rw [he]; exact (h.putTrk t (fun _ => rfl) (hstart _)).complete .ok
  | seeded t _ _ hv he => rw [he]; exact (h.putTrk t (by simp [hv]) (hstart _)).complete .ok
  | field m r _ hw hm hin he =>
    have hrange : ∀ c ∈ m, c.1 < s.params.bufBytes := fun c hc => (hin c hc).elim (h.bufRange c) id
    rw [he]; exact ((h.setBuf (hm h.bufWf) hrange).resultWrite hw).complete .ok
  | packet t fp hi ht hv hb hl he => rw [he]; exact (h.packetizing (hi ▸ hcmd) ht hv hb hl).emitChunk rfl

theorem State.Inv.engineStep {s s' : State} (h : s.Inv) (hstep : Machine.engineStep s = .next s') : s'.Inv := by
  obtain ⟨-, rfl⟩ | ⟨-, -, rfl⟩ | ⟨hphase, i, hcmd, hexec⟩ | ⟨hphase, hpacket⟩ := engineStep_cases hstep
  · exact h
  · exact h.complete .illegalCmd
  · exact h.exec hcmd hphase hexec
  · obtain ⟨-, -, -, rfl⟩ := packetStep_next hpacket
    exact h.emitChunk hphase

/-! ### The invariant under the host's transactions -/

theorem State.Inv.hostStep {s : State} (h : s.Inv) (op : HostOp) : (Machine.hostStep op s).Inv := by
  cases hostStep_cases op s with
  | answered x he => rw [he]; exact h.respond x
  | accepted v _ _ he => rw [he]; exact (h.accept v).respond .done
  | dropped v _ _ he =>
    rw [he]; exact (h.setControl true s.regs.err s.regs.lopc s.regs.arg0 s.regs.arg1).respond .done
  | status v _ he =>
    rw [he]; exact (h.setControl _ s.regs.err s.regs.lopc s.regs.arg0 s.regs.arg1).respond .done
  | argument v w he => rw [he]; exact (h.setControl s.regs.ovr s.regs.err s.regs.lopc v w).respond .done
  | bufRead z u d v _ he => rw [he]; exact h.of_fields_eq rfl rfl rfl rfl rfl rfl
  | bufWrite z a v ha he =>
    have hrange : ∀ c ∈ s.buf.write a v, c.1 < s.params.bufBytes := fun c hc =>
      (Memory.mem_write hc).elim (fun heq => heq ▸ ha) (h.bufRange c)
    rw [he]; exact (h.setBuf (Memory.wf_write h.bufWf a v) hrange).of_fields_eq rfl rfl rfl rfl rfl rfl

theorem State.Inv.busStep {s : State} (h : s.Inv) (acc : BusAccess) : (Machine.busStep acc s).Inv := by
  obtain hnone | ⟨op, -, hop⟩ := busStep_cases acc s
  · rw [hnone]; exact h
  · rw [hop]; exact h.hostStep op

/-- Settles O58, by the inversion of a step. -/
theorem invKeptByEveryStep : Obligations.InvKeptByEveryStep := by
  intro s s' h hstep
  obtain ⟨rest, -, rfl⟩ | ⟨op, rest, -, rfl⟩ | ⟨acc, rest, -, rfl⟩ | ⟨-, hturn⟩ := step_cases hstep
  · exact .blockReset h.legal h.packets
  · exact (h.withInputs rest).hostStep op
  · exact (h.withInputs rest).busStep acc
  · exact (h.withInputs _).engineStep hturn

/-! ### No stop under the invariant -/

/-- PACKETIZE's first packet step has a chunk, a slot and a range, which its checks have found (R106). -/
theorem execPacketize_next (t : Nat) (fp : Bool) (s : State) : ∃ s', execPacketize t fp s = .next s' := by
  unfold execPacketize
  dsimp only
  split_ifs with hslot _ hrange hn
  · exact ⟨_, rfl⟩
  · exact ⟨_, rfl⟩
  · exact ⟨_, rfl⟩
  · exact ⟨_, rfl⟩
  · rw [Bool.not_eq_false, State.slotExists_iff] at hslot
    have hlen : 0 < s.arg1Nat := by rw [ceilDiv_chunk] at hn; omega
    have hchunk : chunkLen s.arg1Nat 0 ≤ s.arg1Nat := Nat.min_le_right ..
    exact ⟨_, packetStep_of (Nat.pos_of_ne_zero hn) hlen hslot (by simp; omega)⟩

theorem parseBody_next (a : Nat) (b0 : Byte) (s : State) : ∃ s', parseBody a b0 s = .next s' := by
  unfold parseBody
  dsimp only
  split
  · exact ⟨_, rfl⟩
  · split <;> exact ⟨_, rfl⟩

/-- Every command, in every state, answers a next state: each check and the effect after it end in `finish`. -/
theorem exec_next (i : Instr) (s : State) : ∃ s', exec i s = .next s' := by
  cases i with
  | nop => exact ⟨_, rfl⟩
  | trkCfg t => simp only [exec, execTrkCfg]; split_ifs <;> exact ⟨_, rfl⟩
  | trkFree t => simp only [exec, execTrkFree]; split_ifs <;> exact ⟨_, rfl⟩
  | trkSetcc t => simp only [exec, execTrkSetcc]; split_ifs <;> exact ⟨_, rfl⟩
  | trkRead t => simp only [exec, execTrkRead]; split_ifs <;> exact ⟨_, rfl⟩
  | hdrEnc => simp only [exec, execHdrEnc]; split_ifs <;> exact ⟨_, rfl⟩
  | hdrDec => simp only [exec, execHdrDec]; split_ifs <;> exact ⟨_, rfl⟩
  | afEnc => simp only [exec, execAfEnc]; split_ifs <;> exact ⟨_, rfl⟩
  | afDec =>
    simp only [exec, execAfDec]
    split_ifs
    · exact ⟨_, rfl⟩
    · exact ⟨_, rfl⟩
    · split <;> exact ⟨_, rfl⟩
  | packetize t fp => exact execPacketize_next t fp s
  | parse =>
    simp only [exec, execParse]
    split_ifs
    · exact ⟨_, rfl⟩
    · exact ⟨_, rfl⟩
    · exact ⟨_, rfl⟩
    · exact parseBody_next ..

/-- A running PACKETIZE's next chunk lies in the payload, and the payload in BUF (R46, R54). -/
theorem State.RunOk.packetStep_next {s : State} (h : s.RunOk) : packetStep s = .next s.emitChunk := by
  have hcount : s.eng.n = (s.eng.len + 181) / 182 := h.count.trans (ceilDiv_chunk s.eng.len)
  have hindex := h.index
  have hchunk : 182 * s.eng.i < s.eng.len := by omega
  have hlen : chunkLen s.eng.len s.eng.i ≤ s.eng.len - 182 * s.eng.i := Nat.min_le_right ..
  have hrange := h.range
  exact packetStep_of hindex hchunk h.slot (by omega)

theorem State.Inv.engineStep_next {s : State} (h : s.Inv) : ∃ s', Machine.engineStep s = .next s' := by
  cases hphase : s.eng.phase with
  | idle => exact ⟨s, engineStep_idle hphase⟩
  | start =>
    rw [engineStep_start hphase]
    cases hdecode : decode s.eng.cmd with
    | instr i => rw [runCommand_instr hdecode]; exact exec_next i s
    | illegal why => exact ⟨_, runCommand_illegal hdecode⟩
  | run => exact ⟨_, (engineStep_run hphase).trans (h.run hphase).packetStep_next⟩

/-- Settles O59: the host's transactions and reset answer in any state, the engine in one that keeps the invariant. -/
theorem stepNeverStopsUnderInv : Obligations.StepNeverStopsUnderInv := by
  intro s h
  unfold step nextStep
  split
  · exact h.engineStep_next
  · next e rest _ =>
    cases e with
    | engine => exact (h.withInputs rest).engineStep_next
    | host op => exact ⟨_, rfl⟩
    | bus acc => exact ⟨_, rfl⟩
    | reset => exact ⟨_, rfl⟩

end Sys2Proof.Machine
end

section
/-! What a step does to the track table, OUT, the fault flags and the registers, read off the inversions of the step. -/

namespace Sys2Proof.Machine

/-- Settles O8. -/
theorem stepRunsDecodedCommand : Obligations.StepRunsDecodedCommand := by
  intro s i hphase hdecode
  have hengine (s : State) (hphase : s.eng.phase = .start) (hdecode : decode s.eng.cmd = .instr i) :
      engineStep s = exec i s := (engineStep_start hphase).trans (runCommand_instr hdecode)
  constructor
  · intro hi
    rw [step_engine (by simp [State.engineNext, hi]), State.withInputs_tail_nil hi]
    exact hengine s hphase hdecode
  · intro rest hi
    rw [step_engine (by simp [State.engineNext, hi]), hi]
    exact hengine (s.withInputs rest) hphase hdecode

/-- Settles O16, by the law of a table with one slot written. -/
theorem slotWriteReadsBack : Obligations.SlotWriteReadsBack := by
  intro s t u x ht hlen
  rw [← hlen] at ht
  by_cases hu : u = t
  · rw [if_pos hu, hu]; exact State.putTrk_trk_eq x s ht
  · rw [if_neg hu]; exact State.putTrk_trk_ne x s hu

/-! ### What the host makes a step do -/

/-- A step in which the host makes this transaction, as one or as an access on its bus (log 9). -/
def State.hostDoes (s : State) (op : HostOp) : Prop :=
  (∃ rest, s.inputs = .host op :: rest) ∨
    ∃ acc rest, s.inputs = .bus acc :: rest ∧ busDecode s.params acc = some op

/-- What a step did: a reset, nothing (a bus access elsewhere), one transaction of the host, or a turn of the engine. -/
theorem step_effects {s s' : State} (h : step s = .next s') :
    (∃ rest, s.inputs = .reset :: rest ∧ s' = (s.withInputs rest).blockReset) ∨
    (∃ rest, s' = s.withInputs rest) ∨
    (∃ op rest, s.hostDoes op ∧ HostEffect op (s.withInputs rest) s') ∨
    (s.engineNext ∧ engineStep (s.withInputs s.inputs.tail) = .next s') := by
  obtain hreset | ⟨op, rest, hi, rfl⟩ | ⟨acc, rest, hi, rfl⟩ | hturn := step_cases h
  · exact .inl hreset
  · exact .inr (.inr (.inl ⟨op, rest, .inl ⟨rest, hi⟩, hostStep_cases op _⟩))
  · obtain hnone | ⟨op, hop, hstep⟩ := busStep_cases acc (s.withInputs rest)
    · exact .inr (.inl ⟨rest, hnone⟩)
    · exact .inr (.inr (.inl ⟨op, rest, .inr ⟨acc, rest, hi, hop⟩, hstep ▸ hostStep_cases op _⟩))
  · exact .inr (.inr (.inr hturn))

/-- No host transaction touches the track table or OUT (45_host_access.md R131). -/
theorem HostEffect.trks {op : HostOp} {s s' : State} (h : HostEffect op s s') : s'.trks = s.trks := by
  cases h with
  | answered _ he | accepted _ _ _ he | dropped _ _ _ he | status _ _ he | argument _ _ he | bufRead _ _ _ _ _ he
  | bufWrite _ _ _ _ he => rw [he]; rfl

theorem HostEffect.out {op : HostOp} {s s' : State} (h : HostEffect op s s') : s'.out = s.out := by
  cases h with
  | answered _ he | accepted _ _ _ he | dropped _ _ _ he | status _ _ he | argument _ _ he | bufRead _ _ _ _ _ he
  | bufWrite _ _ _ _ he => rw [he]; rfl

/-! ### The identity of a track -/

/-- The slot holds the same track or, at most, another value of its counter (10_state.md R42). -/
structure Track.SameIdentity (x y : Track) : Prop where
  valid : y.valid = x.valid
  pid : y.pid = x.pid
  st : y.st = x.st

theorem Track.SameIdentity.refl (x : Track) : x.SameIdentity x := ⟨rfl, rfl, rfl⟩

/-- Writing a slot's counter keeps the identity of every slot. -/
theorem State.sameIdentity_of_counter {s s' : State} {t : Nat} (c : BitVec 4)
    (h : s'.trks = s.trks.set t { s.trk t with cc := c }) (u : Nat) : (s.trk u).SameIdentity (s'.trk u) := by
  rw [State.trk, State.trk, h, getD_set_slot]
  split
  · next hu => rw [hu.1]; exact ⟨rfl, rfl, rfl⟩
  · exact .refl _

/-- What a command does to slot `t`: it keeps the identity of the track there, or it is the TRK_CFG that makes one in
the free slot, or the TRK_FREE that ends one. -/
theorem exec_trk {i : Instr} {s s' : State} (hlen : s.trks.length = s.params.nTracks) (h : exec i s = .next s')
    (t : Nat) :
    (s.trk t).SameIdentity (s'.trk t) ∨ (i = .trkCfg t ∧ (s.trk t).valid = false) ∨
      (i = .trkFree t ∧ s'.trk t = Track.empty) := by
  cases exec_cases h with
  | failed _ _ _ _ _ _ _ he | results _ _ _ _ _ he | field _ _ _ _ _ _ he =>
    rw [he]; exact .inl (.refl _)
  | created u x hi hu hf _ _ he =>
    by_cases ht : t = u
    · exact .inr (.inl ⟨ht ▸ hi, ht ▸ hf⟩)
    · left
      rw [he, State.trk_congr (State.complete_trks _ _), State.putTrk_trk_ne x s ht]
      exact .refl _
  | freed u hi hu he =>
    by_cases ht : t = u
    · right; right
      rw [he, ht, State.trk_congr (State.complete_trks _ _), State.putTrk_trk_eq _ s (hlen ▸ hu)]
      exact ⟨hi, rfl⟩
    · left
      rw [he, State.trk_congr (State.complete_trks _ _), State.putTrk_trk_ne _ s ht]
      exact .refl _
  | seeded u _ _ _ he => exact .inl (State.sameIdentity_of_counter (t := u) _ (by rw [he]; rfl) t)
  | packet u _ _ _ _ _ _ he =>
    exact .inl (State.sameIdentity_of_counter (s := s) _ (by rw [he]; exact State.emitChunk_trks _) t)

/-- What an engine step does to slot `t`. -/
theorem engineStep_trk {s s' : State} (hlen : s.trks.length = s.params.nTracks) (h : engineStep s = .next s')
    (t : Nat) :
    (s.trk t).SameIdentity (s'.trk t) ∨
    (s.eng.phase = .start ∧ decode s.eng.cmd = .instr (.trkCfg t) ∧ (s.trk t).valid = false) ∨
    (s.eng.phase = .start ∧ decode s.eng.cmd = .instr (.trkFree t) ∧ s'.trk t = Track.empty) := by
  obtain ⟨-, rfl⟩ | ⟨-, -, rfl⟩ | ⟨hphase, i, hdecode, hexec⟩ | ⟨-, hpacket⟩ := engineStep_cases h
  · exact .inl (.refl _)
  · exact .inl (.refl _)
  · obtain hsame | ⟨rfl, hfree⟩ | ⟨rfl, hempty⟩ := exec_trk hlen hexec t
    · exact .inl hsame
    · exact .inr (.inl ⟨hphase, hdecode, hfree⟩)
    · exact .inr (.inr ⟨hphase, hdecode, hempty⟩)
  · obtain ⟨-, -, -, rfl⟩ := packetStep_next hpacket
    exact .inl (State.sameIdentity_of_counter _ s.emitChunk_trks t)

/-- Every slot is empty after a reset (R51). -/
theorem State.blockReset_trk (s : State) (t : Nat) : s.blockReset.trk t = Track.empty := by
  rw [State.trk, State.blockReset_trks, List.getD_eq_getElem?_getD, List.getElem?_replicate]
  split <;> rfl

/-- What a step does to slot `t`: a reset or a TRK_FREE empties it, a TRK_CFG makes a track in it where it is free, and
any other step keeps the identity of the track there. -/
theorem step_trk {s s' : State} (hlen : s.trks.length = s.params.nTracks) (h : step s = .next s') (t : Nat) :
    (s.trk t).SameIdentity (s'.trk t) ∨
    ((∃ rest, s.inputs = .reset :: rest) ∧ s'.trk t = Track.empty) ∨
    (s.engineNext ∧ s.eng.phase = .start ∧ decode s.eng.cmd = .instr (.trkCfg t) ∧ (s.trk t).valid = false) ∨
    (s.engineNext ∧ s.eng.phase = .start ∧ decode s.eng.cmd = .instr (.trkFree t) ∧ s'.trk t = Track.empty) := by
  obtain ⟨rest, hi, rfl⟩ | ⟨rest, rfl⟩ | ⟨op, rest, -, heffect⟩ | ⟨hnext, hturn⟩ := step_effects h
  · exact .inr (.inl ⟨⟨rest, hi⟩, State.blockReset_trk _ t⟩)
  · exact .inl (.refl _)
  · left
    rw [State.trk_congr heffect.trks]
    exact .refl _
  · obtain hsame | hmade | hfreed := engineStep_trk (s := s.withInputs s.inputs.tail) hlen hturn t
    · exact .inl hsame
    · exact .inr (.inr (.inl ⟨hnext, hmade⟩))
    · exact .inr (.inr (.inr ⟨hnext, hfreed⟩))

/-- Settles O39: of the events that change a slot's identity one needs a free slot, the others leave an empty one. -/
theorem liveTrackIdentityIsImmutable : Obligations.LiveTrackIdentityIsImmutable := by
  intro s s' t hlen h
  have hcounter : (s'.trk t).cc.toNat ≤ 15 := Nat.le_of_lt_succ (s'.trk t).cc.isLt
  obtain hsame | ⟨hreset, hempty⟩ | ⟨hnext, hphase, hdecode, hfree⟩ | ⟨hnext, hphase, hdecode, hempty⟩ :=
    step_trk hlen h t
  · refine ⟨fun _ _ => ⟨hsame.pid, hsame.st⟩, hcounter, fun hne => ?_⟩
    exact hne.elim (absurd hsame.pid) (absurd hsame.st)
  · exact ⟨fun _ hlive => by simp [hempty, Track.empty] at hlive, hcounter, fun _ => .inl hreset⟩
  · exact ⟨fun hlive _ => by simp [hfree] at hlive, hcounter,
      fun _ => .inr ⟨hnext, hphase, .inl ⟨hdecode, hfree⟩⟩⟩
  · exact ⟨fun _ hlive => by simp [hempty, Track.empty] at hlive, hcounter,
      fun _ => .inr ⟨hnext, hphase, .inr hdecode⟩⟩

/-! ### OUT -/

/-- A command leaves OUT as it was, or it is a PACKETIZE, which appends one packet. -/
theorem exec_out {i : Instr} {s s' : State} (h : exec i s = .next s') :
    s'.out = s.out ∨ ((∃ p : List Byte, s'.out = s.out ++ [p] ∧ p.length = 188) ∧ ∃ t fp, i = .packetize t fp) := by
  cases exec_cases h with
  | failed _ _ _ _ _ _ _ he | results _ _ _ _ _ he | created _ _ _ _ _ _ _ he | freed _ _ _ he | seeded _ _ _ _ he
  | field _ _ _ _ _ _ he => rw [he]; exact .inl rfl
  | packet t fp hi _ _ _ _ he => rw [he]; exact .inr ⟨State.emitChunk_out _, t, fp, hi⟩

/-- Settles O40: host transactions and reset leave OUT alone, an engine step emits at most one packet. -/
theorem outOnlyGrowsByWholePackets : Obligations.OutOnlyGrowsByWholePackets := by
  refine ⟨fun _ => rfl, fun s s' h => ?_⟩
  obtain ⟨rest, -, rfl⟩ | ⟨rest, rfl⟩ | ⟨op, rest, -, heffect⟩ | ⟨hnext, hturn⟩ := step_effects h
  · exact .inl rfl
  · exact .inl rfl
  · exact .inl heffect.out
  · obtain ⟨-, rfl⟩ | ⟨-, -, rfl⟩ | ⟨hphase, i, hdecode, hexec⟩ | ⟨hphase, hpacket⟩ := engineStep_cases hturn
    · exact .inl rfl
    · exact .inl rfl
    · obtain hsame | ⟨hgrows, t, fp, rfl⟩ := exec_out hexec
      · exact .inl hsame
      · exact .inr ⟨hgrows, hnext, .inr ⟨hphase, t, fp, hdecode⟩⟩
    · obtain ⟨-, -, -, rfl⟩ := packetStep_next hpacket
      exact .inr ⟨State.emitChunk_out _, hnext, .inl hphase⟩

/-! ### The fault flags -/

/-- `s'` has every fault flag that `s` has (10_state.md R50). -/
structure State.FaultsKept (s s' : State) : Prop where
  haz : s.faultHaz = true → s'.faultHaz = true
  uninit : s.faultUninit = true → s'.faultUninit = true

theorem State.emitChunk_faultsKept (s : State) : s.FaultsKept s.emitChunk :=
  ⟨fun h => s.emitChunk_faultHaz.trans h, s.emitChunk_faultUninit⟩

theorem exec_faultsKept {i : Instr} {s s' : State} (h : exec i s = .next s') : s.FaultsKept s' := by
  cases exec_cases h with
  | failed _ _ _ _ _ hu _ he | results _ _ _ _ hu he => rw [he]; exact ⟨id, hu⟩
  | created _ _ _ _ _ _ _ he | freed _ _ _ he | seeded _ _ _ _ he | field _ _ _ _ _ _ he => rw [he]; exact ⟨id, id⟩
  | packet t _ _ _ _ _ _ he =>
    obtain ⟨hhaz, huninit⟩ := (s.packetizing t).emitChunk_faultsKept
    rw [he]; exact ⟨hhaz, huninit⟩

theorem engineStep_faultsKept {s s' : State} (h : engineStep s = .next s') : s.FaultsKept s' := by
  obtain ⟨-, rfl⟩ | ⟨-, -, rfl⟩ | ⟨-, i, -, hexec⟩ | ⟨-, hpacket⟩ := engineStep_cases h
  · exact ⟨id, id⟩
  · exact ⟨id, id⟩
  · exact exec_faultsKept hexec
  · obtain ⟨-, -, -, rfl⟩ := packetStep_next hpacket
    exact s.emitChunk_faultsKept

theorem HostEffect.faultsKept {op : HostOp} {s s' : State} (h : HostEffect op s s') : s.FaultsKept s' := by
  cases h with
  | answered _ he | accepted _ _ _ he | dropped _ _ _ he | status _ _ he | argument _ _ he => rw [he]; exact ⟨id, id⟩
  | bufRead _ _ _ _ hu he => rw [he]; exact ⟨fun hh => by simp [hh], hu⟩
  | bufWrite _ _ _ _ he => rw [he]; exact ⟨fun hh => by simp [hh], id⟩

/-- Settles O41. -/
theorem faultFlagsNeverCleared : Obligations.FaultFlagsNeverCleared := by
  refine ⟨fun _ => ⟨rfl, rfl⟩, fun s s' h => ?_⟩
  have hkept : s.FaultsKept s' := by
    obtain ⟨rest, -, rfl⟩ | ⟨rest, rfl⟩ | ⟨op, rest, -, heffect⟩ | ⟨-, hturn⟩ := step_effects h
    · exact ⟨id, id⟩
    · exact ⟨id, id⟩
    · exact ⟨heffect.faultsKept.haz, heffect.faultsKept.uninit⟩
    · exact ⟨(engineStep_faultsKept hturn).haz, (engineStep_faultsKept hturn).uninit⟩
  exact ⟨hkept.haz, hkept.uninit⟩

/-! ### STATUS and the result registers -/

/-- A transaction raises OVR only where it is a CMD write while BUSY, and clears it only where it is a STATUS write with
bit 1 set (10_state.md R26). -/
theorem HostEffect.ovr {op : HostOp} {s s' : State} (h : HostEffect op s s') :
    s'.regs.ovr = s.regs.ovr ∨
    (s'.regs.ovr = true ∧ s.eng.phase ≠ .idle ∧ ∃ v, op = .wr 32 0x04 v) ∨
    (s'.regs.ovr = false ∧ ∃ v, op = .wr 32 0x08 v ∧ v.getLsbD 1 = true) := by
  cases h with
  | answered _ he | accepted _ _ _ he | argument _ _ he | bufRead _ _ _ _ _ he | bufWrite _ _ _ _ he =>
    rw [he]; exact .inl rfl
  | dropped v ho hp he => rw [he]; exact .inr (.inl ⟨rfl, hp, v, ho⟩)
  | status v ho he =>
    have hovr : s'.regs.ovr = (s.regs.ovr && !v.getLsbD 1) := by rw [he]; rfl
    cases hv : v.getLsbD 1 with
    | true => exact .inr (.inr ⟨by rw [hovr, hv, Bool.not_true, Bool.and_false], v, ho, hv⟩)
    | false => exact .inl (by rw [hovr, hv, Bool.not_false, Bool.and_true])

/-- What a step does to OVR. -/
theorem step_ovr {s s' : State} (h : step s = .next s') :
    s'.regs.ovr = s.regs.ovr ∨
    (s'.regs.ovr = true ∧ s.eng.phase ≠ .idle ∧ ∃ v, s.hostDoes (.wr 32 0x04 v)) ∨
    (s'.regs.ovr = false ∧
      ((∃ v, s.hostDoes (.wr 32 0x08 v) ∧ v.getLsbD 1 = true) ∨ ∃ rest, s.inputs = .reset :: rest)) := by
  obtain ⟨rest, hi, rfl⟩ | ⟨rest, rfl⟩ | ⟨op, rest, hop, heffect⟩ | ⟨-, hturn⟩ := step_effects h
  · exact .inr (.inr ⟨rfl, .inr ⟨rest, hi⟩⟩)
  · exact .inl rfl
  · obtain hsame | ⟨hset, hphase, v, rfl⟩ | ⟨hclear, v, rfl, hv⟩ := heffect.ovr
    · exact .inl hsame
    · exact .inr (.inl ⟨hset, hphase, v, hop⟩)
    · exact .inr (.inr ⟨hclear, .inl ⟨v, hop, hv⟩⟩)
  · exact .inl (engineTurn_hostSideKept hturn).ovr

/-- Settles O42: of the events that may change OVR one leaves it set, the others leave it clear. -/
theorem overrunFlagTransitions : Obligations.OverrunFlagTransitions := by
  intro s s' h hostDoes
  obtain hsame | ⟨hset, hwrite⟩ | ⟨hclear, hwrite⟩ := step_ovr h
  · exact ⟨fun h0 h1 => by simp [hsame, h0] at h1, fun h1 h0 => by simp [hsame, h1] at h0⟩
  · exact ⟨fun _ _ => hwrite, fun _ h0 => by simp [hset] at h0⟩
  · exact ⟨fun _ h1 => by simp [hclear] at h1, fun _ _ => hwrite⟩

/-- The registers that a completion alone changes: ERR, LOPC and the result registers (10_state.md R21, R27, R28). -/
structure Regs.ResultsKept (r r' : Regs) : Prop where
  err : r'.err = r.err
  lopc : r'.lopc = r.lopc
  hdrw : r'.hdrw = r.hdrw
  hdrx : r'.hdrx = r.hdrx
  afr : r'.afr = r.afr
  afc : r'.afc = r.afc
  plr : r'.plr = r.plr
  trkr : r'.trkr = r.trkr
  pktn : r'.pktn = r.pktn

theorem Regs.ResultsKept.of_eq {r r' : Regs} (h : r' = r) : r.ResultsKept r' := by
  rw [h]; exact ⟨rfl, rfl, rfl, rfl, rfl, rfl, rfl, rfl, rfl⟩

/-- No host transaction writes them (10_state.md R20, R21). -/
theorem HostEffect.resultsKept {op : HostOp} {s s' : State} (h : HostEffect op s s') : s.regs.ResultsKept s'.regs := by
  cases h with
  | answered _ he | accepted _ _ _ he | dropped _ _ _ he | status _ _ he | argument _ _ he | bufRead _ _ _ _ _ he
  | bufWrite _ _ _ _ he => rw [he]; exact ⟨rfl, rfl, rfl, rfl, rfl, rfl, rfl, rfl, rfl⟩

/-- A command completes, or it is a PACKETIZE with packets to come, which writes no register. -/
theorem exec_phase_or_regs {i : Instr} {s s' : State} (h : exec i s = .next s') :
    s'.eng.phase = .idle ∨ s'.regs = s.regs := by
  cases exec_cases h with
  | failed _ _ _ _ _ _ _ he | results _ _ _ _ _ he | created _ _ _ _ _ _ _ he | freed _ _ _ he | seeded _ _ _ _ he
  | field _ _ _ _ _ _ he => rw [he]; exact .inl rfl
  | packet t _ _ _ _ _ _ he => rw [he]; exact (s.packetizing t).emitChunk_phase_or_regs

theorem engineStep_phase_or_regs {s s' : State} (h : engineStep s = .next s') :
    (s.eng.phase ≠ .idle ∧ s'.eng.phase = .idle) ∨ s'.regs = s.regs := by
  obtain ⟨-, rfl⟩ | ⟨hphase, -, rfl⟩ | ⟨hphase, i, -, hexec⟩ | ⟨hphase, hpacket⟩ := engineStep_cases h
  · exact .inr rfl
  · exact .inl ⟨by simp [hphase], rfl⟩
  · exact (exec_phase_or_regs hexec).imp_left fun hidle => ⟨by simp [hphase], hidle⟩
  · obtain ⟨-, -, -, rfl⟩ := packetStep_next hpacket
    exact s.emitChunk_phase_or_regs.imp_left fun hidle => ⟨by simp [hphase], hidle⟩

/-- Settles O43: host transactions do not write these registers, and an engine step that writes one completes. -/
theorem resultsChangeOnlyAtCompletion : Obligations.ResultsChangeOnlyAtCompletion := by
  intro s s' h hreset hcompletion
  have hkept : s.regs.ResultsKept s'.regs := by
    obtain ⟨rest, hi, -⟩ | ⟨rest, rfl⟩ | ⟨op, rest, -, heffect⟩ | ⟨hnext, hturn⟩ := step_effects h
    · exact absurd hi (hreset rest)
    · exact .of_eq rfl
    · exact heffect.resultsKept
    · obtain hcompletes | hregs := engineStep_phase_or_regs hturn
      · exact absurd ⟨hnext, hcompletes⟩ hcompletion
      · exact .of_eq hregs
  obtain ⟨herr, hlopc, hhdrw, hhdrx, hafr, hafc, hplr, htrkr, hpktn⟩ := hkept
  exact ⟨herr, hlopc, hhdrw, hhdrx, hafr, hafc, hplr, htrkr, hpktn⟩

end Sys2Proof.Machine
end

section
/-! No command reads or writes a slot other than the one its TRK field names (20_memory.md R68). A change of another
slot `u` is a `State.putTrk u x`; every operation of the state, and so every command, commutes with it. -/

namespace Sys2Proof

/-- The slot the TRK field of a command names, none where the command has no such field (30_encoding.md R71). -/
def Instr.slot? : Instr → Option Nat
  | .trkCfg t | .trkFree t | .trkSetcc t | .trkRead t | .packetize t _ => some t
  | .nop | .hdrEnc | .hdrDec | .afEnc | .afDec | .parse => none

theorem Instr.slot?_eq_some_iff {i : Instr} {t : Nat} :
    i.slot? = some t ↔
      i = .trkCfg t ∨ i = .trkFree t ∨ i = .trkSetcc t ∨ i = .trkRead t ∨ ∃ fp, i = .packetize t fp := by
  cases i <;> simp [Instr.slot?]

end Sys2Proof

namespace Sys2Proof.Machine

/-- An outcome, its next state changed by `f`. -/
def mapNext (f : State → State) : Result → Result
  | .next s => .next (f s)
  | .fault r => .fault r
  | .refused r => .refused r

@[simp] theorem mapNext_next (f : State → State) (s : State) : mapNext f (.next s) = .next (f s) := rfl
@[simp] theorem mapNext_fault (f : State → State) (r : Fault) : mapNext f (.fault r) = .fault r := rfl
@[simp] theorem mapNext_ite (f : State → State) (p : Prop) {_ : Decidable p} (a b : Result) :
    mapNext f (if p then a else b) = if p then mapNext f a else mapNext f b := apply_ite ..

/-! ### Every operation of the state commutes with a change of a slot that it does not touch -/

section operations
variable (u : Nat) (x : Track) (s : State)

@[simp] theorem mapNext_putTrk_finish (c : ErrCode) :
    mapNext (State.putTrk u x) (finish c s) = finish c (s.putTrk u x) := rfl
@[simp] theorem State.putTrk_arg0Nat : (s.putTrk u x).arg0Nat = s.arg0Nat := rfl
@[simp] theorem State.putTrk_arg1Nat : (s.putTrk u x).arg1Nat = s.arg1Nat := rfl
@[simp] theorem State.putTrk_slotExists (t : Nat) : (s.putTrk u x).slotExists t = s.slotExists t := rfl
@[simp] theorem State.putHeader_putTrk (w : Word) (b : Bool) :
    (s.putHeader w b).putTrk u x = (s.putTrk u x).putHeader w b := rfl
@[simp] theorem State.putAf_putTrk (v w : Word) : (s.putAf v w).putTrk u x = (s.putTrk u x).putAf v w := rfl
@[simp] theorem State.putPlr_putTrk (v : Word) : (s.putPlr v).putTrk u x = (s.putTrk u x).putPlr v := rfl
@[simp] theorem State.putTrkr_putTrk (v : Word) : (s.putTrkr v).putTrk u x = (s.putTrk u x).putTrkr v := rfl
@[simp] theorem State.putPktn_putTrk (n : Nat) : (s.putPktn n).putTrk u x = (s.putTrk u x).putPktn n := rfl
theorem State.startRun_putTrk (t src len n : Nat) :
    (s.startRun t src len n).putTrk u x = (s.putTrk u x).startRun t src len n := rfl
@[simp] theorem State.bufWrite_putTrk (a : Nat) (v : Byte) :
    (s.bufWrite a v).putTrk u x = (s.putTrk u x).bufWrite a v := rfl

@[simp] theorem State.bufWriteList_putTrk (a : Nat) (bytes : List Byte) :
    (s.bufWriteList a bytes).putTrk u x = (s.putTrk u x).bufWriteList a bytes := by
  induction bytes generalizing a s with
  | nil => rfl
  | cons v rest ih => simp only [State.bufWriteList, ih, State.bufWrite_putTrk]

@[simp] theorem State.putTrk_bufRead (a : Nat) :
    (s.putTrk u x).bufRead a = ((s.bufRead a).1, (s.bufRead a).2.putTrk u x) := by
  cases h : s.buf.read a with
  | some v => rw [bufRead_written h, bufRead_written (s := s.putTrk u x) h]
  | none => rw [bufRead_unwritten h, bufRead_unwritten (s := s.putTrk u x) h]; rfl

@[simp] theorem State.putTrk_bufReadList (a n : Nat) :
    (s.putTrk u x).bufReadList a n = ((s.bufReadList a n).1, (s.bufReadList a n).2.putTrk u x) := by
  induction n generalizing a s with
  | zero => rfl
  | succ k ih => simp [State.bufReadList, ih]

variable {u}

/-- Writes of two slots commute. -/
theorem State.putTrk_comm {t : Nat} (h : t ≠ u) (y : Track) :
    (s.putTrk t y).putTrk u x = (s.putTrk u x).putTrk t y := by
  simp [State.putTrk, List.set_comm y x h]

/-- Emission reads and writes slot eng.t alone (43_packetizer.md R107). -/
theorem State.emitChunk_putTrk (h : s.eng.t ≠ u) : s.emitChunk.putTrk u x = (s.putTrk u x).emitChunk := by
  rw [State.emitChunk_eq, State.emitChunk_eq]
  simp only [putTrk_eng, putTrk_bufReadList, putTrk_trk_ne x s h]
  split <;> simp [State.putTrk, List.set_comm _ x h]

end operations

/-! ### The commands -/

section commands
variable {u : Nat} (x : Track) (s : State)

theorem packetStep_putTrk (h : s.eng.t ≠ u) :
    packetStep (s.putTrk u x) = mapNext (State.putTrk u x) (packetStep s) := by
  simp [packetStep, State.emitChunk_putTrk x s h]

theorem parseBody_putTrk (a : Nat) (b0 : Byte) :
    parseBody a b0 (s.putTrk u x) = mapNext (State.putTrk u x) (parseBody a b0 s) := by
  simp only [parseBody, State.putTrk_bufRead]
  split <;> simp

/-- A command does the same after a change of a slot that it does not name, and leaves the change as it is: its checks
do not read the slot, and what it then does commutes with the change. -/
theorem exec_putTrk {i : Instr} (h : ∀ t, i.slot? = some t → t ≠ u) :
    exec i (s.putTrk u x) = mapNext (State.putTrk u x) (exec i s) := by
  cases i with
  | nop => simp [exec, execNop]
  | trkCfg t =>
    have ht := h t rfl
    simp only [exec, execTrkCfg, mapNext_ite, mapNext_putTrk_finish, State.putTrk_trk_ne x s ht,
      State.putTrk_comm x s ht]
    rfl
  | trkFree t =>
    have ht := h t rfl
    simp [exec, execTrkFree, State.putTrk_comm x s ht]
  | trkSetcc t =>
    have ht := h t rfl
    simp [exec, execTrkSetcc, State.putTrk_trk_ne x s ht, State.putTrk_comm x s ht]
  | trkRead t =>
    have ht := h t rfl
    simp [exec, execTrkRead, State.putTrk_trk_ne x s ht]
  | hdrEnc => simp [exec, execHdrEnc]
  | hdrDec => simp only [exec, execHdrDec, mapNext_ite]; rfl
  | afEnc => simp [exec, execAfEnc]
  | afDec =>
    cases hfl : afLengthError s.arg1Nat (s.bufRead s.arg0Nat).1.toNat <;> simp [exec, execAfDec, hfl]
  | packetize t fp =>
    have ht := h t rfl
    have hstep (src len n : Nat) := packetStep_putTrk x (s.startRun t src len n) ht
    simp [exec, execPacketize, State.putTrk_trk_ne x s ht, ← State.startRun_putTrk, hstep]
  | parse => simp [exec, execParse, parseBody_putTrk]

/-- A command leaves the track table as it was, or it writes the slot that it names. -/
theorem exec_trks {i : Instr} {s s' : State} (h : exec i s = .next s') :
    s'.trks = s.trks ∨ ∃ t y, i.slot? = some t ∧ s'.trks = s.trks.set t y := by
  cases exec_cases h with
  | failed _ _ _ _ _ _ _ he | results _ _ _ _ _ he | field _ _ _ _ _ _ he => rw [he]; exact .inl rfl
  | created _ _ hi _ _ _ _ he | freed _ hi _ he | seeded _ hi _ _ he => rw [hi, he]; exact .inr ⟨_, _, rfl, rfl⟩
  | packet _ _ hi _ _ _ _ he => rw [hi, he, State.emitChunk_trks]; exact .inr ⟨_, _, rfl, rfl⟩

/-- A command leaves a slot that it does not name as it was. -/
theorem exec_trk_of_slot_ne {i : Instr} {s s' : State} (hslot : ∀ t, i.slot? = some t → t ≠ u)
    (h : exec i s = .next s') : s'.trk u = s.trk u := by
  obtain hsame | ⟨t, y, ht, hset⟩ := exec_trks h
  · exact State.trk_congr hsame u
  · rw [State.trk, hset]; exact s.putTrk_trk_ne y (hslot t ht).symm

end commands

/-- Settles O36: the command writes no slot but the one it names, and commutes with a change of any other. -/
theorem otherSlotsNeitherReadNorWritten : Obligations.OtherSlotsNeitherReadNorWritten := by
  intro i s s' u x hother h
  have hslot (t : Nat) (ht : i.slot? = some t) : t ≠ u := hother t (Instr.slot?_eq_some_iff.1 ht)
  refine ⟨exec_trk_of_slot_ne hslot h, ?_⟩
  calc exec i (s.putTrk u x) = mapNext (State.putTrk u x) (exec i s) := exec_putTrk x s hslot
    _ = .next (s'.putTrk u x) := by rw [h, mapNext_next]

end Sys2Proof.Machine
end

section
/-! Reads of unwritten BUF bytes (20_memory.md R55): each sets fault_uninit and the command runs on. -/

namespace Sys2Proof.Machine

/-- Settles O23, by the laws of BUF's reads. -/
theorem bufReadsYieldBytes : Obligations.BufReadsYieldBytes := fun s a =>
  ⟨fun _ => State.bufRead_written, State.bufRead_unwritten, fun _ => State.bufReadList_holds,
    fun n => ⟨State.bufReadList_length a n s, State.bufReadList_state a n s⟩⟩

theorem State.bufRead_unwritten_faultUninit {s : State} {a : Nat} (h : s.buf.read a = none) :
    (s.bufRead a).2.faultUninit = true := by
  rw [bufRead_unwritten h]

/-- A read of several bytes sets fault_uninit where one of them is unwritten. -/
theorem State.bufReadList_unwritten_faultUninit {s : State} {a k n : Nat} (hk : k < n)
    (h : s.buf.read (a + k) = none) : (s.bufReadList a n).2.faultUninit = true := by
  induction n generalizing a k s with
  | zero => cases hk
  | succ n ih =>
    show ((s.bufRead a).2.bufReadList (a + 1) n).2.faultUninit = true
    cases k with
    | zero => exact bufReadList_faultUninit _ _ _ (bufRead_unwritten_faultUninit h)
    | succ k =>
      refine ih (Nat.lt_of_succ_lt_succ hk) ?_
      rw [bufRead_buf, Nat.add_assoc, Nat.add_comm 1]; exact h

/-- Of an emission's operations, the read of the chunk alone touches fault_uninit. -/
theorem State.emitChunk_faultUninit_eq (s : State) :
    s.emitChunk.faultUninit =
      (s.bufReadList (s.eng.src + 182 * s.eng.i) (min 182 (s.eng.len - 182 * s.eng.i))).2.faultUninit := by
  rw [State.emitChunk_eq]; dsimp only; split <;> rfl

/-- AF_ENC is the only command that writes BUF (20_memory.md R52). -/
theorem exec_buf {i : Instr} {s s' : State} (hi : i ≠ .afEnc) (h : exec i s = .next s') : s'.buf = s.buf := by
  cases exec_cases h with
  | failed _ _ _ _ _ _ _ he | results _ _ _ _ _ he | created _ _ _ _ _ _ _ he | freed _ _ _ he | seeded _ _ _ _ he =>
    rw [he]; rfl
  | field _ _ hafEnc => exact absurd hafEnc hi
  | packet t _ _ _ _ _ _ he => rw [he, State.emitChunk_buf]; rfl

/-- AF_DEC within BUF reads its length byte first, and what it then does keeps fault_uninit (42_adaptation_field.md
R102). -/
theorem afDec_faultUninit {s s' : State} (hrange : s.arg0Nat + s.arg1Nat ≤ s.params.bufBytes) (hlen : 1 ≤ s.arg1Nat)
    (hread : s.buf.read s.arg0Nat = none) (h : exec .afDec s = .next s') : s'.faultUninit = true := by
  have hfl := State.bufRead_unwritten_faultUninit hread
  simp only [exec, execAfDec] at h
  rw [if_neg (Nat.not_lt.2 hrange), if_neg (Nat.not_lt.2 hlen)] at h
  split at h
  · rw [finish_next h]; exact hfl
  · rw [finish_next h]; exact State.bufRead_faultUninit _ _ hfl

/-- The reads after PARSE's sync check keep fault_uninit (44_parser.md R115). -/
theorem parseBody_faultUninit {a : Nat} {b0 : Byte} {s s' : State} (hs : s.faultUninit = true)
    (h : parseBody a b0 s = .next s') : s'.faultUninit = true := by
  have hfl := State.bufRead_faultUninit (a + 4) _ (State.bufRead_faultUninit (a + 3) _
    (State.bufRead_faultUninit (a + 2) _ (State.bufRead_faultUninit (a + 1) s hs)))
  have hflags := State.bufRead_faultUninit (a + 5) _ hfl
  simp only [parseBody] at h
  split at h
  · rw [finish_next h]; exact hfl
  · split at h
    · rw [finish_next h]; exact hflags
    · rw [finish_next h]; simpa using hflags

/-- PARSE of 188 bytes within BUF reads its sync byte first, and what it then does keeps fault_uninit (R115). -/
theorem parse_faultUninit {s s' : State} (hsize : s.arg1Nat = 188) (hrange : s.arg0Nat + 188 ≤ s.params.bufBytes)
    (hread : s.buf.read s.arg0Nat = none) (h : exec .parse s = .next s') : s'.faultUninit = true := by
  have hsync := State.bufRead_unwritten_faultUninit hread
  simp only [exec, execParse] at h
  rw [if_neg (not_not.2 hsize), if_neg (Nat.not_lt.2 hrange)] at h
  split at h
  · rw [finish_next h]; exact hsync
  · exact parseBody_faultUninit hsync h

/-- Settles O24: each of the three reads the byte in question, and nothing after that clears the flag or stops. -/
theorem unwrittenReadsRunOn : Obligations.UnwrittenReadsRunOn := by
  intro s
  refine ⟨fun hrange hlen hread => ?_, fun hsize hrange hread => ?_,
    fun hphase hi hchunk ht hrange k hk hread => ?_⟩
  · obtain ⟨s', h⟩ := exec_next .afDec s
    exact ⟨s', h, afDec_faultUninit hrange hlen hread h, exec_buf (by decide) h⟩
  · obtain ⟨s', h⟩ := exec_next .parse s
    exact ⟨s', h, parse_faultUninit hsize hrange hread h, exec_buf (by decide) h⟩
  · have huninit := State.bufReadList_unwritten_faultUninit hk hread
    exact ⟨s.emitChunk, (engineStep_run hphase).trans (packetStep_of hi hchunk ht hrange),
      s.emitChunk_faultUninit_eq.trans huninit, s.emitChunk_buf⟩

end Sys2Proof.Machine
end

section
/-! The platform's address map (20_memory.md R62, log 9). -/

namespace Sys2Proof.Machine

/-- Settles O55: the three branches of the lookup. -/
theorem busAccessDecodes : Obligations.BusAccessDecodes := by
  intro p width x v
  refine ⟨fun hx => ?_, fun hx hapart => ?_, fun acc hwindow hbuf => ?_⟩
  · have hin : p.regBase ≤ p.regBase + x ∧ p.regBase + x < p.regBase + 0x40 := by omega
    simp [busDecode, hin]
  · have hout : ¬ (p.regBase ≤ p.bufBase + x ∧ p.bufBase + x < p.regBase + 0x40) := by omega
    have hin : p.bufBase ≤ p.bufBase + x ∧ p.bufBase + x < p.bufBase + p.bufBytes := by omega
    simp [busDecode, hout, hin, BitVec.setWidth_eq_extractLsb']
  · rw [busDecode, if_neg (by omega), if_neg (by omega)]

end Sys2Proof.Machine
end

section
/-! The decoder and the encoder undo each other (30_encoding.md R71, R75). A word is its row's match together with the
bits that the row's mask leaves free, and those bits are the operand fields. -/

namespace Sys2Proof

/-! ### From a word to its command and back -/

theorem trkField_lt (w : Word) : trkField w < 256 := (w.extractLsb' 20 8).isLt

/-- The operands pulled out of any word fit their fields. -/
theorem buildInstr_wellFormed (o : Opcode) (w : Word) : (buildInstr o w).wellFormed = true := by
  cases o with
  | trkCfg | trkFree | trkSetcc | trkRead | packetize => exact decide_eq_true (trkField_lt w)
  | _ => rfl

/-- The encoder puts a row's operands at the bits that the row's mask leaves free. -/
theorem encode_buildInstr (w : Word) :
    ∀ r ∈ opcodeMap, encode (buildInstr r.op w) = r.pattern ||| (w &&& ~~~r.mask) := by
  have bare (p : Word) : p = p ||| (w &&& ~~~0xFFFFFFFF#32) := by simp
  have trk (p : Word) : p ||| trkBits (trkField w) = p ||| (w &&& ~~~0xF00FFFFF#32) := by
    rw [trkBits_trkField]; rfl
  have trkFp (p : Word) :
      p ||| trkBits (trkField w) ||| fpBits (fpField w) = p ||| (w &&& ~~~0xF007FFFF#32) := by
    rw [trkBits_trkField, fpBits_fpField, BitVec.or_assoc, ← BitVec.and_or_distrib_left]; rfl
  simp only [opcodeMap, List.forall_mem_cons]
  exact ⟨bare _, trk _, trk _, trk _, trk _, bare _, bare _, bare _, bare _, trkFp _, bare _, by simp⟩

/-- Settles O2: a word is its row's match and its free bits, and the encoder gives both. -/
theorem encodeDecodeRoundTrip : Obligations.EncodeDecodeRoundTrip := by
  intro w i h
  obtain ⟨r, hr, hw, rfl⟩ := decode_instr h
  refine ⟨?_, buildInstr_wellFormed r.op w⟩
  calc encode (buildInstr r.op w)
    _ = (w &&& r.mask) ||| (w &&& ~~~r.mask) := by rw [encode_buildInstr w r hr, hw]
    _ = w := by rw [← BitVec.and_or_distrib_left, BitVec.or_not_self, BitVec.and_allOnes]

/-! ### From a command to its word and back -/

theorem trkField_trkBits {t : Nat} (h : trkFits t = true) : trkField (trkBits t) = t := by
  have ht : t < 256 := of_decide_eq_true h
  simp only [trkField, trkBits, Machine.toNat_field, BitVec.toNat_shiftLeft, BitVec.toNat_ofNat, Nat.shiftLeft_eq]
  omega

/-- A match without TRK bits, with a slot index put in, has that index in its TRK field. -/
theorem trkField_or_trkBits {p : Word} (hp : trkField p = 0) {t : Nat} (h : trkFits t = true) :
    trkField (p ||| trkBits t) = t := by
  have hor : trkField (p ||| trkBits t) = trkField p ||| trkField (trkBits t) := by
    simp [trkField, BitVec.extractLsb'_or]
  rw [hor, hp, trkField_trkBits h, Nat.zero_or]

/-- A slot index put in reaches no bit outside the TRK field, so a mask without that field does not see it. -/
theorem or_trkBits_and {m : Word} (hm : 0x0FF00000#32 &&& m = 0#32) {t : Nat} (h : trkFits t = true) (p : Word) :
    (p ||| trkBits t) &&& m = p &&& m := by
  have hin : trkBits t = trkBits t &&& 0x0FF00000#32 := by rw [← trkBits_trkField, trkField_trkBits h]
  rw [BitVec.and_or_distrib_right, hin, BitVec.and_assoc, hm, BitVec.and_zero, BitVec.or_zero]

theorem fpField_or_trkBits (p : Word) (t : Nat) : fpField (p ||| trkBits t) = fpField p := by
  simp [fpField, trkBits]

/-- The word of PACKETIZE with its FP bit before the slot index. -/
theorem encode_packetize (t : Nat) (fp : Bool) :
    encode (.packetize t fp) = (0x90000000#32 ||| fpBits fp) ||| trkBits t := by
  rw [encode, BitVec.or_assoc, BitVec.or_comm (trkBits t), ← BitVec.or_assoc]

/-- The word of a well-formed command selects the command's row, and the row pulls the operands out of it. -/
theorem encode_selects_row {i : Instr} (h : i.wellFormed = true) :
    ∃ r ∈ opcodeMap, encode i &&& r.mask = r.pattern ∧ buildInstr r.op (encode i) = i := by
  cases i with
  | trkCfg t =>
    exact ⟨⟨.trkCfg, 0x10000000#32, 0xF00FFFFF#32⟩, by decide, or_trkBits_and rfl h _,
      congrArg Instr.trkCfg (trkField_or_trkBits rfl h)⟩
  | trkFree t =>
    exact ⟨⟨.trkFree, 0x20000000#32, 0xF00FFFFF#32⟩, by decide, or_trkBits_and rfl h _,
      congrArg Instr.trkFree (trkField_or_trkBits rfl h)⟩
  | trkSetcc t =>
    exact ⟨⟨.trkSetcc, 0x30000000#32, 0xF00FFFFF#32⟩, by decide, or_trkBits_and rfl h _,
      congrArg Instr.trkSetcc (trkField_or_trkBits rfl h)⟩
  | trkRead t =>
    exact ⟨⟨.trkRead, 0x40000000#32, 0xF00FFFFF#32⟩, by decide, or_trkBits_and rfl h _,
      congrArg Instr.trkRead (trkField_or_trkBits rfl h)⟩
  | packetize t fp =>
    have hmatch : (0x90000000#32 ||| fpBits fp) &&& 0xF007FFFF#32 = 0x90000000#32 := by cases fp <;> rfl
    have htrk : trkField (0x90000000#32 ||| fpBits fp) = 0 := by cases fp <;> rfl
    have hfp : fpField (0x90000000#32 ||| fpBits fp) = fp := by cases fp <;> rfl
    rw [encode_packetize]
    exact ⟨⟨.packetize, 0x90000000#32, 0xF007FFFF#32⟩, by decide, (or_trkBits_and rfl h _).trans hmatch,
      congrArg₂ Instr.packetize (trkField_or_trkBits htrk h) ((fpField_or_trkBits _ t).trans hfp)⟩
  | _ => decide

/-- Settles O1: the word selects the command's row. -/
theorem decodeEncodeRoundTrip : Obligations.DecodeEncodeRoundTrip := by
  intro i h
  obtain ⟨r, hr, hw, hi⟩ := encode_selects_row h
  rw [decode_row hr hw, hi]

end Sys2Proof
end

section
/-! The opcode map row by row, and the words that select no row (30_encoding.md R71 to R75). -/

namespace Sys2Proof

/-! ### The words that select a row -/

/-- t = w[27:20] (R82), as a number. -/
theorem trkField_eq_div (w : Word) : trkField w = w.toNat / 2 ^ 20 % 256 := Machine.toNat_field w 20 8

/-- fp = w[19] (R82), as a number. -/
theorem fpField_eq_div (w : Word) : fpField w = decide (w.toNat / 2 ^ 19 % 2 = 1) :=
  Nat.testBit_eq_decide_div_mod_eq

/-- Settles O3: the decoder answers the row a word selects. -/
theorem decodeFollowsOpcodeMap : Obligations.DecodeFollowsOpcodeMap := by
  intro w
  have hrow : ∀ r ∈ opcodeMap, w &&& r.mask = r.pattern → decode w = .instr (buildInstr r.op w) :=
    fun _ => decode_row
  simp only [opcodeMap, List.forall_mem_cons] at hrow
  obtain ⟨nop, trkCfg, trkFree, trkSetcc, trkRead, hdrEnc, hdrDec, afEnc, afDec, packetize, parse, -⟩ := hrow
  rw [← trkField_eq_div, ← fpField_eq_div]
  exact ⟨nop, trkCfg, trkFree, trkSetcc, trkRead, hdrEnc, hdrDec, afEnc, afDec, packetize, parse⟩

/-! ### The words that select none -/

/-- A word that selects no row is ILLEGAL (R75). -/
theorem decode_of_no_row {w : Word} (h : ∀ r ∈ opcodeMap, w &&& r.mask ≠ r.pattern) :
    decode w = .illegal (illegalReason w) := by
  have hfind : opcodeMap.find? (fun r => r.selects w) = none := by
    rw [List.find?_eq_none]
    intro r hr
    simpa [OpcodeRow.selects] using h r hr
  rw [decode, hfind]

/-- The first engine step of a word that selects no row is complete(ILLEGAL_CMD) and nothing else (60_exceptions.md
R133). -/
theorem engineStep_of_no_row {s : Machine.State} (hphase : s.eng.phase = .start)
    (h : ∀ r ∈ opcodeMap, s.eng.cmd &&& r.mask ≠ r.pattern) :
    Machine.engineStep s = .next (s.endedWith .illegalCmd) :=
  (Machine.engineStep_start hphase).trans (Machine.runCommand_illegal (decode_of_no_row h))

/-- Settles O4: the three laws of a row selected, none selected, and two selected. -/
theorem decoderTotalAndUnambiguous : Obligations.DecoderTotalAndUnambiguous := by
  intro w
  refine ⟨fun r => decode_row, fun hnone => ⟨⟨_, decode_of_no_row hnone⟩, ?_⟩, fun r hr q hq => row_unique hr hq⟩
  rintro s hphase rfl
  exact engineStep_of_no_row hphase hnone

/-- A field that lies inside a row's mask has the match's value in every word that selects the row. -/
theorem field_of_selects {w : Word} {r : OpcodeRow} (h : w &&& r.mask = r.pattern) {lo len : Nat}
    (hm : r.mask.extractLsb' lo len = BitVec.allOnes len) :
    w.toNat / 2 ^ lo % 2 ^ len = r.pattern.toNat / 2 ^ lo % 2 ^ len := by
  rw [← Machine.toNat_field, ← Machine.toNat_field, ← h, BitVec.extractLsb'_and, hm, BitVec.and_allOnes]

/-- OPC lies inside every mask, so a word that selects a row has the match's OPC (R75). -/
theorem opc_of_selects {w : Word} {r : OpcodeRow} (hr : r ∈ opcodeMap) (h : w &&& r.mask = r.pattern) :
    w.toNat / 2 ^ 28 = r.pattern.toNat / 2 ^ 28 := by
  have hf := field_of_selects h (lo := 28) (len := 4) (opcField_mask r hr)
  have := w.isLt
  have := r.pattern.isLt
  omega

/-- A reserved opcode selects no row (R74). -/
theorem no_row_of_reserved {w : Word} (h : 0xB ≤ w.toNat / 2 ^ 28) : ∀ r ∈ opcodeMap, w &&& r.mask ≠ r.pattern := by
  have hmap : ∀ r ∈ opcodeMap, r.pattern.toNat / 2 ^ 28 < 0xB := by decide
  intro r hr hw
  have := hmap r hr
  rw [opc_of_selects hr hw] at h
  omega

/-- RSV, TRK where the opcode has none, and FP where the opcode is not PACKETIZE lie inside the row's mask and are zero
in its match (R73). -/
theorem unused_fields_in_mask : ∀ r ∈ opcodeMap,
    (r.mask.extractLsb' 0 19 = BitVec.allOnes 19 ∧ r.pattern.toNat / 2 ^ 0 % 2 ^ 19 = 0) ∧
    (r.pattern.toNat / 2 ^ 28 ∈ [0x0, 0x5, 0x6, 0x7, 0x8, 0xA] →
      r.mask.extractLsb' 20 8 = BitVec.allOnes 8 ∧ r.pattern.toNat / 2 ^ 20 % 2 ^ 8 = 0) ∧
    (r.pattern.toNat / 2 ^ 28 ≠ 0x9 →
      r.mask.extractLsb' 19 1 = BitVec.allOnes 1 ∧ r.pattern.toNat / 2 ^ 19 % 2 ^ 1 = 0) := by decide

/-- A non-zero field that the opcode does not use selects no row (R73). -/
theorem no_row_of_unused {w : Word}
    (h : w.toNat % 2 ^ 19 ≠ 0 ∨
      (w.toNat / 2 ^ 20 % 256 ≠ 0 ∧ w.toNat / 2 ^ 28 ∈ [0x0, 0x5, 0x6, 0x7, 0x8, 0xA]) ∨
      (w.toNat / 2 ^ 19 % 2 = 1 ∧ w.toNat / 2 ^ 28 ≠ 0x9)) :
    ∀ r ∈ opcodeMap, w &&& r.mask ≠ r.pattern := by
  intro r hr hw
  obtain ⟨⟨hrsv, hrsv0⟩, htrk, hfp⟩ := unused_fields_in_mask r hr
  rw [opc_of_selects hr hw] at h
  rcases h with hne | ⟨hne, hopc⟩ | ⟨hone, hopc⟩
  · have := field_of_selects hw hrsv
    omega
  · obtain ⟨hin, hzero⟩ := htrk hopc
    exact hne ((field_of_selects hw hin).trans hzero)
  · obtain ⟨hin, hzero⟩ := hfp hopc
    have := field_of_selects hw hin
    omega

/-- Settles O5: OPC and the unused fields of a word that selects a row are those of the row's match. -/
theorem reservedAndUnusedFieldsAreIllegal : Obligations.ReservedAndUnusedFieldsAreIllegal := by
  intro w
  refine ⟨?_, by decide, fun h => (encodeDecodeRoundTrip w .nop h).1.symm⟩
  rintro s hphase rfl
  exact ⟨fun h => ⟨no_row_of_reserved h, engineStep_of_no_row hphase (no_row_of_reserved h)⟩,
    fun _ h => ⟨no_row_of_unused h, engineStep_of_no_row hphase (no_row_of_unused h)⟩⟩

end Sys2Proof
end

section
/-! NOP and the track commands (40_track.md R87 to R94): for each, its word and its checks, and what the last check
lets through. -/

namespace Sys2Proof

/-- A word with OPC 0 that selects a row selects NOP's, whose mask is all ones, so it is the word 0 (R71, R87). -/
theorem no_row_of_opc_zero {w : Word} (hopc : w.toNat / 2 ^ 28 = 0) (hne : w ≠ 0#32) :
    ∀ r ∈ opcodeMap, w &&& r.mask ≠ r.pattern := by
  have hnop : ∀ r ∈ opcodeMap, r.pattern.toNat / 2 ^ 28 = 0 → r.mask = BitVec.allOnes 32 ∧ r.pattern = 0#32 := by
    decide
  intro r hr hw
  obtain ⟨hmask, hpattern⟩ := hnop r hr ((opc_of_selects hr hw).symm.trans hopc)
  rw [hmask, hpattern, BitVec.and_allOnes] at hw
  exact hne hw

end Sys2Proof

namespace Sys2Proof.Machine

/-- Settles O11: a word of OPC 0 other than 0 selects no row, and NOP is a completion. -/
theorem nopOnlyCompletes : Obligations.NopOnlyCompletes := by
  refine ⟨by decide, ?_, fun s => finish_eq .ok s⟩
  rintro w hopc hne s hphase rfl
  exact engineStep_of_no_row hphase (no_row_of_opc_zero hopc hne)

/-! ### The checks -/

section checks
variable {t : Nat} {s : State} (r : Result)

/-- The slot check that every track command begins with (R88), where it fails. -/
theorem slotCheck_fails (h : s.params.nTracks ≤ t) :
    (if s.slotExists t = false then finish .badTrack s else r) = .next (s.endedWith .badTrack) :=
  if_pos ((State.slotExists_iff_not t s).2 h)

/-- The slot check where it passes. -/
theorem slotCheck_passes (h : t < s.params.nTracks) :
    (if s.slotExists t = false then finish .badTrack s else r) = r :=
  if_neg (fun hnone => Nat.not_le.2 h ((State.slotExists_iff_not t s).1 hnone))

end checks

/-- ARG0[31:13] is 0 for an operand of 13 bits (30_encoding.md R72). -/
theorem pidSpill_eq_zero_iff (a : Word) : pidSpill a = 0#19 ↔ a.toNat < 2 ^ 13 := by
  have := a.isLt
  rw [← BitVec.toNat_inj, pidSpill, toNat_field, BitVec.toNat_ofNat]
  omega

/-- ARG1[31:8] is 0 for an operand of 8 bits (30_encoding.md R72). -/
theorem stSpill_eq_zero_iff (a : Word) : stSpill a = 0#24 ↔ a.toNat < 2 ^ 8 := by
  have := a.isLt
  rw [← BitVec.toNat_inj, stSpill, toNat_field, BitVec.toNat_ofNat]
  omega

/-- cc_norm keeps the low four bits (R89). -/
theorem ccNorm_eq_ofNat (v : Nat) : ccNorm v = BitVec.ofNat 4 v := by
  apply BitVec.eq_of_toNat_eq
  rw [ccNorm_toNat, BitVec.toNat_ofNat]

/-! ### The slots -/

theorem State.trk_eq_getElem {t : Nat} {s : State} (h : t < s.trks.length) : s.trk t = s.trks[t] := by
  simp [State.trk, h]

/-- Writing a slot with what it holds changes nothing. -/
theorem State.putTrk_trk_self {t : Nat} {s : State} (h : t < s.trks.length) : s.putTrk t (s.trk t) = s := by
  rw [State.trk_eq_getElem h, State.putTrk, List.set_getElem_self]

/-- A slot that holds no live track holds zeros (R94). -/
theorem State.Inv.trk_eq_empty {t : Nat} {s : State} (h : s.Inv) (ht : t < s.params.nTracks)
    (hfree : (s.trk t).valid = false) : s.trk t = Track.empty := by
  have hlen : t < s.trks.length := h.table ▸ ht
  exact h.freeSlots _ (State.trk_eq_getElem hlen ▸ List.getElem_mem hlen) hfree

/-- The TRKR word as a number (10_state.md R36). -/
theorem trkrWord_eq_ofNat (x : Track) :
    trkrWord x =
      BitVec.ofNat 32 (x.pid.toNat + 2 ^ 15 * x.valid.toNat + 2 ^ 16 * x.cc.toNat + 2 ^ 24 * x.st.toNat) := by
  rw [← trkrWord_toNat, BitVec.ofNat_toNat, BitVec.setWidth_eq]

/-! ### The commands -/

/-- The track that TRK_CFG makes of the latched operands (R91). -/
def State.newTrack (s : State) : Track where
  valid := true
  pid := BitVec.ofNat 13 s.eng.a0.toNat
  st := BitVec.ofNat 8 s.eng.a1.toNat
  cc := BitVec.ofNat 4 s.params.ccInit

/-- TRK_CFG on a slot that exists and is free: the operand checks, then the new track (R91). -/
theorem exec_trkCfg_of_free {t : Nat} {s : State} (ht : t < s.params.nTracks) (hfree : (s.trk t).valid = false) :
    exec (.trkCfg t) s =
      if 2 ^ 13 ≤ s.eng.a0.toNat then finish .pidRange s
      else if 2 ^ 8 ≤ s.eng.a1.toNat then finish .badArg s
      else finish .ok (s.putTrk t s.newTrack) := by
  refine (slotCheck_passes _ ht).trans ((if_neg (by simp [hfree])).trans ?_)
  simp only [Ne, pidSpill_eq_zero_iff, stSpill_eq_zero_iff, Nat.not_lt, ccNorm_eq_ofNat]
  rfl

/-- Settles O12: the row of the decoder, then each check in order. -/
theorem trkCfgCreatesTrack : Obligations.TrkCfgCreatesTrack := by
  intro t s
  refine ⟨fun ht => decodeEncodeRoundTrip (.trkCfg t) (decide_eq_true ht), fun w hw => ?_,
    slotCheck_fails _, fun ht hlive => (slotCheck_passes _ ht).trans (if_pos hlive),
    fun ht hfree hpid => ?_, fun ht hfree hpid hst => ?_, fun ht hfree hpid hst => ?_⟩
  · obtain ⟨-, hrow, -⟩ := decodeFollowsOpcodeMap w
    exact hrow hw
  · rw [exec_trkCfg_of_free ht hfree, if_pos hpid]; rfl
  · rw [exec_trkCfg_of_free ht hfree, if_neg (Nat.not_le.2 hpid), if_pos hst]; rfl
  · rw [exec_trkCfg_of_free ht hfree, if_neg (Nat.not_le.2 hpid), if_neg (Nat.not_le.2 hst)]; rfl

/-- Settles O13: a free slot already holds what TRK_FREE writes. -/
theorem trkFreeClearsSlot : Obligations.TrkFreeClearsSlot := by
  intro t s
  refine ⟨fun ht => decodeEncodeRoundTrip (.trkFree t) (decide_eq_true ht), fun w hw => ?_,
    slotCheck_fails _, slotCheck_passes _, fun ht hinv hfree => ?_⟩
  · obtain ⟨-, -, hrow, -⟩ := decodeFollowsOpcodeMap w
    exact hrow hw
  · have hsame : s.putTrk t Track.empty = s := by
      rw [← hinv.trk_eq_empty ht hfree, State.putTrk_trk_self (hinv.table ▸ ht)]
    calc exec (.trkFree t) s
      _ = finish .ok (s.putTrk t Track.empty) := slotCheck_passes _ ht
      _ = .next (s.endedWith .ok) := by rw [hsame, finish_eq]

/-- Settles O14: ARG0[3:0] is cc_norm of ARG0, so no operand needs a check (R89). -/
theorem trkSetccSeedsCounter : Obligations.TrkSetccSeedsCounter := by
  intro t s
  refine ⟨fun ht => decodeEncodeRoundTrip (.trkSetcc t) (decide_eq_true ht), fun w hw => ?_,
    slotCheck_fails _, fun ht hfree => (slotCheck_passes _ ht).trans (if_pos hfree), fun ht hlive => ?_⟩
  · obtain ⟨-, -, -, hrow, -⟩ := decodeFollowsOpcodeMap w
    exact hrow hw
  · have hcc : s.eng.a0.extractLsb' 0 4 = ccNorm s.arg0Nat := (ccNorm_eq_ofNat s.arg0Nat).symm
    rw [hcc]
    exact (slotCheck_passes _ ht).trans (if_neg (by simp [hlive]))

/-- Settles O15: the word of an empty slot is 0. -/
theorem trkReadSnapshotsSlot : Obligations.TrkReadSnapshotsSlot := by
  intro t s
  have hread (ht : t < s.params.nTracks) : exec (.trkRead t) s = finish .ok (s.putTrkr (trkrWord (s.trk t))) :=
    slotCheck_passes _ ht
  refine ⟨fun ht => decodeEncodeRoundTrip (.trkRead t) (decide_eq_true ht), fun w hw => ?_,
    slotCheck_fails _, fun ht => ?_, fun ht hinv hfree => ?_⟩
  · obtain ⟨-, -, -, -, hrow, -⟩ := decodeFollowsOpcodeMap w
    exact hrow hw
  · rw [← trkrWord_eq_ofNat]; exact hread ht
  · have hzero : trkrWord Track.empty = 0#32 := by decide
    rw [hread ht, hinv.trk_eq_empty ht hfree, hzero]
    rfl

end Sys2Proof.Machine
end

section
/-! The continuity counters (40_track.md R90): each event that sets a slot's counter, with the value it sets, and no
other. -/

namespace Sys2Proof.Machine

/-! ### The emission of a packet -/

/-- The counter's place in the byte map of R81: byte 3, low four bits. -/
theorem specPacket_cc (first : Bool) (pid cc : Nat) (chunk : List Byte) :
    ((specPacket first pid cc chunk).getD 3 0#8).toNat % 16 = cc % 16 := by
  have hbyte : (specPacket first pid cc chunk).getD 3 0#8 = BitVec.ofNat 8 (0x30 + cc % 16) := rfl
  rw [hbyte, BitVec.toNat_ofNat]
  omega

/-- Slot `t`'s counter went up by one modulo 16, and the one packet emitted carries the new value (R90). -/
structure State.EmitsFrom (t : Nat) (s s' : State) : Prop where
  counter : (s'.trk t).cc.toNat = ((s.trk t).cc.toNat + 1) % 16
  packet : ∃ p : List Byte, s'.out = s.out ++ [p] ∧ (p.getD 3 0#8).toNat % 16 = (s'.trk t).cc.toNat

theorem State.emitChunk_trk_eq {s : State} (h : s.eng.t < s.trks.length) :
    s.emitChunk.trk s.eng.t = { s.trk s.eng.t with cc := (s.trk s.eng.t).cc + 1#4 } := by
  rw [State.trk, emitChunk_trks, getD_set_slot, if_pos ⟨rfl, h⟩]

theorem State.emitChunk_trk_ne {s : State} {t : Nat} (h : t ≠ s.eng.t) : s.emitChunk.trk t = s.trk t := by
  rw [State.trk, emitChunk_trks, getD_set_slot, if_neg (fun c => h c.1), State.trk]

theorem State.emitChunk_emitsFrom {s : State} (h : s.eng.t < s.trks.length) : s.EmitsFrom s.eng.t s.emitChunk := by
  have hcounter : (s.emitChunk.trk s.eng.t).cc.toNat = ((s.trk s.eng.t).cc.toNat + 1) % 16 := by
    rw [emitChunk_trk_eq h, BitVec.toNat_add]; rfl
  refine ⟨hcounter, ?_⟩
  rw [hcounter, State.emitChunk_eq]
  exact ⟨_, by dsimp only; split <;> rfl, specPacket_cc ..⟩

/-! ### The commands that set a counter -/

section commands
variable {t : Nat} {s s' : State}

/-- A command that ends with OK has passed every check. -/
theorem check_passed {p : Prop} {_ : Decidable p} {c : ErrCode} {r : Result}
    (h : (if p then finish c s else r) = .next s') (hok : s'.regs.err = .ok) (hc : c ≠ .ok) : ¬ p ∧ r = .next s' := by
  split at h
  · rw [finish_next h] at hok; exact absurd hok hc
  · exact ⟨‹_›, h⟩

/-- A command whose effect is to write slot `t` leaves it as written. -/
theorem trk_of_finish_putTrk {x : Track} {c : ErrCode} (hlen : t < s.trks.length)
    (h : finish c (s.putTrk t x) = .next s') : s'.trk t = x := by
  rw [finish_next h, State.trk_congr (State.complete_trks ..), State.putTrk_trk_eq x s hlen]

theorem exec_trkCfg_cc (hlen : t < s.trks.length) (h : exec (.trkCfg t) s = .next s') (hok : s'.regs.err = .ok) :
    (s'.trk t).cc = ccNorm s.params.ccInit := by
  obtain ⟨-, h⟩ := check_passed h hok (by decide)
  obtain ⟨-, h⟩ := check_passed h hok (by decide)
  obtain ⟨-, h⟩ := check_passed h hok (by decide)
  obtain ⟨-, h⟩ := check_passed h hok (by decide)
  rw [trk_of_finish_putTrk hlen h]

theorem exec_trkSetcc_cc (hlen : t < s.trks.length) (h : exec (.trkSetcc t) s = .next s')
    (hok : s'.regs.err = .ok) : (s'.trk t).cc = ccNorm s.arg0Nat := by
  obtain ⟨-, h⟩ := check_passed h hok (by decide)
  obtain ⟨-, h⟩ := check_passed h hok (by decide)
  rw [trk_of_finish_putTrk hlen h]

theorem exec_trkFree_cc (hlen : t < s.trks.length) (h : exec (.trkFree t) s = .next s') (hok : s'.regs.err = .ok) :
    (s'.trk t).cc = 0#4 := by
  obtain ⟨-, h⟩ := check_passed h hok (by decide)
  rw [trk_of_finish_putTrk hlen h]
  rfl

end commands

/-! ### What a step does to a counter -/

/-- What a command does to slot `t`'s counter, with what it does to OUT: it keeps both, where a PACKETIZE failed or had
no packet; or it ends with OK and is one of the three that set a counter; or it is a PACKETIZE that emitted a packet. -/
theorem exec_counter {i : Instr} {s s' : State} (hlen : s.trks.length = s.params.nTracks) (h : exec i s = .next s')
    (t : Nat) :
    ((s'.trk t).cc = (s.trk t).cc ∧ ((∃ fp, i = .packetize t fp) → s'.out = s.out)) ∨
    (s'.regs.err = .ok ∧ s'.out = s.out ∧ (i = .trkCfg t ∨ i = .trkSetcc t ∨ i = .trkFree t)) ∨
    ((∃ fp, i = .packetize t fp) ∧ s.EmitsFrom t s') := by
  by_cases hslot : i.slot? = some t
  · have hnamed (u : Nat) (hu : i.slot? = some u) : u = t := Option.some.inj (hu.symm.trans hslot)
    cases exec_cases h with
    | failed _ _ _ _ _ _ _ he | results _ _ _ _ _ he | field _ _ _ _ _ _ he =>
      rw [he]; exact .inl ⟨rfl, fun _ => rfl⟩
    | created u _ hi _ _ _ _ he =>
      obtain rfl := hnamed u (congrArg Instr.slot? hi)
      rw [he]; exact .inr (.inl ⟨rfl, rfl, .inl hi⟩)
    | seeded u hi _ _ he =>
      obtain rfl := hnamed u (congrArg Instr.slot? hi)
      rw [he]; exact .inr (.inl ⟨rfl, rfl, .inr (.inl hi)⟩)
    | freed u hi _ he =>
      obtain rfl := hnamed u (congrArg Instr.slot? hi)
      rw [he]; exact .inr (.inl ⟨rfl, rfl, .inr (.inr hi)⟩)
    | packet u fp hi hu _ _ _ he =>
      obtain rfl := hnamed u (congrArg Instr.slot? hi)
      obtain ⟨hcounter, hpacket⟩ := (s.packetizing u).emitChunk_emitsFrom (hlen ▸ hu)
      rw [he]; exact .inr (.inr ⟨⟨fp, hi⟩, hcounter, hpacket⟩)
  · have hother (u : Nat) (hu : i.slot? = some u) : u ≠ t := fun hut => hslot (hut ▸ hu)
    left
    rw [exec_trk_of_slot_ne hother h]
    exact ⟨rfl, fun ⟨_, hi⟩ => absurd (hi ▸ rfl) hslot⟩

/-- The engine's next step is a packet step of slot `t`, or a PACKETIZE's first on it, whose checks may yet fail (R106,
R107). -/
abbrev State.Packetizes (t : Nat) (s : State) : Prop :=
  (s.eng.phase = .start ∧ ∃ fp, decode s.eng.cmd = .instr (.packetize t fp)) ∨ (s.eng.phase = .run ∧ s.eng.t = t)

/-- What an engine step does to slot `t`'s counter. -/
theorem engineStep_counter {s s' : State} (hlen : s.trks.length = s.params.nTracks) (h : engineStep s = .next s')
    (t : Nat) :
    ((s'.trk t).cc = (s.trk t).cc ∧ (s.Packetizes t → s'.out = s.out)) ∨
    (s.eng.phase = .start ∧ s'.regs.err = .ok ∧ s'.out = s.out ∧
      (decode s.eng.cmd = .instr (.trkCfg t) ∨ decode s.eng.cmd = .instr (.trkSetcc t) ∨
        decode s.eng.cmd = .instr (.trkFree t))) ∨
    (s.Packetizes t ∧ s.EmitsFrom t s') := by
  obtain ⟨-, rfl⟩ | ⟨-, -, rfl⟩ | ⟨hphase, i, hdecode, hexec⟩ | ⟨hphase, hpacket⟩ := engineStep_cases h
  · exact .inl ⟨rfl, fun _ => rfl⟩
  · exact .inl ⟨rfl, fun _ => rfl⟩
  · have hcounter := exec_counter hlen hexec t
    simp only [State.Packetizes, hphase, hdecode, Decoded.instr.injEq, true_and, reduceCtorEq, false_and, or_false]
    exact hcounter
  · obtain ⟨-, ht, -, rfl⟩ := packetStep_next hpacket
    by_cases hslot : s.eng.t = t
    · subst hslot
      exact .inr (.inr ⟨.inr ⟨hphase, rfl⟩, s.emitChunk_emitsFrom (hlen ▸ ht)⟩)
    · left
      rw [State.emitChunk_trk_ne (Ne.symm hslot)]
      exact ⟨rfl, fun hpk => by simp [State.Packetizes, hphase, hslot] at hpk⟩

/-- The engine's turn in START, as a step. -/
theorem step_exec {i : Instr} {s : State} (hnext : s.engineNext) (hphase : s.eng.phase = .start)
    (hdecode : decode s.eng.cmd = .instr i) : step s = exec i (s.withInputs s.inputs.tail) :=
  (step_engine hnext).trans
    ((engineStep_start (s := s.withInputs s.inputs.tail) hphase).trans (runCommand_instr hdecode))

/-- A reset at the head of the pending events is the step. -/
theorem step_reset {s s' : State} {rest : List Event} (hi : s.inputs = .reset :: rest) (h : step s = .next s') :
    s' = (s.withInputs rest).blockReset := by
  simpa [step, nextStep, hi, eventStep] using h.symm

/-- Settles O38: the new values from each event's own law, and no other event from `engineStep_counter`. -/
theorem counterTransitions : Obligations.CounterTransitions := by
  intro s s' t hlen ht h
  have hslot : t < (s.withInputs s.inputs.tail).trks.length := Nat.lt_of_lt_of_eq ht hlen.symm
  have hcounter (hnext : s.engineNext) :=
    engineStep_counter (s := s.withInputs s.inputs.tail) hlen ((step_engine hnext).symm.trans h) t
  refine ⟨?_, fun hnext hphase hok => ?_, fun hnext hout hpk => ?_, fun hne => ?_⟩
  · rintro ⟨rest, hi⟩
    rw [step_reset hi h, State.blockReset_trk]; rfl
  · have hexec {i : Instr} (hdecode : decode s.eng.cmd = .instr i) := (step_exec hnext hphase hdecode).symm.trans h
    refine ⟨fun hd => ?_, fun hd => ?_, fun hd => exec_trkFree_cc hslot (hexec hd) hok⟩
    · rw [exec_trkCfg_cc hslot (hexec hd) hok, ccNorm_toNat]; rfl
    · rw [exec_trkSetcc_cc hslot (hexec hd) hok, ccNorm_toNat]; rfl
  · obtain ⟨-, hsame⟩ | ⟨-, -, hsame, -⟩ | ⟨-, hcc, hpacket⟩ := hcounter hnext
    · exact absurd (hsame hpk) hout
    · exact absurd hsame hout
    · exact ⟨hcc, hpacket⟩
  · obtain ⟨rest, hi, -⟩ | ⟨rest, rfl⟩ | ⟨op, rest, -, heffect⟩ | ⟨hnext, -⟩ := step_effects h
    · exact .inl ⟨rest, hi⟩
    · exact absurd rfl hne
    · rw [State.trk_congr heffect.trks] at hne
      exact absurd rfl hne
    · obtain ⟨hsame, -⟩ | ⟨hphase, hok, -, hset⟩ | ⟨hpk, -, p, hout, -⟩ := hcounter hnext
      · exact absurd hsame hne
      · exact .inr (.inl ⟨hnext, hphase, hok, hset⟩)
      · exact .inr (.inr ⟨hnext, by simp [hout], hpk⟩)

end Sys2Proof.Machine
end

section
/-! The header codec (41_header_codec.md R95 to R99): what HDR_ENC and HDR_DEC answer, and that each undoes the other.
An operand and the header word it encodes to differ in the top byte alone. -/

namespace Sys2Proof.Machine

/-! ### The fields of a header word, as numbers -/

theorem topByte_toNat (w : Word) : (topByte w).toNat = w.toNat / 2 ^ 24 :=
  (toNat_field w 24 8).trans (Nat.mod_eq_of_lt (Nat.div_lt_of_lt_mul w.isLt))

/-- An operand's bits 31:24 are 0 (30_encoding.md R79). -/
theorem topByte_eq_zero_iff (a : Word) : topByte a = 0#8 ↔ a.toNat < 2 ^ 24 := by
  rw [← BitVec.toNat_inj, topByte_toNat, BitVec.toNat_ofNat]
  omega

/-- A word's wire byte 0 is the sync byte (30_encoding.md R76). -/
theorem topByte_eq_sync_iff (w : Word) : topByte w = Config.sync ↔ w.toNat / 2 ^ 24 = 0x47 := by
  rw [← BitVec.toNat_inj, topByte_toNat]; rfl

theorem toNat_getLsbD (w : Word) (i : Nat) : (w.getLsbD i).toNat = w.toNat / 2 ^ i % 2 :=
  Nat.toNat_testBit w.toNat i

/-- The sync byte put before an operand's 24 bits. -/
theorem sync_or_toNat {a : Word} (h : a.toNat < 2 ^ 24) : (0x47000000#32 ||| a).toNat = 0x47 * 2 ^ 24 + a.toNat :=
  (BitVec.toNat_or _ a).trans (Nat.shiftLeft_add_eq_or_of_lt (a := 0x47) h).symm

/-- The 24 header bits of a word. -/
theorem headerBits_toNat (w : Word) : (w &&& 0x00FFFFFF#32).toNat = w.toNat % 2 ^ 24 :=
  (BitVec.toNat_and w _).trans (Nat.and_two_pow_sub_one_eq_mod w.toNat 24)

/-- A word with the sync byte on top is that byte before its 24 header bits. -/
theorem sync_or_headerBits {w : Word} (h : w.toNat / 2 ^ 24 = 0x47) : 0x47000000#32 ||| (w &&& 0x00FFFFFF#32) = w := by
  have hbits := headerBits_toNat w
  apply BitVec.eq_of_toNat_eq
  rw [sync_or_toNat (by omega), hbits]
  omega

/-! ### The scrambling field -/

/-- R98 undoes R95. -/
theorem scrDec_scrEnc (p : Params) (b : Bool) : scrDec p (scrEnc b) = b := by cases b <;> rfl

/-- With bit 7 clear, the raw scrambling value is the code of bit 6 (30_encoding.md R79). -/
theorem scrField_eq_scrEnc {w : Word} (h : w.getLsbD 7 = false) : scrField w = scrEnc (w.getLsbD 6) := by
  have h7 := toNat_getLsbD w 7
  apply BitVec.eq_of_toNat_eq
  rw [scrField, toNat_field, scrEnc, toNat_append_add, toNat_bit, toNat_getLsbD, BitVec.toNat_ofNat]
  rw [h, Bool.toNat_false] at h7
  omega

/-- The sync byte on top does not touch the scrambling field. -/
theorem scrField_sync_or (a : Word) : scrField (0x47000000#32 ||| a) = scrField a := by
  rw [scrField, BitVec.extractLsb'_or]; exact BitVec.zero_or

theorem scrField_eq_iff (w : Word) (r : BitVec 2) : scrField w = r ↔ w.toNat / 64 % 4 = r.toNat := by
  rw [← BitVec.toNat_inj, scrField, toNat_field]; rfl

/-- is_scrambled of a word's raw scrambling value, the value read as a number (R98). -/
theorem scrDec_scrField (p : Params) (w : Word) :
    scrDec p (scrField w) =
      if w.toNat / 64 % 4 = 0 then false
      else if w.toNat / 64 % 4 = 1 then true
      else if w.toNat / 64 % 4 = 2 then p.scrDecode10
      else p.scrDecode11 := by
  simp only [scrDec, scrField_eq_iff]; rfl

/-! ### What the two commands answer -/

/-- HDRX holds is_scrambled as 1 or 0 (10_state.md R32). -/
theorem State.putHeader_eq (w : Word) (b : Bool) (s : State) :
    s.putHeader w b = { s with regs := { s.regs with hdrw := w, hdrx := if b then 1#32 else 0#32 } } := by
  cases b <;> rfl

/-- An operand inside the seven fields encodes to the sync byte before its 24 bits (R96). -/
theorem hdrWord_operand {a : Word} (h : a.toNat < 2 ^ 24) (h7 : a.getLsbD 7 = false) :
    hdrWord (a.getLsbD 23) (a.getLsbD 22) (a.getLsbD 21) (pidField a) (scrEnc (a.getLsbD 6)) (amField a) (ccField a)
      = 0x47000000#32 ||| a := by
  apply BitVec.eq_of_toNat_eq
  rw [← scrField_eq_scrEnc h7, hdrWord_toNat, sync_or_toNat h]
  simp only [toNat_getLsbD, pidField, scrField, amField, ccField, toNat_field]
  omega

theorem exec_hdrEnc_badArg {s : State} (h : 2 ^ 24 ≤ s.eng.a0.toNat ∨ s.eng.a0.getLsbD 7 = true) :
    exec .hdrEnc s = .next (s.endedWith .badArg) :=
  if_pos (h.imp_left fun htop hzero => Nat.not_lt.2 htop ((topByte_eq_zero_iff _).1 hzero))

theorem exec_hdrEnc_ok {s : State} (h : s.eng.a0.toNat < 2 ^ 24) (h7 : s.eng.a0.getLsbD 7 = false) :
    exec .hdrEnc s = .next ((s.putHeader (0x47000000#32 ||| s.eng.a0) (s.eng.a0.getLsbD 6)).endedWith .ok) := by
  rw [← hdrWord_operand h h7]
  exact if_neg (not_or.2 ⟨not_not.2 ((topByte_eq_zero_iff _).2 h), Bool.eq_false_iff.1 h7⟩)

theorem exec_hdrDec_malformed {s : State} (h : s.eng.a0.toNat / 2 ^ 24 ≠ 0x47) :
    exec .hdrDec s = .next (s.endedWith .malformedHeader) :=
  if_pos (mt (topByte_eq_sync_iff _).1 h)

theorem exec_hdrDec_ok {s : State} (h : s.eng.a0.toNat / 2 ^ 24 = 0x47) :
    exec .hdrDec s = .next ((s.putHeader s.eng.a0 (scrDec s.params (scrField s.eng.a0))).endedWith .ok) :=
  if_neg (not_not.2 ((topByte_eq_sync_iff _).2 h))

/-! ### The statements -/

/-- Settles O17: the two branches of HDR_ENC. -/
theorem hdrEncEncodesHeader : Obligations.HdrEncEncodesHeader := by
  refine ⟨by decide, fun s => ⟨exec_hdrEnc_badArg, fun h h7 => ?_⟩⟩
  rw [exec_hdrEnc_ok h h7, State.putHeader_eq]

/-- Settles O18: the two branches of HDR_DEC, HDRX by the raw scrambling value. -/
theorem hdrDecDecodesHeader : Obligations.HdrDecDecodesHeader := by
  refine ⟨by decide, fun s => ⟨exec_hdrDec_malformed, fun h => ?_⟩⟩
  rw [exec_hdrDec_ok h, State.putHeader_eq, scrDec_scrField]
  simp only [apply_ite (fun b : Bool => if b then 1#32 else 0#32), if_true, Bool.false_eq_true, if_false]

/-- Settles O19: the word HDR_ENC produces has the sync byte on top and the code of bit 6 as its raw scrambling value;
the 24 bits HDR_DEC kept are an operand that HDR_ENC puts the sync byte before, unless bit 7 rejects it. -/
theorem headerRoundTrip : Obligations.HeaderRoundTrip := by
  refine ⟨fun s h h7 => ⟨_, exec_hdrEnc_ok h h7, rfl, fun s2 hword => ?_⟩,
    fun s hsync => ⟨_, exec_hdrDec_ok hsync, rfl, fun s2 hbits => ?_⟩⟩
  · replace hword : s2.eng.a0 = 0x47000000#32 ||| s.eng.a0 := hword
    have hsync : s2.eng.a0.toNat / 2 ^ 24 = 0x47 := by rw [hword, sync_or_toNat h]; omega
    have hscr : scrDec s2.params (scrField s2.eng.a0) = s.eng.a0.getLsbD 6 := by
      rw [hword, scrField_sync_or, scrField_eq_scrEnc h7, scrDec_scrEnc]
    refine ⟨_, exec_hdrDec_ok hsync, rfl, hword, ?_⟩
    rw [hscr, State.putHeader_eq]
  · replace hbits : s2.eng.a0 = s.eng.a0 &&& 0x00FFFFFF#32 := hbits
    have hfits : s2.eng.a0.toNat < 2 ^ 24 := by rw [hbits, headerBits_toNat]; omega
    have h7 : s2.eng.a0.getLsbD 7 = s.eng.a0.getLsbD 7 := by
      rw [hbits, BitVec.getLsbD_and]; exact Bool.and_true _
    refine ⟨fun hclear => ⟨_, exec_hdrEnc_ok hfits (h7.trans hclear), rfl, ?_⟩,
      fun hset => exec_hdrEnc_badArg (.inr (h7.trans hset))⟩
    show 0x47000000#32 ||| s2.eng.a0 = s.eng.a0
    rw [hbits, sync_or_headerBits hsync]

end Sys2Proof.Machine
end

section
/-! The adaptation field codec (42_adaptation_field.md R100 to R103): the bytes AF_ENC writes and what a read of BUF
finds after it, what the two commands answer, and that AF_DEC finds the field AF_ENC wrote. -/

namespace Sys2Proof.Machine

/-! ### The field -/

/-- The length byte holds 1 + N without overflow for every N that AF_ENC admits. -/
theorem lengthByte_toNat {n : Nat} (h : n ≤ 254) : (BitVec.ofNat 8 (1 + n)).toNat = 1 + n :=
  Nat.mod_eq_of_lt (by omega)

/-- AFR as a number put into a word (10_state.md R33). -/
theorem afrWord_eq_ofNat {fl : Byte} (flags : Byte) (h : fl.toNat ≠ 0) :
    afrWord fl flags = BitVec.ofNat 32 (fl.toNat + 2 ^ 8 * flags.toNat + 2 ^ 16 * (fl.toNat - 1)) := by
  rw [← afrWord_toNat flags h, BitVec.ofNat_toNat, BitVec.setWidth_eq]

/-- AFR of the field AF_ENC writes: no flags, N stuffing bytes. -/
theorem afrWord_lengthByte {n : Nat} (h : n ≤ 254) :
    afrWord (BitVec.ofNat 8 (1 + n)) Config.afFlags = BitVec.ofNat 32 (1 + n + 2 ^ 16 * n) := by
  rw [afrWord_eq_ofNat _ (by rw [lengthByte_toNat h]; omega), lengthByte_toNat h, Nat.add_sub_cancel_left]
  rfl

/-- A read of BUF after the field was written at `d`. -/
theorem State.bufWriteList_afBytes_read (d n : Nat) (s : State) (a : Nat) :
    (s.bufWriteList d (afBytes n)).buf.read a =
      if a = d then some (BitVec.ofNat 8 (1 + n))
      else if a = d + 1 then some 0x00#8
      else if d + 2 ≤ a ∧ a < d + 2 + n then some 0xFF#8
      else s.buf.read a := by
  obtain ⟨m, hm, -, -, hread⟩ := bufWriteList_state d (afBytes n) s
  rw [hm, hread a, afBytes_length]
  by_cases hin : d ≤ a ∧ a < d + (2 + n)
  · obtain ⟨k, rfl⟩ := Nat.exists_eq_add_of_le hin.1
    rw [if_pos hin, Nat.add_sub_cancel_left]
    match k with
    | 0 => simp [afBytes]
    | 1 => simp [afBytes]
    | k + 2 =>
      have hk : k < n := by omega
      rw [if_neg (by omega), if_neg (by omega), if_pos (by omega)]
      simp [afBytes, hk]
  · rw [if_neg hin, if_neg (by omega), if_neg (by omega), if_neg (by omega)]

/-! ### What AF_ENC answers -/

section encode
variable {s : State}

theorem exec_afEnc_badArg (h : 254 < s.arg0Nat) : exec .afEnc s = .next (s.endedWith .badArg) := if_pos h

theorem exec_afEnc_range (hn : s.arg0Nat ≤ 254) (h : s.params.bufBytes < s.arg1Nat + 2 + s.arg0Nat) :
    exec .afEnc s = .next (s.endedWith .range) :=
  (if_neg (Nat.not_lt.2 hn)).trans (if_pos h)

theorem exec_afEnc_ok (hn : s.arg0Nat ≤ 254) (h : s.arg1Nat + 2 + s.arg0Nat ≤ s.params.bufBytes) :
    exec .afEnc s = .next (((s.bufWriteList s.arg1Nat (afBytes s.arg0Nat)).putAf
      (BitVec.ofNat 32 (1 + s.arg0Nat + 2 ^ 16 * s.arg0Nat)) (BitVec.ofNat 32 (2 + s.arg0Nat))).endedWith .ok) := by
  rw [← afrWord_lengthByte hn]
  exact (if_neg (Nat.not_lt.2 hn)).trans (if_neg (Nat.not_lt.2 h))

end encode

/-! ### What AF_DEC answers -/

section decode
variable {s s1 s2 : State} {fl flags : Byte}

theorem exec_afDec_range (h : s.params.bufBytes < s.arg0Nat + s.arg1Nat) :
    exec .afDec s = .next (s.endedWith .range) := if_pos h

theorem exec_afDec_empty (hin : s.arg0Nat + s.arg1Nat ≤ s.params.bufBytes) (h : s.arg1Nat = 0) :
    exec .afDec s = .next (s.endedWith .truncatedAf) :=
  (if_neg (Nat.not_lt.2 hin)).trans (if_pos (by omega))

/-- A length byte that fails the codec's tests ends the command with their code; the flags byte is not read. -/
theorem exec_afDec_badLength {e : ErrCode} (hin : s.arg0Nat + s.arg1Nat ≤ s.params.bufBytes) (hr : 1 ≤ s.arg1Nat)
    (hfl : s.bufRead s.arg0Nat = (fl, s1)) (he : afLengthError s.arg1Nat fl.toNat = some e) :
    exec .afDec s = .next (s1.endedWith e) := by
  simp only [exec, execAfDec]
  rw [if_neg (Nat.not_lt.2 hin), if_neg (Nat.not_lt.2 hr), hfl, he]
  rfl

theorem exec_afDec_ok (hin : s.arg0Nat + s.arg1Nat ≤ s.params.bufBytes) (hfl : s.bufRead s.arg0Nat = (fl, s1))
    (hflags : s1.bufRead (s.arg0Nat + 1) = (flags, s2)) (hr : 1 + fl.toNat ≤ s.arg1Nat) (hne : fl.toNat ≠ 0) :
    exec .afDec s = .next ((s2.putAf
      (BitVec.ofNat 32 (fl.toNat + 2 ^ 8 * flags.toNat + 2 ^ 16 * (fl.toNat - 1)))
      (BitVec.ofNat 32 (1 + fl.toNat))).endedWith .ok) := by
  have hnone : afLengthError s.arg1Nat fl.toNat = none := (if_neg (Nat.not_lt.2 hr)).trans (if_neg hne)
  simp only [exec, execAfDec]
  rw [if_neg (Nat.not_lt.2 hin), if_neg (by omega), hfl, hnone, hflags, afrWord_eq_ofNat flags hne]
  rfl

end decode

/-! ### The statements -/

/-- Settles O20: the three branches of AF_ENC, the written field by `State.bufWriteList_afBytes_read`. -/
theorem afEncWritesField : Obligations.AfEncWritesField := by
  refine ⟨by decide, fun s => ⟨exec_afEnc_badArg, exec_afEnc_range, fun hn hin => ?_⟩⟩
  obtain ⟨m, hm, hwf, -, -⟩ := State.bufWriteList_state s.arg1Nat (afBytes s.arg0Nat) s
  have hread := State.bufWriteList_afBytes_read s.arg1Nat s.arg0Nat s
  rw [hm] at hread
  refine ⟨m, ?_, hwf, hread⟩
  rw [exec_afEnc_ok hn hin, hm]
  rfl

/-- Settles O21: the branches of AF_DEC in order; its two reads leave the registers alone. -/
theorem afDecDecodesField : Obligations.AfDecDecodesField := by
  refine ⟨by decide, fun s => ⟨exec_afDec_range, exec_afDec_empty, fun hin hr =>
    ⟨fun h => exec_afDec_badLength hin hr rfl (if_pos h),
      fun h hzero => exec_afDec_badLength hin hr rfl ((if_neg (Nat.not_lt.2 h)).trans (if_pos hzero)),
      fun h hne => ?_⟩⟩⟩
  rw [exec_afDec_ok hin (Prod.mk.eta).symm (Prod.mk.eta).symm h hne, State.putAf, State.bufRead_regs,
    State.bufRead_regs]

/-- Settles O22: by O20 the length byte and the flags byte stand written, so AF_DEC reads these two without fault. -/
theorem adaptationFieldRoundTrip : Obligations.AdaptationFieldRoundTrip := by
  intro s (hn : s.arg0Nat ≤ 254) (hin : s.arg1Nat + 2 + s.arg0Nat ≤ s.params.bufBytes)
  obtain ⟨-, henc⟩ := afEncWritesField
  obtain ⟨-, -, hok⟩ := henc s
  obtain ⟨m, hexec, -, hread⟩ := hok hn hin
  refine ⟨_, hexec, rfl, rfl, rfl, fun s2 (hbuf : s2.buf = m) (hparams : s2.params = s.params) ha0
    (ha1 : s2.arg1Nat = 2 + s.arg0Nat) => ?_⟩
  replace ha0 : s2.arg0Nat = s.arg1Nat := congrArg BitVec.toNat ha0
  have hlength := lengthByte_toNat hn
  have hfl : s2.bufRead s2.arg0Nat = (BitVec.ofNat 8 (1 + s.arg0Nat), s2) :=
    State.bufRead_written (by rw [hbuf, hread, if_pos ha0])
  have hflags : s2.bufRead (s2.arg0Nat + 1) = (0x00#8, s2) :=
    State.bufRead_written (by rw [hbuf, hread, ha0, if_neg (Nat.succ_ne_self _), if_pos rfl])
  have hin2 : s2.arg0Nat + s2.arg1Nat ≤ s2.params.bufBytes := by
    rw [hparams, ha0, ha1, ← Nat.add_assoc]; exact hin
  have hdec := exec_afDec_ok hin2 hfl hflags (by rw [hlength, ha1]; omega) (by rw [hlength]; omega)
  simp only [hlength] at hdec
  exact ⟨_, hdec, rfl, congrArg (BitVec.ofNat 32) (by simp),
    congrArg (BitVec.ofNat 32) (Nat.add_assoc 1 1 _).symm, rfl⟩

end Sys2Proof.Machine
end

section
/-! PACKETIZE step by step (43_packetizer.md R106, R107): its checks in order, its first engine step, and the packet
step. -/

namespace Sys2Proof.Machine

/-! ### A packet step -/

/-- Settles O26: the guards of a packet step hold, and `State.emitChunk_eq` writes the emission out. -/
theorem packetStepEmitsChunk : Obligations.PacketStepEmitsChunk := by
  intro s hphase hindex hchunk hslot hrange
  refine ⟨specPacket_length _ _ _ ?_, ?_⟩
  · rw [State.bufReadList_length]; exact Nat.min_le_left ..
  · rw [engineStep_run hphase, packetStep_of hindex hchunk hslot hrange, State.emitChunk_eq]

/-! ### The checks -/

/-- A read of BUF neither reads nor writes the engine's latches and progress state. -/
theorem State.bufReadList_setEng (a n : Nat) (s : State) (e : Engine) :
    ({ s with eng := e } : State).bufReadList a n =
      ((s.bufReadList a n).1, { (s.bufReadList a n).2 with eng := e }) := by
  obtain ⟨v, u, k, h⟩ := bufReadList_uniform a n s.buf s.draws
  rw [h s rfl rfl, h { s with eng := e } rfl rfl]

section checks
variable {t : Nat} {fp : Bool} {s : State}

/-- PACKETIZE on a live slot: the range check, the empty payload, then a packet step (R106). -/
theorem exec_packetize_of_live (ht : t < s.params.nTracks) (hlive : (s.trk t).valid = true) :
    exec (.packetize t fp) s =
      if s.params.bufBytes < s.arg0Nat + s.arg1Nat then finish .range s
      else if s.arg1Nat = 0 then finish .ok (s.putPktn 0)
      else packetStep (s.packetizing t) := by
  have hempty : ceilDiv s.arg1Nat Config.maxChunk = 0 ↔ s.arg1Nat = 0 := by rw [ceilDiv_chunk]; omega
  refine (slotCheck_passes _ ht).trans ((if_neg (by simp [hlive])).trans ?_)
  simp only [hempty, State.packetizing]

/-- The first packet step of a non-empty payload inside BUF meets no stop (R106). -/
theorem exec_packetize_emits (ht : t < s.params.nTracks) (hlive : (s.trk t).valid = true)
    (hrange : s.arg0Nat + s.arg1Nat ≤ s.params.bufBytes) (hlen : 0 < s.arg1Nat) :
    exec (.packetize t fp) s = .next (s.packetizing t).emitChunk := by
  have hcount : 0 < ceilDiv s.arg1Nat Config.maxChunk := by rw [ceilDiv_chunk]; omega
  have hchunk : chunkLen s.arg1Nat 0 ≤ s.arg1Nat := Nat.min_le_right ..
  rw [exec_packetize_of_live ht hlive, if_neg (Nat.not_lt.2 hrange), if_neg (Nat.ne_of_gt hlen)]
  exact packetStep_of hcount hlen ht (by simp only [State.startRun_eng, State.startRun_params]; omega)

end checks

/-- Settles O25: the row of the decoder, each check in order, then the emission of chunk 0. -/
theorem packetizeFirstStep : Obligations.PacketizeFirstStep := by
  intro t fp s
  refine ⟨fun ht => ?_, fun w hw => ?_, engineStep_run, slotCheck_fails _,
    fun ht hfree => (slotCheck_passes _ ht).trans (if_pos hfree),
    fun ht hlive hrange => (exec_packetize_of_live ht hlive).trans (if_pos hrange),
    fun ht hlive hrange hlen => ?_, fun ht hlive hrange hlen => ?_⟩
  · have hfp : BitVec.ofNat 32 fp.toNat <<< 19 = fpBits fp := by cases fp <;> rfl
    rw [hfp]
    exact decodeEncodeRoundTrip (.packetize t fp) (decide_eq_true ht)
  · obtain ⟨-, -, -, -, -, -, -, -, -, hrow, -⟩ := decodeFollowsOpcodeMap w
    exact hrow hw
  · exact (exec_packetize_of_live ht hlive).trans ((if_neg (Nat.not_lt.2 hrange)).trans (if_pos hlen))
  · have hlast : 0 + 1 = (s.eng.a1.toNat + 181) / 182 ↔ s.eng.a1.toNat ≤ 182 := by omega
    have hcount : ceilDiv s.eng.a1.toNat Config.maxChunk = (s.eng.a1.toNat + 181) / 182 := ceilDiv_chunk _
    rw [exec_packetize_emits ht hlive hrange hlen, State.emitChunk_eq]
    simp only [State.packetizing, State.startRun, State.bufReadList_setEng, hcount, hlast]
    split
    · next hone => rw [← hlast.2 hone]; rfl
    · rfl

end Sys2Proof.Machine
end

section
/-! FP has no effect (43_packetizer.md R113). A change of the FP bit of the latched word commutes with every operation
of a PACKETIZE: the row that the word selects, its slot index and its OPC, which completion writes to LOPC, stay. -/

namespace Sys2Proof

/-- A word that decodes to PACKETIZE selects its row, and the slot is its TRK field (30_encoding.md R71). -/
theorem decode_packetize {w : Word} {t : Nat} {fp : Bool} (h : decode w = .instr (.packetize t fp)) :
    w &&& 0xF007FFFF#32 = 0x90000000#32 ∧ t = trkField w := by
  have hmap : ∀ r ∈ opcodeMap, .packetize t fp = buildInstr r.op w →
      r.pattern = 0x90000000#32 ∧ r.mask = 0xF007FFFF#32 ∧ t = trkField w := by
    simp +contextual [opcodeMap, buildInstr]
  obtain ⟨r, hr, hw, hi⟩ := decode_instr h
  obtain ⟨hpattern, hmask, ht⟩ := hmap r hr hi
  rw [hpattern, hmask] at hw
  exact ⟨hw, ht⟩

/-- PACKETIZE's OPC is 9 (30_encoding.md R71). -/
theorem opcField_packetize {w : Word} {t : Nat} {fp : Bool} (h : decode w = .instr (.packetize t fp)) :
    opcField w = 9#4 := by
  obtain ⟨hw, -⟩ := decode_packetize h
  calc opcField w
    _ = opcField (w &&& 0xF007FFFF#32) := (opcField_and w (by decide)).symm
    _ = 9#4 := by rw [hw]; rfl

/-- The FP bit of a PACKETIZE's word flipped: a PACKETIZE on the same slot. -/
theorem decode_flipFp {w : Word} {t : Nat} {fp : Bool} (h : decode w = .instr (.packetize t fp)) :
    ∃ fp', decode (w ^^^ 0x00080000#32) = .instr (.packetize t fp') := by
  obtain ⟨hw, rfl⟩ := decode_packetize h
  have hrow : (w ^^^ 0x00080000#32) &&& 0xF007FFFF#32 = 0x90000000#32 :=
    calc (w ^^^ 0x00080000#32) &&& 0xF007FFFF#32
      _ = (w &&& 0xF007FFFF#32) ^^^ (0x00080000#32 &&& 0xF007FFFF#32) :=
        BitVec.eq_of_toNat_eq Nat.and_xor_distrib_right
      _ = 0x90000000#32 := by rw [hw]; rfl
  have htrk : trkField (w ^^^ 0x00080000#32) = trkField w := by
    simp [trkField, BitVec.extractLsb'_xor]
  have hdecode := decode_row (r := ⟨.packetize, 0x90000000#32, 0xF007FFFF#32⟩) (by decide) hrow
  rw [buildInstr, htrk] at hdecode
  exact ⟨_, hdecode⟩

theorem opcField_flipFp (w : Word) : opcField (w ^^^ 0x00080000#32) = opcField w := by
  simp [opcField, BitVec.extractLsb'_xor]

end Sys2Proof

namespace Sys2Proof.Machine

/-- The FP bit of the latched command word flipped. -/
def State.flipFp (s : State) : State := { s with eng := { s.eng with cmd := s.eng.cmd ^^^ 0x00080000#32 } }

section operations
variable (s : State)

@[simp] theorem State.flipFp_params : s.flipFp.params = s.params := rfl
@[simp] theorem State.flipFp_eng : s.flipFp.eng = { s.eng with cmd := s.eng.cmd ^^^ 0x00080000#32 } := rfl
@[simp] theorem State.flipFp_arg0Nat : s.flipFp.arg0Nat = s.arg0Nat := rfl
@[simp] theorem State.flipFp_arg1Nat : s.flipFp.arg1Nat = s.arg1Nat := rfl
@[simp] theorem State.flipFp_trk (t : Nat) : s.flipFp.trk t = s.trk t := rfl
@[simp] theorem State.flipFp_slotExists (t : Nat) : s.flipFp.slotExists t = s.slotExists t := rfl
@[simp] theorem State.putPktn_flipFp (n : Nat) : (s.putPktn n).flipFp = s.flipFp.putPktn n := rfl
theorem State.startRun_flipFp (t src len n : Nat) :
    (s.startRun t src len n).flipFp = s.flipFp.startRun t src len n := rfl

@[simp] theorem State.complete_flipFp (c : ErrCode) : (s.complete c).flipFp = s.flipFp.complete c := by
  simp [State.flipFp, State.complete, opcField_flipFp]

@[simp] theorem mapNext_flipFp_finish (c : ErrCode) :
    mapNext State.flipFp (finish c s) = finish c s.flipFp := by
  simp [finish]

@[simp] theorem State.flipFp_bufReadList (a n : Nat) :
    s.flipFp.bufReadList a n = ((s.bufReadList a n).1, (s.bufReadList a n).2.flipFp) := by
  simp [State.flipFp, State.bufReadList_setEng]

/-- Emission reads the latched word at completion only (43_packetizer.md R107). -/
theorem State.emitChunk_flipFp : s.emitChunk.flipFp = s.flipFp.emitChunk := by
  rw [State.emitChunk_eq, State.emitChunk_eq]
  simp only [flipFp_eng, flipFp_bufReadList, flipFp_trk]
  split
  · exact complete_flipFp ..
  · rfl

theorem packetStep_flipFp : packetStep s.flipFp = mapNext State.flipFp (packetStep s) := by
  simp [packetStep, State.emitChunk_flipFp]

/-- Neither the latched FP bit nor the decoded one changes what the command does. -/
theorem exec_packetize_flipFp (t : Nat) (fp fp' : Bool) :
    exec (.packetize t fp') s.flipFp = mapNext State.flipFp (exec (.packetize t fp) s) := by
  have hstep (src len n : Nat) := packetStep_flipFp (s.startRun t src len n)
  simp [exec, execPacketize, ← State.startRun_flipFp, hstep]

end operations

/-- Settles O30: in START by the command, in RUN by the packet step. -/
theorem forcePusiHasNoEffect : Obligations.ForcePusiHasNoEffect := by
  intro s s' t fp hbusy hdecode h
  show engineStep s.flipFp = mapNext State.flipFp (.next s')
  cases hphase : s.eng.phase with
  | idle => exact absurd hphase hbusy
  | start =>
    obtain ⟨fp', hdecode'⟩ := decode_flipFp hdecode
    rw [engineStep_start (s := s.flipFp) hphase, runCommand_instr (s := s.flipFp) hdecode',
      exec_packetize_flipFp s t fp fp', ← runCommand_instr hdecode, ← engineStep_start hphase, h]
  | run => rw [engineStep_run (s := s.flipFp) hphase, packetStep_flipFp, ← engineStep_run hphase, h]

end Sys2Proof.Machine
end

section
/-! The chunks of a payload and the packets that carry them (43_packetizer.md R105, R114; 30_encoding.md R81). -/

namespace Sys2Proof.Machine

/-! ### The chunks -/

theorem specChunk_length (payload : List Byte) (i : Nat) :
    (specChunk payload i).length = min 182 (payload.length - 182 * i) := by
  simp [specChunk]

theorem specChunk_length_le (payload : List Byte) (i : Nat) : (specChunk payload i).length ≤ 182 :=
  List.length_take_le ..

/-- The first `k` chunks, joined, are the first 182 k bytes of the payload. -/
theorem flatten_specChunks (payload : List Byte) (k : Nat) :
    ((List.range k).map (specChunk payload)).flatten = payload.take (182 * k) := by
  induction k with
  | zero => simp
  | succ k ih =>
    calc ((List.range (k + 1)).map (specChunk payload)).flatten
      _ = payload.take (182 * k) ++ specChunk payload k := by simp [List.range_succ, ih]
      _ = payload.take (182 * (k + 1)) := by rw [specChunk, ← List.take_add, Nat.mul_succ]

/-- BUF holds every chunk of a payload that it holds. -/
theorem Memory.holds_specChunk {m : Memory} {a : Nat} {payload : List Byte} (h : m.holds a payload) (i : Nat) :
    m.holds (a + 182 * i) (specChunk payload i) := by
  intro k hk
  rw [specChunk_length] at hk
  rw [Nat.add_assoc, h (182 * i + k) (by omega), specChunk, List.getElem?_take_of_lt (by omega), List.getElem?_drop]

/-! ### One packet -/

section packet
variable (first : Bool) (pid cc : Nat) {chunk : List Byte}

/-- FL counts the flags byte and the stuffing (R81). -/
theorem packetFl_specPacket : packetFl (specPacket first pid cc chunk) = 183 - chunk.length := by
  have hbyte : (specPacket first pid cc chunk).getD 4 0#8 = BitVec.ofNat 8 (183 - chunk.length) := rfl
  rw [packetFl, hbyte, BitVec.toNat_ofNat]
  omega

/-- The bytes from offset 5 + FL on are the chunk (R81). -/
theorem packetPayload_specPacket (h : chunk.length ≤ 182) :
    packetPayload (specPacket first pid cc chunk) = chunk := by
  rw [packetPayload, packetFl_specPacket, specPacket]
  exact List.drop_left' (by simp; omega)

/-- PUSI is bit 6 of byte 1, above the five PID bits that stand there (R76). -/
theorem pusi_specPacket (h : pid < 2 ^ 13) :
    ((specPacket first pid cc chunk).getD 1 0#8).getLsbD 6 = first := by
  have hbyte : (specPacket first pid cc chunk).getD 1 0#8 =
      BitVec.ofNat 8 ((if first then 0x40 else 0) + pid / 256) := rfl
  rw [hbyte, BitVec.getLsbD_ofNat, Nat.testBit_eq_decide_div_mod_eq]
  cases first <;> simp <;> omega

end packet

/-! ### The packets of a payload -/

/-- The first `k` packets of a payload on a slot that holds `x` (R107). -/
def payloadPackets (x : Track) (payload : List Byte) (k : Nat) : List (List Byte) :=
  (List.range k).map (fun i => specPacket (i == 0) x.pid.toNat (x.cc.toNat + i + 1) (specChunk payload i))

section packets
variable (x : Track) (payload : List Byte) (k : Nat)

@[simp] theorem payloadPackets_length : (payloadPackets x payload k).length = k := by
  simp [payloadPackets]

theorem payloadPackets_succ : payloadPackets x payload (k + 1) = payloadPackets x payload k ++
    [specPacket (k == 0) x.pid.toNat (x.cc.toNat + k + 1) (specChunk payload k)] := by
  simp [payloadPackets, List.range_succ]

variable {x payload k}

theorem payloadPackets_getElem? {i : Nat} {p : List Byte} (h : (payloadPackets x payload k)[i]? = some p) :
    i < k ∧ p = specPacket (i == 0) x.pid.toNat (x.cc.toNat + i + 1) (specChunk payload i) := by
  have hi : i < k := by simpa using (List.getElem?_eq_some_iff.1 h).1
  exact ⟨hi, by simpa [payloadPackets, hi] using h.symm⟩

/-- Every packet is 188 bytes: the header, the adaptation field and the payload part (R114). -/
theorem payloadPackets_bytes {p : List Byte} (h : p ∈ payloadPackets x payload k) :
    p.length = 188 ∧ 1 ≤ packetFl p ∧ 4 + 1 + packetFl p + (packetPayload p).length = 188 := by
  obtain ⟨i, -, rfl⟩ := List.mem_map.1 h
  have hchunk := specChunk_length_le payload i
  rw [specPacket_length _ _ _ hchunk, packetPayload_specPacket _ _ _ hchunk, packetFl_specPacket]
  omega

/-- The payload parts, in order, are the payload (R114). -/
theorem payloadPackets_payload (h : payload.length ≤ 182 * k) :
    ((payloadPackets x payload k).map packetPayload).flatten = payload := by
  have hparts : (payloadPackets x payload k).map packetPayload = (List.range k).map (specChunk payload) := by
    rw [payloadPackets, List.map_map]
    exact List.map_congr_left fun i _ => packetPayload_specPacket _ _ _ (specChunk_length_le payload i)
  rw [hparts, flatten_specChunks, List.take_of_length_le h]

end packets

/-- Stuffing and payload parts fill 182 bytes of each packet. -/
theorem stuffing_add_payload {ps : List (List Byte)}
    (h : ∀ p ∈ ps, p.length = 188 ∧ 1 ≤ packetFl p ∧ 4 + 1 + packetFl p + (packetPayload p).length = 188) :
    (ps.map (fun p => packetFl p - 1)).sum + (ps.map packetPayload).flatten.length = 182 * ps.length := by
  induction ps with
  | nil => rfl
  | cons p ps ih =>
    obtain ⟨⟨-, hfl, hfill⟩, hrest⟩ := List.forall_mem_cons.1 h
    have := ih hrest
    simp only [List.map_cons, List.sum_cons, List.flatten_cons, List.length_append, List.length_cons]
    omega

end Sys2Proof.Machine
end

section
/-! A whole PACKETIZE over a written payload (43_packetizer.md R105 to R112, R114). `State.afterPackets` writes out the
state after `k` packet steps, `State.emitChunk_afterPackets` is the induction step, and the packet laws are read off the
run's last state. -/

namespace Sys2Proof.Machine

/-- The number of chunks of a payload (R105). -/
abbrev chunkCount (payload : List Byte) : Nat := (payload.length + 181) / 182

/-- A PACKETIZE on the live slot `t` is latched, its payload lies in BUF and is written, and the engine runs alone. -/
structure State.ReadyToPacketize (t : Nat) (payload : List Byte) (s : State) : Prop where
  alone : s.inputs = []
  phase : s.eng.phase = .start
  command : ∃ fp, decode s.eng.cmd = .instr (.packetize t fp)
  table : s.trks.length = s.params.nTracks
  slot : t < s.params.nTracks
  live : (s.trk t).valid = true
  length : payload.length = s.arg1Nat
  range : s.arg0Nat + s.arg1Nat ≤ s.params.bufBytes
  written : s.buf.holds s.arg0Nat payload

/-- Slot `t`'s track after `k` increments of its counter (R111). -/
def State.countedTrk (t k : Nat) (s : State) : Track :=
  { s.trk t with cc := BitVec.ofNat 4 ((s.trk t).cc.toNat + k) }

/-- The state of a running PACKETIZE after its first `k` packets. -/
def State.afterPackets (t : Nat) (payload : List Byte) (k : Nat) (s : State) : State :=
  { s with
    trks := s.trks.set t (s.countedTrk t k)
    out := s.out ++ payloadPackets (s.trk t) payload k
    eng := { s.eng with
      phase := .run, t := t, src := s.arg0Nat, len := s.arg1Nat, n := chunkCount payload, i := k } }

/-- The state after `k` packet steps of a PACKETIZE: after the last one PKTN is written and the command has ended
(R107). -/
def State.packetized (t : Nat) (payload : List Byte) (k : Nat) (s : State) : State :=
  if k = chunkCount payload then ((s.afterPackets t payload k).putPktn k).endedWith .ok
  else s.afterPackets t payload k

/-- With no event pending the engine moves (log 3). -/
theorem step_of_no_inputs {s : State} (h : s.inputs = []) : step s = engineStep s := by
  rw [step, nextStep, h]

section run
variable {t : Nat} {payload : List Byte} {s : State}

@[simp] theorem State.afterPackets_params (k : Nat) : (s.afterPackets t payload k).params = s.params := rfl
@[simp] theorem State.afterPackets_trks (k : Nat) :
    (s.afterPackets t payload k).trks = s.trks.set t (s.countedTrk t k) := rfl
@[simp] theorem State.afterPackets_out (k : Nat) :
    (s.afterPackets t payload k).out = s.out ++ payloadPackets (s.trk t) payload k := rfl
@[simp] theorem State.afterPackets_eng (k : Nat) :
    (s.afterPackets t payload k).eng = { s.eng with
      phase := .run, t := t, src := s.arg0Nat, len := s.arg1Nat, n := chunkCount payload, i := k } := rfl

theorem State.countedTrk_zero : s.countedTrk t 0 = s.trk t := by
  simp [State.countedTrk]

theorem State.countedTrk_succ (k : Nat) :
    ({ s.countedTrk t k with cc := (s.countedTrk t k).cc + 1#4 } : Track) = s.countedTrk t (k + 1) := by
  simp [State.countedTrk, BitVec.ofNat_add, BitVec.add_assoc]

/-- Before the first packet this is the state PACKETIZE starts from (R106). -/
theorem State.afterPackets_zero (hlen : payload.length = s.arg1Nat) (ht : t < s.trks.length) :
    s.afterPackets t payload 0 = s.packetizing t := by
  have htrks : s.trks.set t (s.trk t) = s.trks := congrArg State.trks (State.putTrk_trk_self ht)
  simp [State.afterPackets, State.startRun, State.countedTrk_zero, htrks, payloadPackets, ceilDiv_chunk, chunkCount,
    hlen]

/-- A packet's counter field from the slot's counter after `k` packets. -/
theorem State.specPacket_countedTrk (first : Bool) (pid k : Nat) (chunk : List Byte) :
    specPacket first pid ((s.countedTrk t k).cc.toNat + 1) chunk =
      specPacket first pid ((s.trk t).cc.toNat + k + 1) chunk := by
  rw [← specPacket_cc_mod, ← specPacket_cc_mod (cc := (s.trk t).cc.toNat + k + 1)]
  simp [State.countedTrk]

/-- One more packet: the chunk's bytes are written, so its read answers them and changes nothing. -/
theorem State.emitChunk_afterPackets (hlen : payload.length = s.arg1Nat) (hwritten : s.buf.holds s.arg0Nat payload)
    (ht : t < s.trks.length) (k : Nat) : (s.afterPackets t payload k).emitChunk = s.packetized t payload (k + 1) := by
  have hread : (s.afterPackets t payload k).bufReadList (s.arg0Nat + 182 * k) (min 182 (s.arg1Nat - 182 * k)) =
      (specChunk payload k, s.afterPackets t payload k) := by
    rw [← hlen, ← specChunk_length]
    exact bufReadList_holds (Memory.holds_specChunk hwritten k)
  have htrk : (s.afterPackets t payload k).trk t = s.countedTrk t k := s.putTrk_trk_eq _ ht
  have hset : (s.trks.set t (s.countedTrk t k)).set t (s.countedTrk t (k + 1)) =
      s.trks.set t (s.countedTrk t (k + 1)) := List.set_set ..
  have hpackets : (s.out ++ payloadPackets (s.trk t) payload k) ++ [specPacket (k == 0) (s.countedTrk t k).pid.toNat
      ((s.trk t).cc.toNat + k + 1) (specChunk payload k)] = s.out ++ payloadPackets (s.trk t) payload (k + 1) := by
    rw [payloadPackets_succ, List.append_assoc]; rfl
  rw [State.emitChunk_eq, State.packetized]
  simp only [State.afterPackets_eng, State.afterPackets_trks, State.afterPackets_out, hread, htrk,
    State.countedTrk_succ, hset, State.specPacket_countedTrk, hpackets]
  split
  · next hlast => rw [hlast]; rfl
  · rfl

namespace State.ReadyToPacketize

variable (h : s.ReadyToPacketize t payload)
include h

/-- PACKETIZE's first step has emitted packet 0 (R106). -/
theorem step_first (hlen : 0 < payload.length) : step s = .next (s.packetized t payload 1) := by
  obtain ⟨fp, hdecode⟩ := h.command
  have ht : t < s.trks.length := h.table ▸ h.slot
  rw [step_of_no_inputs h.alone, engineStep_start h.phase, runCommand_instr hdecode,
    exec_packetize_emits h.slot h.live h.range (h.length ▸ hlen), ← State.afterPackets_zero h.length ht,
    State.emitChunk_afterPackets h.length h.written ht]

/-- Every later step emits one packet more (R107). -/
theorem step_next {k : Nat} (hk : k < chunkCount payload) :
    step (s.afterPackets t payload k) = .next (s.packetized t payload (k + 1)) := by
  have hlen := h.length
  have hrange := h.range
  have hchunk : chunkLen s.arg1Nat k ≤ s.arg1Nat - 182 * k := Nat.min_le_right ..
  have hmore : 182 * k < s.arg1Nat := by rw [chunkCount] at hk; omega
  rw [step_of_no_inputs (s := s.afterPackets t payload k) h.alone, engineStep_run rfl,
    packetStep_of hk hmore h.slot
      (by simp only [State.afterPackets_eng, State.afterPackets_params]; omega),
    State.emitChunk_afterPackets h.length h.written (h.table ▸ h.slot)]

/-- The state after `k + 1` steps, by induction over the packets. -/
theorem runSteps_succ {k : Nat} (hk : k < chunkCount payload) :
    runSteps (k + 1) s = .next (s.packetized t payload (k + 1)) := by
  induction k with
  | zero => exact runSteps_cons (h.step_first (by rw [chunkCount] at hk; omega))
  | succ k ih =>
    have hrun := ih (by omega)
    rw [State.packetized, if_neg (by omega)] at hrun
    exact runSteps_snoc hrun (h.step_next hk)

end State.ReadyToPacketize

end run

/-- Settles O28: the state after `k` packet steps, field by field. -/
theorem packetizeEmitsEveryChunk : Obligations.PacketizeEmitsEveryChunk := by
  intro s t fp payload halone hphase hdecode htable ht hlive hlen hrange hwritten k hk hkn
  have h : s.ReadyToPacketize t payload :=
    ⟨halone, hphase, ⟨fp, hdecode⟩, htable, ht, hlive, hlen, hrange, hwritten⟩
  have hcount : chunkCount payload = (s.eng.a1.toNat + 181) / 182 := by rw [chunkCount, hlen]
  obtain ⟨k, rfl⟩ := Nat.exists_eq_add_of_le' hk
  rw [← hcount] at hkn ⊢
  refine ⟨_, h.runSteps_succ hkn, ?_⟩
  rw [State.packetized]
  split
  · next hlast =>
    refine ⟨rfl, rfl, rfl, rfl, rfl, fun hmore => absurd hlast (Nat.ne_of_lt hmore), fun _ => ⟨rfl, ?_⟩⟩
    rw [← opcField_packetize hdecode]; rfl
  · next hmore => exact ⟨rfl, rfl, rfl, rfl, rfl, fun _ => ⟨rfl, rfl, rfl⟩, fun hlast => absurd hlast hmore⟩

/-- Settles O29: the laws of `payloadPackets`, which the run of O28 appends. -/
theorem packetizeOutputLaws : Obligations.PacketizeOutputLaws := by
  intro s s' t fp payload halone hphase hdecode htable ht hlive hlen hrange hwritten hpos hrun
  have hcount : (s.eng.a1.toNat + 181) / 182 = chunkCount payload := by rw [chunkCount, hlen]
  obtain ⟨s'', hrun', hout, htrks, -⟩ := packetizeEmitsEveryChunk s t fp payload halone hphase hdecode htable ht hlive
    hlen hrange hwritten _ (by omega) le_rfl
  obtain rfl : s'' = s' := by rw [hrun] at hrun'; cases hrun'; rfl
  rw [hcount] at hout htrks
  have hjoined : ((payloadPackets (s.trk t) payload (chunkCount payload)).map packetPayload).flatten = payload :=
    payloadPackets_payload (by omega)
  have hfill := stuffing_add_payload (ps := payloadPackets (s.trk t) payload (chunkCount payload))
    (fun _ => payloadPackets_bytes)
  rw [hjoined] at hfill
  refine ⟨payloadPackets (s.trk t) payload (chunkCount payload), hout, ?_, ?_, ?_, ?_, hjoined, ?_, ?_⟩
  · rw [payloadPackets_length]; exact (ceilDiv_chunk _).symm
  · intro p hp
    obtain ⟨h188, -, hparts⟩ := payloadPackets_bytes hp
    exact ⟨h188, hparts⟩
  · intro i p hp
    obtain ⟨hi, rfl⟩ := payloadPackets_getElem? hp
    rw [payloadPackets_length, packetFl_specPacket, specChunk_length, pusi_specPacket _ _ _ (s.trk t).pid.isLt]
    exact ⟨specPacket_cc .., by simp, by omega, by omega⟩
  · rw [State.trk, htrks, getD_set_slot, if_pos ⟨rfl, htable ▸ ht⟩, payloadPackets_length]
    exact BitVec.toNat_ofNat ..
  · omega
  · rw [payloadPackets_length]; omega

end Sys2Proof.Machine
end

section
/-! The packet parser (44_parser.md R115 to R119): what PARSE answers at each of its checks, that its payload-length
check is dead, and that it undoes the packet format. -/

namespace Sys2Proof.Machine

/-! ### The result words, from the bytes read -/

/-- HDRW of a header whose byte 0 passed the sync check (20_memory.md R61). -/
theorem packWord_sync (b1 b2 b3 : Byte) :
    packWord Config.sync b1 b2 b3 =
      BitVec.ofNat 32 (2 ^ 24 * 0x47 + 2 ^ 16 * b1.toNat + 2 ^ 8 * b2.toNat + b3.toNat) := by
  apply BitVec.eq_of_toNat_eq
  rw [packWord_toNat, BitVec.toNat_ofNat, BitVec.toNat_ofNat]
  omega

/-- The raw scrambling value stands in the top two bits of wire byte 3 (30_encoding.md R76). -/
theorem packWord_scrambling (b0 b1 b2 b3 : Byte) :
    (packWord b0 b1 b2 b3).toNat / 64 % 4 = b3.toNat / 64 := by
  rw [packWord_toNat]
  omega

/-- PLR as a number put into a word (10_state.md R35). -/
theorem plrWord_eq_ofNat {plen poff : Nat} (h : plen < 256) (h' : poff < 256) :
    plrWord plen poff = BitVec.ofNat 32 (poff + 2 ^ 8 * plen) := by
  rw [← plrWord_toNat h h', BitVec.ofNat_toNat, BitVec.setWidth_eq]

/-! ### What PARSE answers -/

/-- `s` with the five result registers that PARSE writes on success, from the bytes after the sync byte; `p` are the
instance's parameters (R115). -/
def State.parsed (p : Params) (b1 b2 b3 fl flags : Byte) (s : State) : State :=
  { s with regs := { s.regs with
    hdrw := BitVec.ofNat 32 (2 ^ 24 * 0x47 + 2 ^ 16 * b1.toNat + 2 ^ 8 * b2.toNat + b3.toNat)
    hdrx :=
      if b3.toNat / 64 = 0 then 0#32
      else if b3.toNat / 64 = 1 then 1#32
      else if b3.toNat / 64 = 2 then (if p.scrDecode10 then 1#32 else 0#32)
      else (if p.scrDecode11 then 1#32 else 0#32)
    afr := BitVec.ofNat 32 (fl.toNat + 2 ^ 8 * flags.toNat + 2 ^ 16 * (fl.toNat - 1))
    afc := BitVec.ofNat 32 (1 + fl.toNat)
    plr := BitVec.ofNat 32 (5 + fl.toNat + 2 ^ 8 * (183 - fl.toNat)) } }

/-- The three writes of the result registers, together. -/
theorem State.parsed_eq (p : Params) (b1 b2 b3 flags : Byte) {fl : Byte} (s : State) (hpos : 1 ≤ fl.toNat)
    (hle : fl.toNat ≤ 183) :
    s.parsed p b1 b2 b3 fl flags =
      ((s.putHeader (packWord Config.sync b1 b2 b3) (scrDec p (scrField (packWord Config.sync b1 b2 b3)))).putAf
        (afrWord fl flags) (afcWord (1 + fl.toNat))).putPlr (plrWord (183 - fl.toNat) (5 + fl.toNat)) := by
  rw [scrDec_scrField, packWord_scrambling, State.putHeader_eq, packWord_sync, afrWord_eq_ofNat flags (by omega),
    plrWord_eq_ofNat (by omega) (by omega)]
  simp only [apply_ite (fun b : Bool => if b then 1#32 else 0#32), if_true, Bool.false_eq_true, if_false]
  rfl

section body
variable {a : Nat} {b1 b2 b3 fl flags : Byte} {s0 s1 s2 s3 s4 s5 : State}
  (h1 : s0.bufRead (a + 1) = (b1, s1)) (h2 : s1.bufRead (a + 2) = (b2, s2)) (h3 : s2.bufRead (a + 3) = (b3, s3))
  (h4 : s3.bufRead (a + 4) = (fl, s4))
include h1 h2 h3 h4

/-- A length byte that fails the codec's tests ends PARSE with their code; the flags byte is not read. -/
theorem parseBody_badLength {b0 : Byte} {e : ErrCode} (he : afLengthError parseRemaining fl.toNat = some e) :
    parseBody a b0 s0 = .next (s4.endedWith e) := by
  simp only [parseBody, h1, h2, h3, h4, he]
  rfl

theorem parseBody_ok (h5 : s4.bufRead (a + 5) = (flags, s5)) (hpos : 1 ≤ fl.toNat) (hle : fl.toNat ≤ 183) :
    parseBody a Config.sync s0 = .next ((s5.parsed s0.params b1 b2 b3 fl flags).endedWith .ok) := by
  have hfits : 1 + fl.toNat ≤ parseRemaining := by show 1 + fl.toNat ≤ 184; omega
  have hnone : afLengthError parseRemaining fl.toNat = none :=
    (if_neg (Nat.not_lt.2 hfits)).trans (if_neg (Nat.ne_of_gt hpos))
  obtain ⟨-, hplen⟩ := parsePlen_of_ok hfits
  have hnonneg : ¬ ((183 - fl.toNat : Nat) : Int) < 0 := Int.not_lt.2 (Int.natCast_nonneg _)
  rw [State.parsed_eq _ _ _ _ _ _ hpos hle]
  simp only [parseBody, h1, h2, h3, h4, h5, hnone, hplen, if_neg hnonneg, Int.toNat_natCast]
  rfl

end body

section checks
variable {s s0 : State} {b0 : Byte}

theorem exec_parse_wrongSize (h : s.arg1Nat ≠ 188) : exec .parse s = .next (s.endedWith .wrongSize) := if_pos h

theorem exec_parse_range (hsize : s.arg1Nat = 188) (h : s.params.bufBytes < s.arg0Nat + 188) :
    exec .parse s = .next (s.endedWith .range) :=
  (if_neg (not_not.2 hsize)).trans (if_pos h)

/-- 188 bytes inside BUF: the sync check decides (R115). -/
theorem exec_parse_of_inside (hsize : s.arg1Nat = 188) (hin : s.arg0Nat + 188 ≤ s.params.bufBytes)
    (h0 : s.bufRead s.arg0Nat = (b0, s0)) :
    exec .parse s = if b0 ≠ Config.sync then finish .malformedHeader s0 else parseBody s.arg0Nat b0 s0 := by
  refine (if_neg (not_not.2 hsize)).trans ((if_neg (Nat.not_lt.2 hin)).trans ?_)
  simp only [h0]

theorem exec_parse_malformed (hsize : s.arg1Nat = 188) (hin : s.arg0Nat + 188 ≤ s.params.bufBytes)
    (h0 : s.bufRead s.arg0Nat = (b0, s0)) (hsync : b0 ≠ Config.sync) :
    exec .parse s = .next (s0.endedWith .malformedHeader) :=
  (exec_parse_of_inside hsize hin h0).trans (if_pos hsync)

/-- Past its sync check PARSE is `parseBody`. -/
theorem exec_parse_of_sync (hsize : s.arg1Nat = 188) (hin : s.arg0Nat + 188 ≤ s.params.bufBytes)
    (h0 : s.bufRead s.arg0Nat = (b0, s0)) (hsync : b0 = Config.sync) :
    exec .parse s = parseBody s.arg0Nat Config.sync s0 := by
  subst hsync
  exact (exec_parse_of_inside hsize hin h0).trans (if_neg (not_not.2 rfl))

end checks

/-- Settles O31: PARSE's checks in order; its reads leave the registers and the parameters alone. -/
theorem parseReadsPacket : Obligations.ParseReadsPacket := by
  refine ⟨by decide, fun s => ⟨exec_parse_wrongSize, exec_parse_range, fun hsize hin => ?_⟩⟩
  intro a x0 x1 x2 x3 x4 x5
  have hbody (hsync : x0.1 = 0x47#8) : exec .parse s = parseBody a Config.sync x0.2 :=
    exec_parse_of_sync hsize hin Prod.mk.eta.symm hsync
  have hbad {e : ErrCode} (he : afLengthError parseRemaining x4.1.toNat = some e) :
      parseBody a Config.sync x0.2 = .next (x4.2.endedWith e) :=
    parseBody_badLength Prod.mk.eta.symm Prod.mk.eta.symm Prod.mk.eta.symm Prod.mk.eta.symm he
  refine ⟨exec_parse_malformed hsize hin Prod.mk.eta.symm,
    fun hsync hlong => (hbody hsync).trans (hbad (if_pos (Nat.lt_one_add_iff.2 hlong))),
    fun hsync hzero => (hbody hsync).trans (hbad (by rw [hzero]; rfl)), fun hsync hpos hle => ?_⟩
  have hregs : x5.2.regs = s.regs := by simp only [x5, x4, x3, x2, x1, x0, State.bufRead_regs]
  have hparams : x0.2.params = s.params := State.bufRead_params ..
  have hok : parseBody a Config.sync x0.2 = .next _ := parseBody_ok (s5 := x5.2) Prod.mk.eta.symm Prod.mk.eta.symm
    Prod.mk.eta.symm Prod.mk.eta.symm Prod.mk.eta.symm hpos hle
  rw [hbody hsync, hok, State.parsed, hparams, hregs]

/-! ### The payload-length check is dead -/

/-- Settles O32: `exec_cases` has no failure with this code, and PARSE has no other effect than a failure or a write of
result registers that ends with OK. -/
theorem inconsistentLengthUnreachable : Obligations.InconsistentLengthUnreachable := by
  refine ⟨fun fl => by omega, fun s s' h => ?_⟩
  cases exec_cases h with
  | failed c _ _ _ hc _ _ he => rw [he]; exact hc
  | results _ _ _ _ _ he => rw [he]; exact ErrCode.noConfusion
  | created _ _ hi | freed _ hi | seeded _ hi | field _ _ hi | packet _ _ hi => cases hi

/-! ### The packets that the engine emits -/

/-- `p` follows the byte map of 30_encoding.md R81 for some PID and counter, on a chunk of 1 to 182 bytes. -/
def IsPacket (p : List Byte) : Prop :=
  ∃ (first : Bool) (pid cc : Nat) (chunk : List Byte),
    pid < 2 ^ 13 ∧ 1 ≤ chunk.length ∧ chunk.length ≤ 182 ∧ p = specPacket first pid cc chunk

/-- Emission forms a packet of the chunk it reads, which is not empty (43_packetizer.md R107). -/
theorem State.emitChunk_isPacket {s : State} {p : List Byte} (hmore : 182 * s.eng.i < s.eng.len)
    (hout : s.emitChunk.out = s.out ++ [p]) : IsPacket p := by
  let r := s.bufReadList (s.eng.src + 182 * s.eng.i) (min 182 (s.eng.len - 182 * s.eng.i))
  have hlen : r.1.length = min 182 (s.eng.len - 182 * s.eng.i) := bufReadList_length ..
  refine ⟨s.eng.i == 0, (s.trk s.eng.t).pid.toNat, (s.trk s.eng.t).cc.toNat + 1, r.1, (s.trk s.eng.t).pid.isLt,
    by omega, by omega, ?_⟩
  rw [State.emitChunk_eq] at hout
  dsimp only at hout
  split at hout <;> exact (List.singleton_inj.1 (List.append_cancel_left hout)).symm

/-- A step that leaves OUT as it was emits nothing. -/
theorem not_emits_of_out_eq {s s' : State} {p : List Byte} (h : s'.out = s.out) : s'.out ≠ s.out ++ [p] := by
  simp [h]

theorem exec_isPacket {i : Instr} {s s' : State} {p : List Byte} (h : exec i s = .next s')
    (hout : s'.out = s.out ++ [p]) : IsPacket p := by
  cases exec_cases h with
  | failed _ _ _ _ _ _ _ he | results _ _ _ _ _ he | created _ _ _ _ _ _ _ he | freed _ _ _ he | seeded _ _ _ _ he
  | field _ _ _ _ _ _ he => rw [he] at hout; exact absurd hout (not_emits_of_out_eq rfl)
  | packet t _ _ _ _ _ hl he => rw [he] at hout; exact State.emitChunk_isPacket (s := s.packetizing t) hl hout

theorem engineStep_isPacket {s s' : State} {p : List Byte} (h : engineStep s = .next s')
    (hout : s'.out = s.out ++ [p]) : IsPacket p := by
  obtain ⟨-, rfl⟩ | ⟨-, -, rfl⟩ | ⟨-, i, -, hexec⟩ | ⟨-, hpacket⟩ := engineStep_cases h
  · exact absurd hout (not_emits_of_out_eq rfl)
  · exact absurd hout (not_emits_of_out_eq rfl)
  · exact exec_isPacket hexec hout
  · obtain ⟨⟨-, hchunk⟩, -, -, rfl⟩ := packetStep_next hpacket
    exact State.emitChunk_isPacket hchunk hout

/-! ### PARSE undoes the packet format -/

/-- BUF holds the tail of what it holds. -/
theorem Memory.holds_drop {m : Memory} {a : Nat} {bytes : List Byte} (h : m.holds a bytes) (n : Nat) :
    m.holds (a + n) (bytes.drop n) := by
  intro k hk
  rw [List.length_drop] at hk
  rw [Nat.add_assoc, h (n + k) (by omega), List.getElem?_drop]

/-- A read of a byte that BUF holds changes nothing. -/
theorem State.bufRead_holds {s : State} {a k : Nat} {bytes : List Byte} (h : s.buf.holds a bytes)
    (hk : k < bytes.length) : s.bufRead (a + k) = (bytes.getD k 0#8, s) := by
  apply bufRead_written
  rw [h k hk, List.getD_eq_getElem?_getD, List.getElem?_eq_getElem hk]
  rfl

/-- PARSE of 188 written bytes that pass its checks: header, field_length, payload length and offset, as numbers
(R115). -/
theorem exec_parse_of_holds {s : State} {p : List Byte} (hsize : s.arg1Nat = 188)
    (hin : s.arg0Nat + 188 ≤ s.params.bufBytes) (hbuf : s.buf.holds s.arg0Nat p) (hlen : p.length = 188)
    (hsync : p.getD 0 0#8 = Config.sync) (hpos : 1 ≤ packetFl p) (hle : packetFl p ≤ 183) :
    ∃ s', exec .parse s = .next s' ∧ s'.regs.err = .ok ∧
      s'.regs.hdrw.toNat = 2 ^ 24 * (p.getD 0 0#8).toNat + 2 ^ 16 * (p.getD 1 0#8).toNat
        + 2 ^ 8 * (p.getD 2 0#8).toNat + (p.getD 3 0#8).toNat ∧
      s'.regs.afr.toNat % 256 = packetFl p ∧
      s'.regs.plr.toNat = 5 + packetFl p + 2 ^ 8 * (183 - packetFl p) ∧
      s'.buf = s.buf := by
  have hread (k : Nat) (hk : k < 188) := State.bufRead_holds hbuf (hlen.symm ▸ hk)
  have hexec : exec .parse s = .next _ := (exec_parse_of_sync hsize hin (hread 0 (by decide)) hsync).trans
    (parseBody_ok (hread 1 (by decide)) (hread 2 (by decide)) (hread 3 (by decide)) (hread 4 (by decide))
      (hread 5 (by decide)) hpos hle)
  rw [hsync]
  refine ⟨_, hexec, rfl, Nat.mod_eq_of_lt ?_, ?_, Nat.mod_eq_of_lt ?_, rfl⟩
  · omega
  · simp only [State.parsed, BitVec.toNat_ofNat, packetFl]
    omega
  · omega

/-- Settles O33: the packet an engine step emits has its sync byte and a field_length of 1 to 183, so PARSE passes its
checks; what follows offset 5 + FL is the chunk. -/
theorem parseInvertsPacketize : Obligations.ParseInvertsPacketize := by
  intro s0 s0' p hstep hout
  obtain ⟨first, pid, cc, chunk, hpid, hne, hle, hp⟩ := engineStep_isPacket hstep hout
  refine ⟨first, pid, cc, chunk, hpid, hne, hle, hp, fun s hsize hin hheld => ?_⟩
  have hlen : p.length = 188 := hp ▸ specPacket_length first pid cc hle
  have hsync : p.getD 0 0#8 = Config.sync := hp ▸ rfl
  have hfl : packetFl p = 183 - chunk.length := hp ▸ packetFl_specPacket first pid cc
  have hpayload : p.drop (5 + packetFl p) = chunk := hp ▸ packetPayload_specPacket first pid cc hle
  obtain ⟨s', hexec, hok, hhdrw, hafr, hplr, hbuf⟩ :=
    exec_parse_of_holds hsize hin hheld hlen hsync (by omega) (by omega)
  have hpoff : s'.regs.plr.toNat % 256 = 5 + packetFl p := by omega
  refine ⟨s', hexec, hok, hhdrw, hafr, by omega, by omega, ?_⟩
  rw [hbuf, hpoff, ← hpayload]
  exact Memory.holds_drop hheld _

end Sys2Proof.Machine
end

section
/-! The host's transactions (45_host_access.md): a register access through the register's name, the state after a BUF
access, and what is left alone while a command runs. -/

namespace Sys2Proof.Machine

/-! ### Rejected accesses -/

/-- A register access that 20_memory.md R56 rejects names no register. -/
theorem regAccess_rejected {width x : Nat} (h : 0x40 ≤ x ∨ x % 4 ≠ 0 ∨ width ≠ 32) : regAccess width x = none :=
  if_pos h

/-- Settles O49: a register access that names no register, and a BUF access that fails its check. -/
theorem busErrorsChangeNothing : Obligations.BusErrorsChangeNothing := by
  intro s width x v b
  refine ⟨fun h => ?_, fun h => ?_⟩
  · have hnone := regAccess_rejected h
    constructor
    · simp only [hostStep, hostRd, hnone]; rfl
    · simp only [hostStep, hostWr, hnone]; rfl
  · have herror : s.bufAccessError width x = true := decide_eq_true h
    constructor
    · rw [hostStep, hostRdb, if_pos herror]; rfl
    · rw [hostStep, hostWrb, if_pos herror]; rfl

/-! ### Register accesses -/

/-- A read at a register's offset answers its word (R120). -/
theorem hostStep_rd_offset (r : RegName) (s : State) :
    hostStep (.rd 32 r.offset) s = s.respond (.word (s.readReg r)) := by
  simp only [hostStep, hostRd, regAccess_offset]

/-- A write at a register's offset is that register's write (R121). -/
theorem hostStep_wr_offset (r : RegName) (v : Word) (s : State) :
    hostStep (.wr 32 r.offset v) s = (s.writeReg r v).respond .done := by
  simp only [hostStep, hostWr, regAccess_offset]

theorem State.busy_toNat (s : State) : s.busy.toNat = if s.eng.phase = .idle then 0 else 1 := by
  cases h : s.eng.phase <;> simp [State.busy, h]

/-- STATUS by the weights of its fields (R120). -/
theorem State.statusWord_toNat (s : State) :
    s.statusWord.toNat = 2 ^ 8 * s.regs.lopc.toNat + 2 ^ 4 * s.regs.err.code.toNat + 2 * s.regs.ovr.toNat
      + (if s.eng.phase = .idle then 0 else 1) := by
  simp only [State.statusWord, toNat_append_add, toNat_bit, BitVec.toNat_ofNat, State.busy_toNat]
  omega

/-- Settles O48: the sixteen rows are the registers, each by its offset and the word that it reads as. -/
theorem registerReads : Obligations.RegisterReads := by
  intro s o v h
  rw [← State.statusWord_toNat, BitVec.ofNat_toNat, BitVec.setWidth_eq] at h
  have hrow : (o, v) ∈ regNames.map (fun r => (r.offset, s.readReg r)) := h
  obtain ⟨r, -, he⟩ := List.mem_map.1 hrow
  obtain ⟨rfl, rfl⟩ := Prod.mk.inj he
  exact hostStep_rd_offset r s

/-- The registers and reserved offsets that ignore a write (R126). -/
def readOnlyRegs : List RegName :=
  [.id, .hdrw, .hdrx, .afr, .afc, .plr, .trkr, .pktn, .cfgn, .cfgb, .res38, .res3c]

theorem State.writeReg_readOnly {r : RegName} (hr : r ∈ readOnlyRegs) (v : Word) (s : State) : s.writeReg r v = s := by
  cases r with
  | cmd | status | arg0 | arg1 => exact absurd hr (by decide)
  | id | hdrw | hdrx | afr | afc | plr | trkr | pktn | cfgn | cfgb | res38 | res3c => rfl

/-- Settles O47: the twelve offsets are those of the read-only registers. -/
theorem readOnlyWritesIgnored : Obligations.ReadOnlyWritesIgnored := by
  intro s v o h
  have hoffset : o ∈ readOnlyRegs.map RegName.offset := h
  obtain ⟨r, hr, rfl⟩ := List.mem_map.1 hoffset
  rw [hostStep_wr_offset, State.writeReg_readOnly hr, State.respond]

theorem State.writeCmd_idle {s : State} (h : s.eng.phase = .idle) (v : Word) : s.writeCmd v = s.accept v :=
  if_neg fun hbusy => State.busy_iff.1 hbusy h

theorem State.writeCmd_busy {s : State} (h : s.eng.phase ≠ .idle) (v : Word) : s.writeCmd v = s.rejectCmd :=
  if_pos (State.busy_iff.2 h)

/-- Settles O45: the two branches of the CMD write. -/
theorem cmdWriteStartsOrDrops : Obligations.CmdWriteStartsOrDrops := by
  intro s v
  have hwrite : hostStep (.wr 32 0x04 v) s = (s.writeCmd v).respond .done := hostStep_wr_offset .cmd v s
  refine ⟨fun hidle => ?_, fun hbusy => ?_⟩
  · rw [hwrite, State.writeCmd_idle hidle]; rfl
  · rw [hwrite, State.writeCmd_busy hbusy]; rfl

/-- Settles O46: the STATUS write by its bit 1, and the two argument registers. -/
theorem statusAndArgumentWrites : Obligations.StatusAndArgumentWrites := by
  intro s v
  have hwrite : hostStep (.wr 32 0x08 v) s = (s.statusWrite v).respond .done := hostStep_wr_offset .status v s
  refine ⟨fun hset => ?_, fun hclear => ?_, hostStep_wr_offset .arg0 v s, hostStep_wr_offset .arg1 v s⟩
  · rw [hwrite, State.statusWrite, hset, Bool.not_true, Bool.and_false]; rfl
  · rw [hwrite, State.statusWrite, hclear, Bool.not_false, Bool.and_true]; rfl

/-! ### BUF accesses -/

section
variable {s : State} {a : Nat} (ha : a < s.params.bufBytes)
include ha

/-- A one-byte access inside BUF is no bus error (20_memory.md R53, R54). -/
theorem State.bufAccessError_inside : ¬ s.bufAccessError 8 a = true := by
  simpa [State.bufAccessError] using ha

theorem hostStep_rdb_inside :
    hostStep (.rdb 8 a) s =
      ((s.bufRead a).2.noteHazard (s.hazardRead a)).respond (.byte (s.bufRead a).1) :=
  if_neg (State.bufAccessError_inside ha)

theorem hostStep_wrb_inside (v : Byte) :
    hostStep (.wrb 8 a v) s = ((s.noteHazard (s.hazardWrite a)).bufWrite a v).respond .done :=
  if_neg (State.bufAccessError_inside ha)

end

/-- Settles O51: a BUF read of a written and of an unwritten byte. -/
theorem bufByteRead : Obligations.BufByteRead := by
  intro s a ha
  refine ⟨fun v hwritten => ?_, fun hunwritten => ?_⟩
  · rw [hostStep_rdb_inside ha, State.bufRead_written hwritten]; rfl
  · rw [hostStep_rdb_inside ha, State.bufRead_unwritten hunwritten]; rfl

/-- Settles O52: the new BUF is the old one with the byte written. -/
theorem bufByteWrite : Obligations.BufByteWrite := fun s a v ha =>
  ⟨s.buf.write a v, hostStep_wrb_inside ha v, fun hwf => Memory.wf_write hwf a v, Memory.read_write s.buf a v⟩

/-! ### The BUSY window -/

/-- Settles O54: of a transaction's effects only the acceptance of a command reaches more than OVR, ARG0 and ARG1 of the
registers, and it needs an idle engine. -/
theorem hostLeavesRunningCommandAlone : Obligations.HostLeavesRunningCommandAlone := by
  intro s op hbusy
  cases hostStep_cases op s with
  | accepted _ _ hidle => exact absurd hidle hbusy
  | answered _ he | dropped _ _ _ he | status _ _ he | argument _ _ he | bufRead _ _ _ _ _ he | bufWrite _ _ _ _ he =>
    rw [he]; exact ⟨rfl, rfl, rfl, rfl, rfl, rfl⟩

end Sys2Proof.Machine
end

section
/-! The error codes, and how a command ends with one (60_exceptions.md). -/

namespace Sys2Proof.Machine

/-! ### The codes -/

/-- The names of R132's table, in its order. -/
def ErrCode.table : List ErrCode :=
  [.ok, .wrongSize, .malformedHeader, .truncatedAf, .inconsistentAfLen, .afZeroLen, .pidRange, .badTrack, .range,
    .badArg, .illegalCmd]

theorem ErrCode.mem_table (c : ErrCode) : c ∈ ErrCode.table := by
  cases c <;> decide

/-- The codes of the table are its row numbers (R132). -/
theorem ErrCode.table_codes : ErrCode.table.map (fun c => c.code.toNat) = List.range 11 := by decide

/-- Settles O50: every name is in the table, whose codes are the row numbers, so they are below 11 and do not repeat. -/
theorem errorCodeValues : Obligations.ErrorCodeValues := by
  refine ⟨ErrCode.table_codes, fun c => ?_, fun c d hcode => ?_⟩
  · have hrow : c.code.toNat ∈ List.range 11 := ErrCode.table_codes ▸ List.mem_map_of_mem c.mem_table
    exact Nat.le_of_lt_succ (List.mem_range.1 hrow)
  · have hdistinct : (ErrCode.table.map (fun c => c.code.toNat)).Nodup := ErrCode.table_codes ▸ List.nodup_range
    exact List.inj_on_of_nodup_map hdistinct c.mem_table d.mem_table (congrArg BitVec.toNat hcode)

/-! ### Completion in every case -/

/-- Settles O34: a check that fails completes the command, and a PACKETIZE that passes its checks has its first chunk, slot
and range (`exec_next`). -/
theorem execAlwaysAnswersNext : Obligations.ExecAlwaysAnswersNext := exec_next

/-- Settles O6: the engine step from START decodes, and ILLEGAL completes at once. -/
theorem illegalCommandCompletes : Obligations.IllegalCommandCompletes := fun _ _ hphase hdecode =>
  (engineStep_start hphase).trans (runCommand_illegal hdecode)

/-! ### A failing command -/

/-- The emission of a chunk by a running engine ends the command with OK only (43_packetizer.md R107). -/
theorem State.emitChunk_err_of_idle {s : State} (hrun : s.eng.phase = .run) (hidle : s.emitChunk.eng.phase = .idle) :
    s.emitChunk.regs.err = .ok := by
  rw [State.emitChunk_eq] at hidle ⊢
  dsimp only at hidle ⊢
  split at hidle
  · next hlast => rw [if_pos hlast]
  · exact absurd (hrun.symm.trans hidle) (by decide)

/-- A command that its first engine step ends with a non-zero code changes STATUS alone, and fault_uninit where AF_DEC
or PARSE read (60_exceptions.md R135). -/
theorem exec_failed {i : Instr} {s s' : State} (h : exec i s = .next s') (hidle : s'.eng.phase = .idle)
    (herr : s'.regs.err ≠ .ok) :
    ∃ c u d, s' = (s.withReads u d).complete c ∧ (s.faultUninit = true → u = true) ∧
      (u ≠ s.faultUninit → i = .afDec ∨ i = .parse) := by
  cases exec_cases h with
  | failed c u d _ _ hu hr he => exact ⟨c, u, d, he, hu, hr⟩
  | results _ _ _ _ _ he | created _ _ _ _ _ _ _ he | freed _ _ _ he | seeded _ _ _ _ he | field _ _ _ _ _ _ he =>
    rw [he] at herr; exact absurd rfl herr
  | packet t _ _ _ _ _ _ he =>
    rw [he] at hidle herr
    exact absurd (State.emitChunk_err_of_idle (s := s.packetizing t) rfl hidle) herr

/-- Settles O35: only a first engine step ends a command with a non-zero code, as ILLEGAL or through a failed check; a
packet step of a running PACKETIZE ends it with OK. -/
theorem failureAtomicity : Obligations.FailureAtomicity := by
  intro s s' hbusy h hidle herr
  obtain ⟨hphase, -⟩ | ⟨hphase, -, rfl⟩ | ⟨hphase, i, hdecode, hexec⟩ | ⟨hphase, hpacket⟩ := engineStep_cases h
  · exact absurd hphase hbusy
  · exact ⟨hphase, rfl, id, absurd rfl⟩
  · obtain ⟨c, u, d, rfl, hkept, hread⟩ := exec_failed hexec hidle herr
    exact ⟨hphase, rfl, hkept, fun hu => by simpa only [hdecode, Decoded.instr.injEq] using hread hu⟩
  · obtain ⟨-, -, -, rfl⟩ := packetStep_next hpacket
    exact absurd (State.emitChunk_err_of_idle hphase hidle) herr

end Sys2Proof.Machine
end

section
/-! How long a command stays in progress (70_reset_and_hazards.md R159): one engine step, and for a PACKETIZE one per
packet. -/

namespace Sys2Proof.Machine

/-! ### The emission of a chunk and the engine -/

section emission
variable {s : State}

@[simp] theorem State.emitChunk_inputs : s.emitChunk.inputs = s.inputs := by
  rw [State.emitChunk_eq]; dsimp only; split <;> exact bufReadList_inputs ..

/-- The emission of the last chunk ends the command (43_packetizer.md R107). -/
theorem State.emitChunk_idle (hlast : s.eng.i + 1 = s.eng.n) : s.emitChunk.eng.phase = .idle := by
  rw [State.emitChunk_eq]; dsimp only; rw [if_pos hlast]

/-- The emission of any other chunk advances the engine to the next one (43_packetizer.md R107). -/
theorem State.emitChunk_advances (hmore : s.eng.i + 1 ≠ s.eng.n) :
    s.emitChunk.eng = { s.eng with i := s.eng.i + 1 } := by
  rw [State.emitChunk_eq]; dsimp only; rw [if_neg hmore]

end emission

/-! ### Completion after a number of steps -/

/-- The engine is idle after `k` steps, and in phase RUN between the first step and the last. -/
structure State.CompletesIn (k : Nat) (s : State) : Prop where
  ends : ∃ s', runSteps k s = .next s' ∧ s'.idle
  running : ∀ j sj, 1 ≤ j → j < k → runSteps j s = .next sj → sj.eng.phase = .run

theorem State.CompletesIn.one {s s' : State} (h : step s = .next s') (hidle : s'.idle) : s.CompletesIn 1 :=
  ⟨⟨s', runSteps_cons h, hidle⟩, fun _ _ h1 h2 => absurd h1 (Nat.not_le.2 h2)⟩

/-- A step into phase RUN is one step more. -/
theorem State.CompletesIn.cons {k : Nat} {s s' : State} (h : step s = .next s') (hrun : s'.eng.phase = .run)
    (hk : s'.CompletesIn k) : s.CompletesIn (k + 1) := by
  obtain ⟨⟨t, hruns, hidle⟩, hbetween⟩ := hk
  refine ⟨⟨t, (runSteps_cons h).trans hruns, hidle⟩, fun j sj hj hjk hsj => ?_⟩
  obtain ⟨j, rfl⟩ := Nat.exists_eq_add_of_le' hj
  rw [runSteps_cons h] at hsj
  cases j with
  | zero => cases hsj; exact hrun
  | succ j => exact hbetween (j + 1) sj (Nat.succ_pos j) (by omega) hsj

/-- A running PACKETIZE that meets no stop takes one step per chunk left. `r` is the state whose chunk the first step
emits: `s` itself in phase RUN, and the progress state that the checks set up in phase START (R106). -/
theorem State.Inv.completesIn {k : Nat} {r s : State} (h : r.Inv) (halone : r.inputs = []) (hphase : r.eng.phase = .run)
    (hleft : r.eng.n = r.eng.i + k) (hstep : step s = .next r.emitChunk) : s.CompletesIn k := by
  induction k generalizing r s with
  | zero => exact absurd (h.run hphase).index (by omega)
  | succ k ih =>
    by_cases hlast : r.eng.i + 1 = r.eng.n
    · obtain rfl : k = 0 := by omega
      exact .one hstep (emitChunk_idle hlast)
    · have hinv := h.emitChunk hphase
      have halone' : r.emitChunk.inputs = [] := emitChunk_inputs.trans halone
      have heng := emitChunk_advances hlast
      have hphase' : r.emitChunk.eng.phase = .run := by rw [heng, hphase]
      have hnext : step r.emitChunk = .next r.emitChunk.emitChunk := by
        rw [step_of_no_inputs halone', engineStep_run hphase', (hinv.run hphase').packetStep_next]
      exact .cons hstep hphase' (ih hinv halone' hphase' (by rw [heng, hleft]; dsimp only; omega) hnext)

/-- The first engine step ends a command, unless it emits packet 0 of a PACKETIZE (R106). -/
theorem exec_idle_or_packet {i : Instr} {s s' : State} (h : exec i s = .next s') :
    s'.idle ∨ ∃ t fp, i = .packetize t fp ∧ t < s.params.nTracks ∧ (s.trk t).valid = true ∧
      s.arg0Nat + s.arg1Nat ≤ s.params.bufBytes ∧ 0 < s.arg1Nat ∧ s' = (s.packetizing t).emitChunk := by
  cases exec_cases h with
  | failed _ _ _ _ _ _ _ he | results _ _ _ _ _ he | created _ _ _ _ _ _ _ he | freed _ _ _ he | seeded _ _ _ _ he
  | field _ _ _ _ _ _ he => rw [he]; exact .inl rfl
  | packet t fp hi ht hv hb hl he => exact .inr ⟨t, fp, hi, ht, hv, hb, hl, he⟩

/-- A command that is accepted and not yet begun. -/
theorem State.Inv.completesIn_start {s : State} (h : s.Inv) (halone : s.inputs = []) (hphase : s.eng.phase = .start) :
    s.CompletesIn 1 ∨
      (∃ t fp, decode s.eng.cmd = .instr (.packetize t fp)) ∧ 0 < s.arg1Nat ∧
        s.CompletesIn (ceilDiv s.arg1Nat Config.maxChunk) := by
  have hstep : step s = runCommand s := (step_of_no_inputs halone).trans (engineStep_start hphase)
  cases hdecode : decode s.eng.cmd with
  | illegal why => exact .inl (.one (hstep.trans (runCommand_illegal hdecode)) rfl)
  | instr i =>
    obtain ⟨s', hexec⟩ := exec_next i s
    rw [runCommand_instr hdecode, hexec] at hstep
    obtain hidle | ⟨t, fp, rfl, ht, hv, hb, hl, rfl⟩ := exec_idle_or_packet hexec
    · exact .inl (.one hstep hidle)
    · exact .inr ⟨⟨t, fp, rfl⟩, hl,
        (h.packetizing hdecode ht hv hb hl).completesIn halone rfl (Nat.zero_add _).symm hstep⟩

/-- A PACKETIZE in phase RUN. -/
theorem State.Inv.completesIn_run {s : State} (h : s.Inv) (halone : s.inputs = []) (hphase : s.eng.phase = .run) :
    s.CompletesIn (s.eng.n - s.eng.i) := by
  have hrun := h.run hphase
  refine h.completesIn halone hphase (Nat.add_sub_cancel' hrun.index.le).symm ?_
  rw [step_of_no_inputs halone, engineStep_run hphase, hrun.packetStep_next]

/-- Settles O60: one step in phase START or one per chunk of a PACKETIZE, and in phase RUN one per chunk left. -/
theorem acceptedCommandCompletes : Obligations.AcceptedCommandCompletes := by
  intro s h halone hbusy
  suffices hends : ∃ k, 1 ≤ k ∧ k ≤ max 1 ((s.eng.a1.toNat + 181) / 182) ∧ s.CompletesIn k ∧
      ((∀ t fp, decode s.eng.cmd ≠ .instr (.packetize t fp)) → k = 1) by
    obtain ⟨k, hpos, hbound, ⟨⟨s', hruns, hidle⟩, hbetween⟩, hone⟩ := hends
    exact ⟨k, s', hpos, hbound, hruns, hidle, hone, hbetween⟩
  cases hphase : s.eng.phase with
  | idle => exact absurd hphase hbusy
  | start =>
    obtain hc | ⟨⟨t, fp, hdecode⟩, hlen, hc⟩ := h.completesIn_start halone hphase
    · exact ⟨1, le_rfl, le_max_left .., hc, fun _ => rfl⟩
    · have hpos : 1 ≤ (s.arg1Nat + 181) / 182 := by omega
      rw [ceilDiv_chunk] at hc
      exact ⟨_, hpos, le_max_right .., hc, fun hother => absurd hdecode (hother t fp)⟩
  | run =>
    have hrun := h.run hphase
    obtain ⟨fp, hdecode⟩ := hrun.command
    have hindex := hrun.index
    have hcount : s.eng.n = (s.eng.a1.toNat + 181) / 182 := by
      rw [hrun.count, hrun.length]; exact ceilDiv_chunk _
    exact ⟨s.eng.n - s.eng.i, by omega, by omega, h.completesIn_run halone hphase,
      fun hother => absurd hdecode (hother _ fp)⟩

end Sys2Proof.Machine
end

section
/-! Which agent a step moves, a placed command word, and the block reset (10_state.md R18, 70_reset_and_hazards.md
R148). -/

namespace Sys2Proof.Machine

theorem step_of_event {s : State} {e : Event} {rest : List Event} (h : s.inputs = e :: rest) :
    step s = eventStep e (s.withInputs rest) := by
  rw [step, nextStep, h]

/-- Settles O9: the head of the inputs is the event, and an idle engine's turn changes nothing. -/
theorem stepTakesOldestEvent : Obligations.StepTakesOldestEvent := by
  intro s rest
  exact ⟨fun _ => step_of_event, fun _ => step_of_event, step_of_event, step_of_event, step_of_no_inputs,
    fun hnone hidle => (step_of_no_inputs hnone).trans (engineStep_idle hidle)⟩

/-- A 32-bit word is placed as it is: the engine accepts it and nothing else is pending (45_host_access.md R122). -/
theorem State.withFetchWord_toNat (w : Word) (s : State) : s.withFetchWord 32 w.toNat = s.withCommand w := by
  rw [State.withFetchWord, Nat.mod_eq_of_lt w.isLt, BitVec.ofNat_toNat, BitVec.setWidth_eq]

/-- Settles O10: the placed word is a command in phase START, which O8 runs, and it decodes to `i` by O1. -/
theorem placedWordRuns : Obligations.PlacedWordRuns := by
  intro i s hwf
  have hrun := (stepRunsDecodedCommand (s.withCommand (encode i)) i rfl (decodeEncodeRoundTrip i hwf)).1 rfl
  rw [State.withFetchWord_toNat]
  exact hrun

/-- Settles O7: twelve of the words are the encodings of their commands, and the other two select no row. -/
theorem specWordsDecode : Obligations.SpecWordsDecode :=
  ⟨decodeEncodeRoundTrip .nop rfl, decodeEncodeRoundTrip (.trkCfg 1) rfl, decodeEncodeRoundTrip (.trkFree 4) rfl,
    decodeEncodeRoundTrip (.trkSetcc 2) rfl, decodeEncodeRoundTrip (.trkRead 15) rfl,
    decodeEncodeRoundTrip .hdrEnc rfl, decodeEncodeRoundTrip .hdrDec rfl, decodeEncodeRoundTrip .afEnc rfl,
    decodeEncodeRoundTrip .afDec rfl, decodeEncodeRoundTrip (.packetize 0 true) rfl,
    decodeEncodeRoundTrip (.packetize 2 false) rfl, decodeEncodeRoundTrip .parse rfl, by decide, by decide⟩

/-- STATUS reads 0 after a reset: no field of it is set, and the engine is idle (R51). -/
theorem State.blockReset_statusWord (s : State) : s.blockReset.statusWord = 0#32 := by
  apply BitVec.eq_of_toNat_eq
  rw [State.statusWord_toNat]; rfl

/-- Settles O56: the reset is the step, whatever the phase, and each value is the one that `State.blockReset` sets. -/
theorem resetSetsEveryValue : Obligations.ResetSetsEveryValue := by
  intro s rest hreset
  refine ⟨(s.withInputs rest).blockReset, step_of_event hreset, ⟨rfl, rfl, rfl, rfl⟩, rfl, rfl, List.length_replicate,
    fun t _ => State.blockReset_trk _ t, State.blockReset_statusWord _, Memory.read_nil, rfl, rfl, rfl, rfl⟩

end Sys2Proof.Machine
end

section
/-! The named stops of a packet step (log 7), and the footprint of the command in progress (70_reset_and_hazards.md
R155). -/

namespace Sys2Proof.Machine

/-! ### The stops of a packet step -/

section stops
variable {s : State}

theorem packetStep_no_chunk (h : s.eng.n ≤ s.eng.i ∨ s.eng.len ≤ 182 * s.eng.i) :
    packetStep s = .fault .engineChunkIndex :=
  if_pos (by rw [not_and_or, Nat.not_lt, Nat.not_lt]; exact h)

theorem packetStep_of_chunk (hindex : s.eng.i < s.eng.n) (hchunk : 182 * s.eng.i < s.eng.len) :
    packetStep s =
      if s.slotExists s.eng.t = false then .fault .engineTrackIndex
      else if s.params.bufBytes < s.eng.src + 182 * s.eng.i + chunkLen s.eng.len s.eng.i then .fault .engineBufRange
      else .next s.emitChunk :=
  if_neg (not_not.2 ⟨hindex, hchunk⟩)

end stops

/-- Settles O27: the three guards of a packet step, each where the guards before it pass. -/
theorem packetStepStopsOutsideItsState : Obligations.PacketStepStopsOutsideItsState := by
  intro s hphase
  rw [engineStep_run hphase]
  refine ⟨packetStep_no_chunk, fun hindex hchunk hslot => ?_, fun hindex hchunk hslot hrange => ?_⟩
  · rw [packetStep_of_chunk hindex hchunk, if_pos ((State.slotExists_iff_not _ s).2 hslot)]
  · have hexists : ¬ s.slotExists s.eng.t = false := by simpa using hslot
    rw [packetStep_of_chunk hindex hchunk, if_neg hexists]
    exact if_pos hrange

/-! ### Hazards -/

theorem Span.has_iff (x : Span) (a : Nat) : x.has a = true ↔ x.lo ≤ a ∧ a < x.lo + x.len := decide_eq_true_iff

@[simp] theorem Span.has_none (a : Nat) : Span.none.has a = false :=
  decide_eq_false fun h => Nat.not_le.2 h.2 h.1

/-- A footprint that depends on a check of the operands (R155). -/
theorem Span.has_ite_none (p : Prop) {_ : Decidable p} (x : Span) (a : Nat) :
    (if p then x else Span.none).has a = true ↔ p ∧ x.lo ≤ a ∧ a < x.lo + x.len := by
  split
  · next hp => rw [Span.has_iff, and_iff_right hp]
  · next hp => simp [hp]

section hazards
variable {s : State} {a : Nat}

theorem State.hazardWrite_idle (h : s.eng.phase = .idle) : s.hazardWrite a = false := by
  simp [State.hazardWrite, State.busy, h]

/-- A hazardous read is an access that is a hazard as a write too (R155). -/
theorem State.hazardRead_eq :
    s.hazardRead a = (decide (decode s.eng.cmd = .instr .afEnc) && s.hazardWrite a) := by
  rw [State.hazardRead, State.hazardWrite, Bool.and_comm s.busy, Bool.and_assoc]; rfl

theorem State.hazardRead_afEnc (h : decode s.eng.cmd = .instr .afEnc) : s.hazardRead a = s.hazardWrite a := by
  rw [State.hazardRead_eq, decide_eq_true h, Bool.true_and]

theorem State.hazardRead_other (h : decode s.eng.cmd ≠ .instr .afEnc) : s.hazardRead a = false := by
  rw [State.hazardRead_eq, decide_eq_false h, Bool.false_and]

/-- While a command is in progress the hazardous writes are those into its footprint (R155). -/
theorem State.hazardWrite_busy (hbusy : s.eng.phase ≠ .idle) {d : Decoded} (h : decode s.eng.cmd = d) :
    s.hazardWrite a = (Machine.footprint d s.arg0Nat s.arg1Nat).has a := by
  rw [State.hazardWrite, State.busy_iff.2 hbusy, Bool.true_and, State.footprint, h]

end hazards

/-- A word whose command reads and writes no BUF byte has no footprint (R155). -/
theorem footprint_none {d : Decoded} (hpacketize : ∀ t fp, d ≠ .instr (.packetize t fp)) (hparse : d ≠ .instr .parse)
    (hafDec : d ≠ .instr .afDec) (hafEnc : d ≠ .instr .afEnc) (a0 a1 : Nat) : footprint d a0 a1 = Span.none := by
  cases d with
  | illegal why => rfl
  | instr i =>
    cases i with
    | packetize t fp => exact absurd rfl (hpacketize t fp)
    | parse => exact absurd rfl hparse
    | afDec => exact absurd rfl hafDec
    | afEnc => exact absurd rfl hafEnc
    | nop | trkCfg | trkFree | trkSetcc | trkRead | hdrEnc | hdrDec => rfl

/-- Settles O53: the footprint row by row, and the flag that a BUF access inside BUF notes. -/
theorem footprintHazards : Obligations.FootprintHazards := by
  intro s a a0 a1
  refine ⟨fun hidle => ?_, fun hbusy d hd => ⟨?_, ?_, ?_, ?_, ?_⟩, fun ha => ⟨fun hwrite v => ?_, fun hread => ?_⟩⟩
  · have hwrite : s.hazardWrite a = false := State.hazardWrite_idle hidle
    exact ⟨hwrite, by rw [State.hazardRead_eq, hwrite, Bool.and_false]⟩
  · rintro t fp rfl
    exact ⟨by rw [State.hazardWrite_busy hbusy hd]; exact Span.has_iff .., State.hazardRead_other (by simp [hd])⟩
  · rintro rfl
    exact ⟨by rw [State.hazardWrite_busy hbusy hd]; exact Span.has_ite_none ..,
      State.hazardRead_other (by simp [hd])⟩
  · rintro rfl
    exact ⟨by rw [State.hazardWrite_busy hbusy hd]; exact Span.has_iff .., State.hazardRead_other (by simp [hd])⟩
  · rintro rfl
    have hwrite : s.hazardWrite a = true ↔ a0 ≤ 254 ∧ a1 ≤ a ∧ a < a1 + 2 + a0 := by
      rw [State.hazardWrite_busy hbusy hd, Nat.add_assoc]; exact Span.has_ite_none ..
    exact ⟨hwrite, State.hazardRead_afEnc hd ▸ hwrite⟩
  · intro hpacketize hparse hafDec hafEnc
    rw [State.hazardWrite_busy hbusy hd, footprint_none hpacketize hparse hafDec hafEnc]
    exact ⟨Span.has_none a, State.hazardRead_other (hd ▸ hafEnc)⟩
  · rw [hostStep_wrb_inside ha, hwrite]; exact Bool.or_true _
  · rw [hostStep_rdb_inside ha, hread]; exact Bool.or_true _

end Sys2Proof.Machine
end
